-- ==== Sys2Proof/Word.lean ====
section
/-! DEFINITION. The word types of the block (spec/00_scope.md R4, R6). All quantities are unsigned. -/

namespace Sys2Proof

/-- A command word, a register word or a counter: CMD_W = CNT_W = 32 bits (R4). -/
abbrev Word := BitVec 32

/-- A symbol or a byte of a stream: SYM_W = 8 bits (R4). -/
abbrev Byte := BitVec 8

/-- A tree-memory index: IDX_W = 9 bits (R4). -/
abbrev Idx := BitVec 9

/-- A register number: 5 bits (spec/10_state.md R14). -/
abbrev RegNum := BitVec 5

end Sys2Proof
end

