-- ==== Sys2Proof/Config.lean ====
section
/-! DEFINITION. The implementation parameters of the block. The spec fixes each one
(spec/00_scope.md R4), so none is a free value. -/

namespace Sys2Proof.Config

/-- NSYM: symbols in the alphabet, entries of the code table (R4). -/
abbrev nsym : Nat := 256

/-- CODE_MAX: the longest code a code-table entry can hold, in bits (R4). -/
abbrev codeMax : Nat := 255

/-- TM_NODES: entries of the tree memory, indices 0..510 (R4). -/
abbrev tmNodes : Nat := 511

/-- NIL: the index value that means "no child" (R4). -/
abbrev nil : Idx := 0x1FF#9

/-- ID_VALUE: the value of the ID register, ASCII "HBC1" (R4). -/
abbrev idValue : Word := 0x48424331#32

end Sys2Proof.Config
end

