-- ==== Sys2Proof/Syntax.lean ====
section
/-! DEFINITION. The commands of HBC-1 (spec/30_encoding.md R83), one constructor per row of the opcode
table, and the names of the registers (spec/10_state.md R14). -/

namespace Sys2Proof

/-- The assigned registers of the register space (spec/10_state.md R14). -/
inductive Reg where
  | id | ctrl | gstat | troot
  | encStatus | encErrinfo | encAcc | encCtsel | encSyms | encBits | encBytes
  | decStatus | decErrinfo | decCur | decBits | decSyms
deriving DecidableEq, Repr

/-- A command with its operands as the word carries them (R81, R82): `WellFormed` says which operand
values are legal. -/
inductive Instr where
  | nop
  | srst
  | rdreg (r : RegNum)
  | wrreg (r : RegNum) (v : BitVec 16)
  | encInit
  | ctClr
  | ctOpen (sym : Byte)
  | ctPush (b : Bool)
  | encPut (sym : Byte)
  | encEnd
  | encAbort
  | decInit
  | tLeaf (idx : Idx) (sym : Byte)
  | tInt (idx left right : Idx)
  | decPut (byte : Byte) (n : BitVec 4)
  | decEnd
  | decAbort
deriving DecidableEq, Repr

end Sys2Proof
end

