-- ==== Sys2Proof/WellFormed.lean ====
section
/-! DEFINITION. Which commands are legal as syntax: the operand ranges of spec/30_encoding.md R86. -/

namespace Sys2Proof

/-- Every operand is in its legal range: R86 (a) RDREG of an assigned register; (b), (c), (d) WRREG of
CTRL with `v[15:3] = 0` or of TROOT with `v[15:10] = 0` and `v[8:0]` not NIL; (e) a tree index that is
not NIL; (f) a bit count of at most 8. Every other operand value is legal. -/
def Instr.wellFormed : Instr → Bool
  | .nop => true
  | .srst => true
  | .rdreg r => decide (r.toNat ≤ 10 ∨ (16 ≤ r.toNat ∧ r.toNat ≤ 20))
  | .wrreg r v =>
    decide ((r = 1#5 ∧ v.toNat < 8) ∨ (r = 3#5 ∧ v.toNat < 1024 ∧ v.toNat % 512 ≠ 511))
  | .encInit => true
  | .ctClr => true
  | .ctOpen _ => true
  | .ctPush _ => true
  | .encPut _ => true
  | .encEnd => true
  | .encAbort => true
  | .decInit => true
  | .tLeaf idx _ => decide (idx.toNat ≤ 510)
  | .tInt idx _ _ => decide (idx.toNat ≤ 510)
  | .decPut _ n => decide (n.toNat ≤ 8)
  | .decEnd => true
  | .decAbort => true

/-- The proposition form of `wellFormed`, decidable. -/
abbrev Instr.WellFormed (i : Instr) : Prop := i.wellFormed = true

end Sys2Proof
end

