-- ==== Sys2Proof/Decode.lean ====
section
/-! DEFINITION. Decoding a command word (spec/30_encoding.md R80 to R88), total on every word and
refusing by name; the encoder, from the same format table; the opcode map of R83 as rows of match and
mask. -/

namespace Sys2Proof

/-! ## Registers -/

/-- The register with number `r`, if `r` is assigned (spec/10_state.md R14, R36). -/
def regOf (r : RegNum) : Option Reg :=
  match r.toNat with
  | 0 => some .id
  | 1 => some .ctrl
  | 2 => some .gstat
  | 3 => some .troot
  | 4 => some .encStatus
  | 5 => some .encErrinfo
  | 6 => some .encAcc
  | 7 => some .encCtsel
  | 8 => some .encSyms
  | 9 => some .encBits
  | 10 => some .encBytes
  | 16 => some .decStatus
  | 17 => some .decErrinfo
  | 18 => some .decCur
  | 19 => some .decBits
  | 20 => some .decSyms
  | _ => none

/-! ## Decoding -/

/-- Why a word spells no command. The block answers ILLEGAL to all of them (spec/60_exceptions.md
R207); the names are the model's, one for each ground of R84 to R86. -/
inductive Illegal where
  /-- R84: opcode 0x0B to 0x0F or 0x16 to 0x1F. -/
  | reservedOpcode
  /-- R85: a 1 in a payload bit that the format marks 0. -/
  | reservedBits
  /-- R86 (a), R36: a register number that is not assigned. -/
  | reservedRegister
  /-- R86 (b): WRREG of a read-only register. -/
  | readOnlyRegister
  /-- R86 (c): WRREG of CTRL with `v[15:3]` not zero. -/
  | ctrlReserved
  /-- R86 (d): WRREG of TROOT with `v[15:10]` not zero. -/
  | trootReserved
  /-- R86 (d): WRREG of TROOT with `v[8:0]` = NIL. -/
  | nilRoot
  /-- R86 (e): T.LEAF or T.INT with `idx` = NIL. -/
  | nilIndex
  /-- R86 (f): DEC.PUT with `n` above 8. -/
  | bitCount
deriving DecidableEq, Repr

/-- What a word decodes to (R87: a total function to a command or `illegal`). -/
inductive Decoded where
  | instr (i : Instr)
  | illegal (why : Illegal)
deriving DecidableEq, Repr

/-- The six range checks of R86, in the order R87 makes them; `none` when every operand is legal. -/
def rangeFault : Instr → Option Illegal
  | .nop => none
  | .srst => none
  | .rdreg r =>
    match regOf r with
    | some _ => none
    | none => some .reservedRegister
  | .wrreg r v =>
    match regOf r with
    | some .ctrl => if v.extractLsb' 3 13 = 0#13 then none else some .ctrlReserved
    | some .troot =>
      if v.extractLsb' 10 6 ≠ 0#6 then some .trootReserved
      else if v.extractLsb' 0 9 = Config.nil then some .nilRoot
      else none
    | some _ => some .readOnlyRegister
    | none => some .reservedRegister
  | .encInit => none
  | .ctClr => none
  | .ctOpen _ => none
  | .ctPush _ => none
  | .encPut _ => none
  | .encEnd => none
  | .encAbort => none
  | .decInit => none
  | .tLeaf idx _ => if idx = Config.nil then some .nilIndex else none
  | .tInt idx _ _ => if idx = Config.nil then some .nilIndex else none
  | .decPut _ n => if n.toNat ≤ 8 then none else some .bitCount
  | .decEnd => none
  | .decAbort => none

/-- Accepts a candidate command unless one of the bits its format marks `0` is set (R85) or an operand
is out of range (R86). -/
def accept (reservedZero : Bool) (i : Instr) : Decoded :=
  if reservedZero then
    match rangeFault i with
    | none => .instr i
    | some why => .illegal why
  else .illegal .reservedBits

/-- The slice of `len` bits of `w` from bit `lo` up, as an unsigned field (R82). -/
def field (w : Word) (lo len : Nat) : BitVec len := w.extractLsb' lo len

/-- The `len` bits of `w` from bit `lo` up are all 0 (a cell `0` of the format table R81). -/
def zeros (w : Word) (lo len : Nat) : Bool := decide (field w lo len = 0#len)

/-- Decode of R87: the opcode alone decides the format, the format decides which payload bits are
fields and which must be zero (R80, R81). -/
def decode (w : Word) : Decoded :=
  match (field w 27 5).toNat with
  | 0x00 => accept (zeros w 0 27) .nop
  | 0x01 => accept (zeros w 0 27) .srst
  | 0x02 => accept (zeros w 21 6 && zeros w 0 16) (.rdreg (field w 16 5))
  | 0x03 => accept (zeros w 21 6) (.wrreg (field w 16 5) (field w 0 16))
  | 0x04 => accept (zeros w 0 27) .encInit
  | 0x05 => accept (zeros w 0 27) .ctClr
  | 0x06 => accept (zeros w 8 19) (.ctOpen (field w 0 8))
  | 0x07 => accept (zeros w 1 26) (.ctPush (w.getLsbD 0))
  | 0x08 => accept (zeros w 8 19) (.encPut (field w 0 8))
  | 0x09 => accept (zeros w 0 27) .encEnd
  | 0x0A => accept (zeros w 0 27) .encAbort
  | 0x10 => accept (zeros w 0 27) .decInit
  | 0x11 => accept (zeros w 8 10) (.tLeaf (field w 18 9) (field w 0 8))
  | 0x12 => accept true (.tInt (field w 18 9) (field w 9 9) (field w 0 9))
  | 0x13 => accept (zeros w 12 15) (.decPut (field w 0 8) (field w 8 4))
  | 0x14 => accept (zeros w 0 27) .decEnd
  | 0x15 => accept (zeros w 0 27) .decAbort
  | _ => .illegal .reservedOpcode

/-- The command the host's table row spells: bit 0 of `w` is bit 0 of the one command word. A row has
32 bits; bits above `nbits` are 0. -/
def decodeTableWord (nbits w : Nat) : Option Instr :=
  match decode (BitVec.ofNat 32 (w % 2 ^ nbits)) with
  | .instr i => some i
  | .illegal _ => none

/-! ## Encoding -/

/-- A word of format Z: no payload (R81). -/
def formatZ (op : BitVec 5) : Word := op ++ 0#27

/-- A word of format S (R81). -/
def formatS (op : BitVec 5) (sym : Byte) : Word := op ++ 0#19 ++ sym

/-- The word that spells a command (R81 to R83). -/
def encode : Instr → Word
  | .nop => formatZ 0x00#5
  | .srst => formatZ 0x01#5
  | .rdreg r => 0x02#5 ++ 0#6 ++ r ++ 0#16
  | .wrreg r v => 0x03#5 ++ 0#6 ++ r ++ v
  | .encInit => formatZ 0x04#5
  | .ctClr => formatZ 0x05#5
  | .ctOpen sym => formatS 0x06#5 sym
  | .ctPush b => 0x07#5 ++ 0#26 ++ BitVec.ofBool b
  | .encPut sym => formatS 0x08#5 sym
  | .encEnd => formatZ 0x09#5
  | .encAbort => formatZ 0x0A#5
  | .decInit => formatZ 0x10#5
  | .tLeaf idx sym => 0x11#5 ++ idx ++ 0#10 ++ sym
  | .tInt idx left right => 0x12#5 ++ idx ++ left ++ right
  | .decPut byte n => 0x13#5 ++ 0#15 ++ n ++ byte
  | .decEnd => formatZ 0x14#5
  | .decAbort => formatZ 0x15#5

/-! ## The opcode map as rows -/

/-- The mnemonic of a command, as the table of R83 spells it. -/
def mnemonic : Instr → String
  | .nop => "NOP"
  | .srst => "SRST"
  | .rdreg _ => "RDREG"
  | .wrreg _ _ => "WRREG"
  | .encInit => "ENC.INIT"
  | .ctClr => "CT.CLR"
  | .ctOpen _ => "CT.OPEN"
  | .ctPush _ => "CT.PUSH"
  | .encPut _ => "ENC.PUT"
  | .encEnd => "ENC.END"
  | .encAbort => "ENC.ABORT"
  | .decInit => "DEC.INIT"
  | .tLeaf _ _ => "T.LEAF"
  | .tInt _ _ _ => "T.INT"
  | .decPut _ _ => "DEC.PUT"
  | .decEnd => "DEC.END"
  | .decAbort => "DEC.ABORT"

/-- A row of the opcode map: a word `w` spells the command when `w and mask = pattern` (R83). -/
structure OpRow where
  mnemonic : String
  pattern : Word
  mask : Word
deriving DecidableEq, Repr

/-- The rows of R83 for the global and encoder commands (opcode bit 4 = 0). -/
def opRowsLow : List OpRow :=
  [⟨"NOP", 0x00000000#32, 0xFFFFFFFF#32⟩, ⟨"SRST", 0x08000000#32, 0xFFFFFFFF#32⟩,
   ⟨"RDREG", 0x10000000#32, 0xFFE0FFFF#32⟩, ⟨"WRREG", 0x18000000#32, 0xFFE00000#32⟩,
   ⟨"ENC.INIT", 0x20000000#32, 0xFFFFFFFF#32⟩, ⟨"CT.CLR", 0x28000000#32, 0xFFFFFFFF#32⟩,
   ⟨"CT.OPEN", 0x30000000#32, 0xFFFFFF00#32⟩, ⟨"CT.PUSH", 0x38000000#32, 0xFFFFFFFE#32⟩,
   ⟨"ENC.PUT", 0x40000000#32, 0xFFFFFF00#32⟩, ⟨"ENC.END", 0x48000000#32, 0xFFFFFFFF#32⟩,
   ⟨"ENC.ABORT", 0x50000000#32, 0xFFFFFFFF#32⟩]

/-- The rows of R83 for the decoder commands (opcode bit 4 = 1). -/
def opRowsHigh : List OpRow :=
  [⟨"DEC.INIT", 0x80000000#32, 0xFFFFFFFF#32⟩, ⟨"T.LEAF", 0x88000000#32, 0xF803FF00#32⟩,
   ⟨"T.INT", 0x90000000#32, 0xF8000000#32⟩, ⟨"DEC.PUT", 0x98000000#32, 0xFFFFF000#32⟩,
   ⟨"DEC.END", 0xA0000000#32, 0xFFFFFFFF#32⟩, ⟨"DEC.ABORT", 0xA8000000#32, 0xFFFFFFFF#32⟩]

/-- The opcode map of R83, seventeen rows. -/
def opTable : List OpRow := opRowsLow ++ opRowsHigh

end Sys2Proof
end

