-- ==== Sys2Proof/Machine/State.lean ====
section
/-! DEFINITION. The state of the block as plain data (spec/10_state.md R10), the environment a model
carries beside it (R45), the ways a step can stop, and the state after reset (R43, R241). -/

namespace Sys2Proof.Machine

/-! ## Named values -/

/-- The STATE field of a unit (R24, R31). -/
inductive UnitState where
  | idle | run | done | fail
deriving DecidableEq, Repr

/-- The CAUSE field of a unit: 0 none, 1 UNENCODABLE, 2 MALFORMED, 3 IOERR; the values 4 to 15 never
appear (R24, R31). -/
inductive Cause where
  | none | unencodable | malformed | ioerr
deriving DecidableEq, Repr

/-- The response codes 0 to 6; 7 to 15 are never produced (spec/30_encoding.md R93). -/
inductive Code where
  | ok | unencodable | malformed | ioerr | illegal | seq | overflow
deriving DecidableEq, Repr

/-- One response: CODE and DATA (R92). -/
structure Response where
  code : Code
  data : Word
deriving DecidableEq, Repr

/-- A node of the tree memory; a child equal to NIL is absent (spec/20_memory.md R55). -/
inductive Node where
  | leaf (sym : Byte)
  | int (left right : Idx)
deriving DecidableEq, Repr

/-- A sink's answer to one byte (R58). -/
inductive Answer where
  | ok | fail
deriving DecidableEq, Repr

/-- What the host does next at the block's boundary, in the order in which it takes place
(spec/70_reset_and_hazards.md R240, R251). -/
inductive PortEvent where
  /-- A command word is transferred on the command port. -/
  | cmd (w : Word)
  /-- The input `rst` is asserted between commands, or while the block is stalled in one. -/
  | rst
  /-- The command word `w` is transferred, and `rst` is asserted while it executes, at a moment when
  the sink has answered `answered` of the bytes the command offers (spec/93 V8). -/
  | rstDuring (w : Word) (answered : Nat)
deriving DecidableEq, Repr

/-! ## The block -/

/-- The registers that belong to neither unit (R21, R22). -/
structure Global where
  fill : Bool
  eie : Bool
  die : Bool
  refused : Bool
deriving DecidableEq, Repr

/-- The encoder unit (R24 to R30, R40). `ct` lists, by symbol in rising order, the code bits of every
symbol whose LEN is not 0; LEN is the length of the list. -/
structure Enc where
  state : UnitState
  cause : Cause
  errSym : Byte
  errSrc : Bool
  acc : Byte
  accN : BitVec 3
  lastN : BitVec 3
  selSym : Byte
  selV : Bool
  syms : Word
  bits : Word
  bytes : Word
  ct : List (Nat × List Bool)
deriving DecidableEq, Repr

/-- The decoder unit (R23, R31 to R35, R41). `tm` lists, by index in rising order, the entries of the
tree memory written since reset. -/
structure Dec where
  state : UnitState
  cause : Cause
  trunc : Bool
  errNode : Idx
  errBit : Bool
  errSrc : Bool
  cur : Idx
  rootIdx : Idx
  present : Bool
  bits : Word
  syms : Word
  tm : List (Nat × Node)
deriving DecidableEq, Repr

/-! ## The environment -/

/-- A byte sink: the bytes accepted so far, and the answers it will give, first the listed ones and
then `rest` for ever; `rest = none` is a sink that never answers again (R45, R58, R68). -/
structure Sink where
  out : List Byte
  script : List Answer
  rest : Option Answer
deriving DecidableEq, Repr

/-- What R45 puts beside the block: the events to come, the two sinks and the responses given, oldest
first. `stalled` says that the block is inside a command whose sink never answers (R68, 93 V9). -/
structure Env where
  port : List PortEvent
  encOut : Sink
  decOut : Sink
  rsps : List Response
  stalled : Bool
deriving DecidableEq, Repr

/-- The block and its environment. -/
structure State where
  glob : Global
  enc : Enc
  dec : Dec
  env : Env
deriving DecidableEq, Repr

/-! ## How a step can stop -/

/-- Faults of the model. None is one of the block's own errors, which are next states. -/
inductive Fault where
  /-- Raised by DEC.PUT when the walk reads a tree-memory entry that has not been written since reset:
  "treats a read of an unwritten entry as a fault of the model" (spec/20_memory.md R67, 93 V1). Safe:
  the hardware goes on with whatever the cell holds, the model stops. -/
  | unwrittenNode (i : Idx)
deriving DecidableEq, Repr

/-- Refusals of the model. The block's own refusals (ILLEGAL, SEQ, OVERFLOW) are next states. -/
inductive Refusal where
  /-- Raised only by an arm of `exec` whose instruction has no meaning yet. Safe: the model stops. -/
  | notModelled (mnemonic : String)
deriving DecidableEq, Repr

/-! ## Reset -/

/-- Every register field 0 (R43, R241). -/
def Global.reset : Global := ⟨false, false, false, false⟩

/-- ENC after reset: IDLE, every field 0, every LEN 0 (R43, R241). -/
def Enc.reset : Enc :=
  { state := .idle, cause := .none, errSym := 0, errSrc := false, acc := 0, accN := 0, lastN := 0,
    selSym := 0, selV := false, syms := 0, bits := 0, bytes := 0, ct := [] }

/-- DEC after reset: IDLE, every field 0, the tree absent, every entry of TM unwritten (R43, R241). -/
def Dec.reset : Dec :=
  { state := .idle, cause := .none, trunc := false, errNode := 0, errBit := false, errSrc := false,
    cur := 0, rootIdx := 0, present := false, bits := 0, syms := 0, tm := [] }

/-- A sink that has been offered nothing. DESIGN CHOICE (log 5): it answers `ok` for ever. -/
def Sink.fresh : Sink := ⟨[], [], some .ok⟩

/-- The environment at power-on: no event yet, nothing offered to a sink, no response given. -/
def Env.fresh : Env :=
  { port := [], encOut := Sink.fresh, decOut := Sink.fresh, rsps := [], stalled := false }

/-- The machine right after reset (R43, R241). -/
def State.reset : State := ⟨Global.reset, Enc.reset, Dec.reset, Env.fresh⟩

end Sys2Proof.Machine
end

