-- ==== Sys2Proof/Machine/Operands.lean ====
section
/-! DEFINITION. The bit selectors and masks of the operands and registers (spec/20_memory.md R60,
spec/43_codec_laws.md R188), and the numbers of the named values. -/

namespace Sys2Proof.Machine

/-- The number of a STATE (R24, R31). -/
def UnitState.number : UnitState → BitVec 2
  | .idle => 0
  | .run => 1
  | .done => 2
  | .fail => 3

/-- The number of a CAUSE (R24, R31). -/
def Cause.number : Cause → BitVec 4
  | .none => 0
  | .unencodable => 1
  | .malformed => 2
  | .ioerr => 3

/-- The 4-bit CODE of a response (R93). -/
def Code.number : Code → BitVec 4
  | .ok => 0
  | .unencodable => 1
  | .malformed => 2
  | .ioerr => 3
  | .illegal => 4
  | .seq => 5
  | .overflow => 6

/-- The response code of a fatal error: the number written to CAUSE (R201, R204). -/
def Cause.code : Cause → Code
  | .none => .ok
  | .unencodable => .unencodable
  | .malformed => .malformed
  | .ioerr => .ioerr

/-- `x[i] <- b`. -/
def setBit (x : Byte) (i : Nat) (b : Bool) : Byte :=
  if b then x ||| BitVec.twoPow 8 i else x &&& ~~~(BitVec.twoPow 8 i)

/-- The place in ACC of the next code bit, `7 - ACC_N` (R121). -/
def accPlace (accN : BitVec 3) : Nat := 7 - accN.toNat

/-- The eight bits of a byte in stream order, bit 7 first (R60, R82). -/
def byteBits (x : Byte) : List Bool :=
  [x.getLsbD 7, x.getLsbD 6, x.getLsbD 5, x.getLsbD 4,
   x.getLsbD 3, x.getLsbD 2, x.getLsbD 1, x.getLsbD 0]

/-- The first `n` bits of a byte, the meaningful ones of a DEC.PUT (R155). -/
def validBits (x : Byte) (n : BitVec 4) : List Bool := (byteBits x).take n.toNat

/-- The pad of ENC.END: the low `8 - ACC_N` bits at the filler value (R127, R188 d). -/
def padMask (fill : Bool) (accN : BitVec 3) : Byte :=
  if fill then 0xFF#8 >>> accN.toNat else 0x00#8

/-- The child of an internal node on the side of a bit: left on 0, right on 1 (R151). -/
def childOn (b : Bool) (left right : Idx) : Idx := if b then right else left

end Sys2Proof.Machine
end

