-- ==== Sys2Proof/Machine/Flags.lean ====
section
/-! DEFINITION. The flags the block computes from its state and the words its registers read as
(spec/10_state.md R20 to R35, spec/60_exceptions.md R214). -/

namespace Sys2Proof.Machine

/-- The level of the line `irq`, also GSTAT.IRQ: a function of the state (R22, R214). -/
def State.irq (s : State) : Bool :=
  (s.glob.eie && decide (s.enc.state = .fail)) || (s.glob.die && decide (s.dec.state = .fail))

/-- DEC_STATUS.TRUNC as DEC.END records it: a run was under way, a tree is present and the cursor is
not at the root (R156). -/
def Dec.midCode (d : Dec) : Bool :=
  decide (d.state = .run) && d.present && decide (d.cur ≠ d.rootIdx)

/-- The word ENC_ERRINFO reads as (R25). -/
def encErrinfo (sym : Byte) (src : Bool) : Word := 0#23 ++ BitVec.ofBool src ++ sym

/-- The word DEC_ERRINFO reads as (R32). -/
def decErrinfo (node : Idx) (bit src : Bool) : Word :=
  0#21 ++ BitVec.ofBool src ++ BitVec.ofBool bit ++ node

/-- RegValue: the 32-bit value of a register, field by field; every bit not named as a field reads 0
(R14, R20 to R35). -/
def State.regValue (s : State) : Reg → Word
  | .id => Config.idValue
  | .ctrl => 0#29 ++ BitVec.ofBool s.glob.die ++ BitVec.ofBool s.glob.eie ++ BitVec.ofBool s.glob.fill
  | .gstat => 0#30 ++ BitVec.ofBool s.irq ++ BitVec.ofBool s.glob.refused
  | .troot => 0#22 ++ BitVec.ofBool s.dec.present ++ s.dec.rootIdx
  | .encStatus => 0#26 ++ s.enc.cause.number ++ s.enc.state.number
  | .encErrinfo => encErrinfo s.enc.errSym s.enc.errSrc
  | .encAcc => 0#17 ++ s.enc.lastN ++ 0#1 ++ s.enc.accN ++ s.enc.acc
  | .encCtsel => 0#23 ++ BitVec.ofBool s.enc.selV ++ s.enc.selSym
  | .encSyms => s.enc.syms
  | .encBits => s.enc.bits
  | .encBytes => s.enc.bytes
  | .decStatus => 0#25 ++ BitVec.ofBool s.dec.trunc ++ s.dec.cause.number ++ s.dec.state.number
  | .decErrinfo => decErrinfo s.dec.errNode s.dec.errBit s.dec.errSrc
  | .decCur => 0#23 ++ s.dec.cur
  | .decBits => s.dec.bits
  | .decSyms => s.dec.syms

end Sys2Proof.Machine
end

