-- ==== Sys2Proof/Machine/Ops.lean ====
section
/-! DEFINITION. The operations the meanings share: the two table memories, responses and refusals, the
fatal error of a unit and the return from it, a byte offered to a sink, and the flow of a command that
may end early (spec/00_scope.md R7). -/

namespace Sys2Proof.Machine

/-! ## Table memories: lists of cells by rising key -/

/-- The content of the cell with key `k`, if it is listed. -/
def cellRead {α : Type} (k : Nat) : List (Nat × α) → Option α
  | [] => none
  | (a, x) :: m => if k = a then some x else cellRead k m

/-- Lists the content `v` for the key `k`, in place of what was listed for it. -/
def cellWrite {α : Type} (k : Nat) (v : α) : List (Nat × α) → List (Nat × α)
  | [] => [(k, v)]
  | (a, x) :: m =>
    if k < a then (k, v) :: (a, x) :: m
    else if k = a then (k, v) :: m
    else (a, x) :: cellWrite k v m

/-- Takes the key `k` off the list. -/
def cellErase {α : Type} (k : Nat) : List (Nat × α) → List (Nat × α)
  | [] => []
  | (a, x) :: m => if k = a then cellErase k m else (a, x) :: cellErase k m

/-- The keys are strictly rising. -/
def cellsSorted {α : Type} : List (Nat × α) → Bool
  | [] => true
  | [_] => true
  | (a, _) :: (b, y) :: m => decide (a < b) && cellsSorted ((b, y) :: m)

/-- The code bits of a symbol, first bit first; an unlisted symbol has LEN 0 (spec/20_memory.md R52). -/
def Enc.code (e : Enc) (sym : Byte) : List Bool := (cellRead sym.toNat e.ct).getD []

/-- CT[sym].LEN (R52). -/
def Enc.len (e : Enc) (sym : Byte) : Nat := (e.code sym).length

/-- Gives `sym` the code `c`; an entry of LEN 0 is not listed (R52, R53). -/
def Enc.setCode (e : Enc) (sym : Byte) (c : List Bool) : Enc :=
  { e with ct := if c = [] then cellErase sym.toNat e.ct else cellWrite sym.toNat c e.ct }

/-- TM[i], or `none` for an entry not written since reset (R55, R67). -/
def Dec.node (d : Dec) (i : Idx) : Option Node := cellRead i.toNat d.tm

/-- `TM[i] <- node` (R56). -/
def Dec.setNode (d : Dec) (i : Idx) (nd : Node) : Dec := { d with tm := cellWrite i.toNat nd d.tm }

/-- The two table memories are in canonical form: keys strictly rising and inside the space, no code
entry of LEN 0, no code longer than CODE_MAX (R40, R41, R52, R55). -/
def Memory.wf (s : State) : Bool :=
  cellsSorted s.enc.ct
    && s.enc.ct.all (fun c => decide (c.1 < Config.nsym) && decide (c.2 ≠ [])
        && decide (c.2.length ≤ Config.codeMax))
    && cellsSorted s.dec.tm && s.dec.tm.all (fun c => decide (c.1 < Config.tmNodes))

/-! ## Responses and refusals -/

/-- `Respond(code, data)` (R7, R92). -/
def State.respond (s : State) (code : Code) (data : Word) : State :=
  { s with env := { s.env with rsps := s.env.rsps ++ [⟨code, data⟩] } }

/-- `Refuse(code)`: GSTAT.REFUSED becomes 1, the response is (code, 0), nothing else changes
(spec/60_exceptions.md R206). -/
def State.refuse (s : State) (code : Code) : State :=
  { s with glob := { s.glob with refused := true } }.respond code 0

/-! ## The fatal error of a unit, and the return from it -/

/-- ENC enters FAIL with its cause and error information (R204, R128). -/
def Enc.enterFail (e : Enc) (cause : Cause) (sym : Byte) (src : Bool) : Enc :=
  { e with state := .fail, cause := cause, errSym := sym, errSrc := src }

/-- DEC enters FAIL with its cause and error information; TRUNC is unchanged (R204, R157). -/
def Dec.enterFail (d : Dec) (cause : Cause) (node : Idx) (bit src : Bool) : Dec :=
  { d with state := .fail, cause := cause, errNode := node, errBit := bit, errSrc := src }

/-- `raise Fatal(ENC, cause, SYM, SRC)`: the response carries the cause and the new value of
ENC_ERRINFO (R204). -/
def State.raiseEnc (s : State) (cause : Cause) (sym : Byte) (src : Bool) : State :=
  { s with enc := s.enc.enterFail cause sym src }.respond cause.code (encErrinfo sym src)

/-- `raise Fatal(DEC, cause, NODE, BIT, SRC)`: the response carries the cause and the new value of
DEC_ERRINFO (R204). -/
def State.raiseDec (s : State) (cause : Cause) (node : Idx) (bit src : Bool) : State :=
  { s with dec := s.dec.enterFail cause node bit src }.respond cause.code (decErrinfo node bit src)

/-- What ENC.INIT restores: IDLE, no cause, no error information, an empty accumulator, no open entry,
the run counters 0. The code table and CTSEL.SYM stay (R122, R212). -/
def Enc.restart (e : Enc) : Enc :=
  { e with state := .idle, cause := .none, errSym := 0, errSrc := false, acc := 0, accN := 0,
           lastN := 0, selV := false, syms := 0, bits := 0, bytes := 0 }

/-- What DEC.INIT restores: IDLE, no cause, no error information, TRUNC 0, the cursor register and the
run counters 0. The tree memory and TROOT stay (R152, R212). -/
def Dec.restart (d : Dec) : Dec :=
  { d with state := .idle, cause := .none, trunc := false, errNode := 0, errBit := false,
           errSrc := false, cur := 0, bits := 0, syms := 0 }

/-- The reset state of the block (R43, R102), the environment as it is. -/
def State.resetBlock (s : State) : State := { State.reset with env := s.env }

/-- The block stays inside the command: no response, no later command (spec/20_memory.md R68). -/
def State.stall (s : State) : State := { s with env := { s.env with stalled := true } }

/-! ## A command that may end early -/

/-- How a part of a command ends: the command goes on, or it has ended (by a fatal error whose response
is given, or stalled), or the model faults (R7). -/
inductive Flow where
  | go (s : State)
  | ended (s : State)
  | fault (r : Fault)
deriving DecidableEq, Repr

/-- The next part of the command, unless it has ended. -/
def Flow.bind : Flow → (State → Flow) → Flow
  | .go s, f => f s
  | .ended s, _ => .ended s
  | .fault r, _ => .fault r

/-- `for x in xs: f(x)`; an early end stops the loop (R7). -/
def Flow.each {α : Type} (f : α → State → Flow) : List α → State → Flow
  | [], s => .go s
  | x :: xs, s => (f x s).bind (Flow.each f xs)

/-- The end of a command whose last statement is `Respond(OK, 0)`. -/
def Flow.respondOk : Flow → Host.Outcome State Fault Refusal
  | .go s => .next (s.respond .ok 0)
  | .ended s => .next s
  | .fault r => .fault r

/-! ## A byte offered to a sink -/

/-- The sink's answer to the next byte offered; `none` when it never answers (R58, R68). -/
def Sink.answer (k : Sink) : Option Answer :=
  match k.script with
  | a :: _ => some a
  | [] => k.rest

/-- The sink after the answer `ok`: the byte is the next of its stream (R58). -/
def Sink.accepted (k : Sink) (b : Byte) : Sink := { k with out := k.out ++ [b], script := k.script.tail }

/-- The sink after the answer `fail`: the byte is not part of its stream (R58). -/
def Sink.declined (k : Sink) : Sink := { k with script := k.script.tail }

/-- SinkWrite(ENC_OUT, b): `ok` counts the byte in ENC_BYTES, `fail` is Fatal(ENC, IOERR), a sink that
never answers stalls the block (R30, R58, R68, R205). -/
def offerEnc (b : Byte) (s : State) : Flow :=
  match s.env.encOut.answer with
  | some .ok =>
    .go { s with enc := { s.enc with bytes := s.enc.bytes + 1 },
                 env := { s.env with encOut := s.env.encOut.accepted b } }
  | some .fail =>
    .ended ({ s with env := { s.env with encOut := s.env.encOut.declined } }.raiseEnc .ioerr 0 false)
  | none => .ended s.stall

/-- SinkWrite(DEC_OUT, b): `ok` counts the symbol in DEC_SYMS, `fail` is Fatal(DEC, IOERR), a sink that
never answers stalls the block (R35, R58, R68, R205). -/
def offerDec (b : Byte) (s : State) : Flow :=
  match s.env.decOut.answer with
  | some .ok =>
    .go { s with dec := { s.dec with syms := s.dec.syms + 1 },
                 env := { s.env with decOut := s.env.decOut.accepted b } }
  | some .fail =>
    .ended ({ s with env := { s.env with decOut := s.env.decOut.declined } }.raiseDec .ioerr 0 false false)
  | none => .ended s.stall

/-! ## Checks shared by the commands -/

/-- Runs a command whose operands must be legal: an illegal operand is refused with ILLEGAL before any
state is looked at. `decode` refuses such words already (R86, R210), so a step never meets this. -/
def guarded (i : Instr) (s : State) (body : Host.Outcome State Fault Refusal) :
    Host.Outcome State Fault Refusal :=
  match rangeFault i with
  | none => body
  | some _ => .next (s.refuse .illegal)

/-- A unit accepts its data commands, END and ABORT, in IDLE and RUN (R120, R150). -/
def UnitState.isOpen : UnitState → Bool
  | .idle => true
  | .run => true
  | .done => false
  | .fail => false

end Sys2Proof.Machine
end

