-- ==== Sys2Proof/Machine/Decoder.lean ====
section
/-! DEFINITION. The decoder unit DEC (spec/42_decoder.md R150 to R158). -/

namespace Sys2Proof.Machine

/-- The arrival of the cursor at the node `child`: a leaf's symbol is offered to DEC_OUT and, once the
sink has accepted it, the cursor returns to the root; an internal node is nothing more (R151). -/
def arrive (child : Idx) (s : State) : Flow :=
  match s.dec.node child with
  | none => .fault (.unwrittenNode child)
  | some (.leaf sym) =>
    (offerDec sym s).bind fun t => .go { t with dec := { t.dec with cur := t.dec.rootIdx } }
  | some (.int _ _) => .go s

/-- WalkBit: a leaf under the cursor or an absent child is MALFORMED; otherwise the bit is counted, the
cursor moves to the child and arrives there. An entry never written faults the model (R151, R67). -/
def walkBit (b : Bool) (s : State) : Flow :=
  match s.dec.node s.dec.cur with
  | none => .fault (.unwrittenNode s.dec.cur)
  | some (.leaf _) => .ended (s.raiseDec .malformed s.dec.cur b false)
  | some (.int left right) =>
    if childOn b left right = Config.nil then .ended (s.raiseDec .malformed s.dec.cur b false)
    else
      arrive (childOn b left right)
        { s with dec := { s.dec with bits := s.dec.bits + 1, cur := childOn b left right } }

/-- DEC.INIT starts a clean run, in every state; the tree memory and TROOT stay (R152). -/
def execDecInit (s : State) : Host.Outcome State Fault Refusal :=
  .next ({ s with dec := s.dec.restart }.respond .ok 0)

/-- `T.LEAF idx, sym` writes a leaf; only in IDLE; `idx` = NIL is ILLEGAL (R153, R86 e). -/
def execTLeaf (idx : Idx) (sym : Byte) (s : State) : Host.Outcome State Fault Refusal :=
  guarded (.tLeaf idx sym) s <|
    if s.dec.state ≠ .idle then .next (s.refuse .seq)
    else .next ({ s with dec := s.dec.setNode idx (.leaf sym) }.respond .ok 0)

/-- `T.INT idx, left, right` writes an internal node; only in IDLE; `idx` = NIL is ILLEGAL (R154,
R86 e). -/
def execTInt (idx left right : Idx) (s : State) : Host.Outcome State Fault Refusal :=
  guarded (.tInt idx left right) s <|
    if s.dec.state ≠ .idle then .next (s.refuse .seq)
    else .next ({ s with dec := s.dec.setNode idx (.int left right) }.respond .ok 0)

/-- The first DEC.PUT of a run puts DEC in RUN and, when a tree is present, loads the cursor from
TROOT.IDX (R155). -/
def Dec.startRun (d : Dec) : Dec :=
  if d.state = .idle then
    { d with state := .run, cur := if d.present then d.rootIdx else d.cur }
  else d

/-- `DEC.PUT byte, n` walks the first `n` bits of the byte, bit 7 first, when a tree is present, and
consumes nothing when it is absent; SEQ in DONE and FAIL; `n` above 8 is ILLEGAL (R155, R86 f). -/
def execDecPut (byte : Byte) (n : BitVec 4) (s : State) : Host.Outcome State Fault Refusal :=
  guarded (.decPut byte n) s <|
    if s.dec.state.isOpen then
      (Flow.each walkBit (if s.dec.present then validBits byte n else [])
        { s with dec := s.dec.startRun }).respondOk
    else .next (s.refuse .seq)

/-- DEC.END records TRUNC and leaves DEC in DONE; SEQ in DONE and FAIL (R156). -/
def execDecEnd (s : State) : Host.Outcome State Fault Refusal :=
  if s.dec.state.isOpen then
    .next ({ s with dec := { s.dec with trunc := s.dec.midCode, state := .done } }.respond .ok 0)
  else .next (s.refuse .seq)

/-- DEC.ABORT puts DEC into FAIL with cause IOERR and SRC = 1, and answers OK; SEQ in DONE and FAIL
(R157). -/
def execDecAbort (s : State) : Host.Outcome State Fault Refusal :=
  if s.dec.state.isOpen then .next ({ s with dec := s.dec.enterFail .ioerr 0 false true }.respond .ok 0)
  else .next (s.refuse .seq)

end Sys2Proof.Machine
end

