-- ==== Sys2Proof/Machine/Encoder.lean ====
section
/-! DEFINITION. The encoder unit ENC (spec/41_encoder.md R120 to R128). -/

namespace Sys2Proof.Machine

/-- PutBit: the bit goes to ACC[7 - ACC_N] and is counted; the eighth bit empties the accumulator and
offers the byte to ENC_OUT, in that order (R121). -/
def putBit (b : Bool) (s : State) : Flow :=
  let acc := setBit s.enc.acc (accPlace s.enc.accN) b
  let bits := s.enc.bits + 1
  if s.enc.accN = 7#3 then
    offerEnc acc { s with enc := { s.enc with acc := 0, accN := 0, bits := bits } }
  else .go { s with enc := { s.enc with acc := acc, accN := s.enc.accN + 1, bits := bits } }

/-- ENC.INIT starts a clean run, in every state; the code table stays (R122). -/
def execEncInit (s : State) : Host.Outcome State Fault Refusal :=
  .next ({ s with enc := s.enc.restart }.respond .ok 0)

/-- CT.CLR makes every symbol absent and closes the open entry; only in IDLE (R123). -/
def execCtClr (s : State) : Host.Outcome State Fault Refusal :=
  if s.enc.state ≠ .idle then .next (s.refuse .seq)
  else .next ({ s with enc := { s.enc with ct := [], selV := false } }.respond .ok 0)

/-- `CT.OPEN sym` makes `sym` absent and opens its entry; only in IDLE (R124). -/
def execCtOpen (sym : Byte) (s : State) : Host.Outcome State Fault Refusal :=
  if s.enc.state ≠ .idle then .next (s.refuse .seq)
  else .next ({ s with enc := { s.enc.setCode sym [] with selSym := sym, selV := true } }.respond .ok 0)

/-- `CT.PUSH b` appends a bit to the code of the open entry; SEQ outside IDLE or with no open entry,
then OVERFLOW when the code already has CODE_MAX bits (R125, R210). -/
def execCtPush (b : Bool) (s : State) : Host.Outcome State Fault Refusal :=
  if s.enc.state ≠ .idle ∨ s.enc.selV = false then .next (s.refuse .seq)
  else if s.enc.len s.enc.selSym = Config.codeMax then .next (s.refuse .overflow)
  else .next ({ s with
    enc := s.enc.setCode s.enc.selSym (s.enc.code s.enc.selSym ++ [b]) }.respond .ok 0)

/-- `ENC.PUT sym`: SEQ in DONE and FAIL; UNENCODABLE for an absent symbol, before any bit; otherwise
RUN, the symbol is counted and the bits of its code go through PutBit in order (R126). -/
def execEncPut (sym : Byte) (s : State) : Host.Outcome State Fault Refusal :=
  if s.enc.state.isOpen then
    if s.enc.len sym = 0 then .next (s.raiseEnc .unencodable sym false)
    else
      (Flow.each putBit (s.enc.code sym)
        { s with enc := { s.enc with state := .run, syms := s.enc.syms + 1 } }).respondOk
  else .next (s.refuse .seq)

/-- The part of ENC.END that writes the padded final byte, if the accumulator holds bits (R127). -/
def flushAcc (s : State) : Flow :=
  if s.enc.accN = 0#3 then .go s
  else
    offerEnc (s.enc.acc ||| padMask s.glob.fill s.enc.accN)
      { s with enc := { s.enc with acc := 0, accN := 0 } }

/-- ENC.END records LASTN, flushes the padded final byte if there is one and leaves ENC in DONE; SEQ in
DONE and FAIL (R127). -/
def execEncEnd (s : State) : Host.Outcome State Fault Refusal :=
  if s.enc.state.isOpen then
    ((flushAcc { s with enc := { s.enc with lastN := s.enc.accN } }).bind
      fun t => .go { t with enc := { t.enc with state := .done } }).respondOk
  else .next (s.refuse .seq)

/-- ENC.ABORT puts ENC into FAIL with cause IOERR and SRC = 1, and answers OK; SEQ in DONE and FAIL
(R128). -/
def execEncAbort (s : State) : Host.Outcome State Fault Refusal :=
  if s.enc.state.isOpen then .next ({ s with enc := s.enc.enterFail .ioerr 0 true }.respond .ok 0)
  else .next (s.refuse .seq)

end Sys2Proof.Machine
end

