-- ==== Sys2Proof/Machine/Global.lean ====
section
/-! DEFINITION. The global commands NOP, SRST, RDREG, WRREG (spec/40_global_commands.md R101 to R104). -/

namespace Sys2Proof.Machine

/-- NOP does nothing and answers OK (R101). -/
def execNop (s : State) : Host.Outcome State Fault Refusal := .next (s.respond .ok 0)

/-- SRST puts the whole block into its reset state and answers OK; the sinks keep what they have
(R102). -/
def execSrst (s : State) : Host.Outcome State Fault Refusal := .next (s.resetBlock.respond .ok 0)

/-- `RDREG r` answers (OK, the value of register `r`) and changes no state (R103); an `r` that is not
assigned is ILLEGAL (R36, R86 a). -/
def execRdreg (r : RegNum) (s : State) : Host.Outcome State Fault Refusal :=
  match regOf r with
  | some reg => .next (s.respond .ok (s.regValue reg))
  | none => .next (s.refuse .illegal)

/-- CTRL as `v` writes it: FILL, EIE and DIE from bits 0, 1, 2 (R104). -/
def Global.writeCtrl (g : Global) (v : BitVec 16) : Global :=
  { g with fill := v.getLsbD 0, eie := v.getLsbD 1, die := v.getLsbD 2 }

/-- TROOT as `v` writes it: IDX from bits 8..0, PRESENT from bit 9 (R104). -/
def Dec.writeTroot (d : Dec) (v : BitVec 16) : Dec :=
  { d with rootIdx := v.extractLsb' 0 9, present := v.getLsbD 9 }

/-- `WRREG 1, v` writes CTRL in every state; `WRREG 3, v` writes TROOT while DEC is IDLE and is refused
with SEQ otherwise; every other register number and a value with reserved bits is ILLEGAL (R104, R86). -/
def execWrreg (r : RegNum) (v : BitVec 16) (s : State) : Host.Outcome State Fault Refusal :=
  guarded (.wrreg r v) s <|
    if r = 1#5 then .next ({ s with glob := s.glob.writeCtrl v }.respond .ok 0)
    else if s.dec.state ≠ .idle then .next (s.refuse .seq)
    else .next ({ s with dec := s.dec.writeTroot v }.respond .ok 0)

end Sys2Proof.Machine
end

