-- ==== Sys2Proof/Machine/Dispatch.lean ====
section
/-! DEFINITION. `Exec` of spec/40_global_commands.md R100: one arm per command. -/

namespace Sys2Proof.Machine

def exec (i : Instr) (s : State) : Host.Outcome State Fault Refusal :=
  match i with
  -- the global commands (R101 to R104)
  | .nop => Sys2Proof.Machine.execNop s
  | .srst => Sys2Proof.Machine.execSrst s
  | .rdreg r => Sys2Proof.Machine.execRdreg r s
  | .wrreg r v => Sys2Proof.Machine.execWrreg r v s
  -- the encoder unit (R122 to R128)
  | .encInit => Sys2Proof.Machine.execEncInit s
  | .ctClr => Sys2Proof.Machine.execCtClr s
  | .ctOpen sym => Sys2Proof.Machine.execCtOpen sym s
  | .ctPush b => Sys2Proof.Machine.execCtPush b s
  | .encPut sym => Sys2Proof.Machine.execEncPut sym s
  | .encEnd => Sys2Proof.Machine.execEncEnd s
  | .encAbort => Sys2Proof.Machine.execEncAbort s
  -- the decoder unit (R152 to R157)
  | .decInit => Sys2Proof.Machine.execDecInit s
  | .tLeaf idx sym => Sys2Proof.Machine.execTLeaf idx sym s
  | .tInt idx left right => Sys2Proof.Machine.execTInt idx left right s
  | .decPut byte n => Sys2Proof.Machine.execDecPut byte n s
  | .decEnd => Sys2Proof.Machine.execDecEnd s
  | .decAbort => Sys2Proof.Machine.execDecAbort s

end Sys2Proof.Machine
end

