-- ==== Sys2Proof/Machine/Port.lean ====
section
/-! DEFINITION. The command port and the input `rst` (spec/40_global_commands.md R100,
spec/70_reset_and_hazards.md R240, R251). -/

namespace Sys2Proof.Machine

/-- The state with what the port is still to bring replaced. -/
def State.withPort (s : State) (p : List PortEvent) : State := { s with env := { s.env with port := p } }

/-- The step of R100 on a command word: decode, refuse an illegal word, execute a command. -/
def runWord (w : Word) (s : State) : Host.Outcome State Fault Refusal :=
  match decode w with
  | .instr i => exec i s
  | .illegal _ => .next (s.refuse .illegal)

/-- The hardware reset: the reset state, no response, and a command in progress is abandoned (R240). -/
def State.hardReset (s : State) : State :=
  { s.resetBlock with env := { s.env with stalled := false } }

/-- The sink cut off after its next `n` answers: it never answers again. -/
def Sink.cutAfter (k : Sink) (n : Nat) : Sink :=
  match k.rest with
  | some a => { k with script := k.script.take n ++ List.replicate (n - k.script.length) a, rest := none }
  | none => { k with script := k.script.take n }

/-- The sink after a command ran against `k.cutAfter n` and left `t`: the stream of `t`, and the answers
of `k` that were not given. -/
def Sink.resume (k : Sink) (n : Nat) (t : Sink) : Sink :=
  { k with out := t.out, script := k.script.drop ((k.cutAfter n).script.length - t.script.length) }

/-- A command word during whose execution `rst` is asserted, after `n` answers of the sink: the bytes
accepted until then stay accepted, there is no response, the block is in its reset state (R240, 93 V8). -/
def abandon (w : Word) (n : Nat) (s : State) : Host.Outcome State Fault Refusal :=
  match runWord w { s with env := { s.env with
      encOut := s.env.encOut.cutAfter n, decOut := s.env.decOut.cutAfter n } } with
  | .next t =>
    .next { s.hardReset with env := { s.env with
      encOut := s.env.encOut.resume n t.env.encOut, decOut := s.env.decOut.resume n t.env.decOut } }
  | .fault r => .fault r
  | .refused r => .refused r

/-- What a step does with the next event of the port. With no event the block waits and holds its state
(R43, R217); a stalled block accepts no command and is left only by `rst` (R68, R240). -/
def serve (s : State) : Host.Outcome State Fault Refusal :=
  match s.env.port with
  | [] => .next s
  | .rst :: rest => .next (s.withPort rest).hardReset
  | .cmd w :: rest => if s.env.stalled then .next s else runWord w (s.withPort rest)
  | .rstDuring w n :: rest => if s.env.stalled then .next s else abandon w n (s.withPort rest)

/-- The state in which the command port brings the word `w` next and the block is ready for it. -/
def State.present (s : State) (w : Word) : State :=
  { s with env := { s.env with port := .cmd w :: s.env.port, stalled := false } }

end Sys2Proof.Machine
end

