-- ==== Sys2Proof/Machine/Step.lean ====
section
/-! DEFINITION. One step of the machine (spec/40_global_commands.md R100). -/

namespace Sys2Proof.Machine

/-- One step: the next event of the block's boundary is served. -/
def step (s : State) : Host.Outcome State Fault Refusal := serve s

/-- The state in which the host presents the word of an opcode-table row next: the block fetches
nothing (R12), its next command is what the command port brings. Bits above `nbits` are 0. -/
def State.withFetchWord (s : State) (nbits w : Nat) : State :=
  s.present (BitVec.ofNat 32 (w % 2 ^ nbits))

end Sys2Proof.Machine
end

