-- ==== Sys2Proof/Safety.lean ====
section
/-! DEFINITION. The words claims are stated in: the invariants of the state (spec/10_state.md R44), what a
run needs so that it cannot fault (spec/70_reset_and_hazards.md R246), the frames of a command, the
state tables (R120, R150), and the vocabulary of the codec laws (spec/43_codec_laws.md). -/

namespace Sys2Proof

/-! ## Kinds of commands -/

/-- The encoder commands (spec/41_encoder.md). -/
def Instr.isEnc : Instr → Bool
  | .encInit => true
  | .ctClr => true
  | .ctOpen _ => true
  | .ctPush _ => true
  | .encPut _ => true
  | .encEnd => true
  | .encAbort => true
  | .nop => false
  | .srst => false
  | .rdreg _ => false
  | .wrreg _ _ => false
  | .decInit => false
  | .tLeaf _ _ => false
  | .tInt _ _ _ => false
  | .decPut _ _ => false
  | .decEnd => false
  | .decAbort => false

/-- The decoder commands (spec/42_decoder.md). -/
def Instr.isDec : Instr → Bool
  | .decInit => true
  | .tLeaf _ _ => true
  | .tInt _ _ _ => true
  | .decPut _ _ => true
  | .decEnd => true
  | .decAbort => true
  | .nop => false
  | .srst => false
  | .rdreg _ => false
  | .wrreg _ _ => false
  | .encInit => false
  | .ctClr => false
  | .ctOpen _ => false
  | .ctPush _ => false
  | .encPut _ => false
  | .encEnd => false
  | .encAbort => false

/-- The commands of which R62 says that issuing them twice in a row leaves the state the first issue
left. -/
def Instr.isIdempotent : Instr → Bool
  | .nop => true
  | .srst => true
  | .rdreg _ => true
  | .wrreg _ _ => true
  | .encInit => true
  | .ctClr => true
  | .ctOpen _ => true
  | .ctPush _ => false
  | .encPut _ => false
  | .encEnd => false
  | .encAbort => false
  | .decInit => true
  | .tLeaf _ _ => true
  | .tInt _ _ _ => true
  | .decPut _ _ => false
  | .decEnd => false
  | .decAbort => false

end Sys2Proof

namespace Sys2Proof.Machine

/-! ## Invariants of the state -/

/-- The bits of ACC below the ACC_N bits already gathered are zero (R44, 1). -/
abbrev Enc.accClean (e : Enc) : Prop :=
  ∀ i : Fin 8, i.val + e.accN.toNat < 8 → e.acc.getLsbD i.val = false

/-- The list of R44. Point 2 (LASTN is 0 before DONE or FAIL) is asked when the block is between
commands: ENC.END records LASTN before its sink answers. Point 4 and the index ranges of the tables are
`Memory.wf`; a 9-bit child is always in 0..510 or NIL. -/
abbrev StateInv (s : State) : Prop :=
  s.enc.accClean
    ∧ (s.env.stalled = false → s.enc.lastN ≠ 0 → s.enc.state = .done ∨ s.enc.state = .fail)
    ∧ (s.enc.cause ≠ .none ↔ s.enc.state = .fail)
    ∧ (s.dec.cause ≠ .none ↔ s.dec.state = .fail)
    ∧ Memory.wf s = true
    ∧ s.dec.rootIdx ≠ Config.nil ∧ s.dec.cur ≠ Config.nil
    ∧ (s.enc.state = .done → s.enc.accN = 0 ∧ s.enc.acc = 0)

/-- What R24, R25, R31 and R32 say beside R44: which causes a unit can show, error information only in
FAIL, TRUNC only in DONE. -/
abbrev StatusInv (s : State) : Prop :=
  s.enc.cause ≠ .malformed ∧ s.dec.cause ≠ .unencodable
    ∧ (s.enc.cause = .none → s.enc.errSym = 0 ∧ s.enc.errSrc = false)
    ∧ (s.dec.cause = .none → s.dec.errNode = 0 ∧ s.dec.errBit = false ∧ s.dec.errSrc = false)
    ∧ (s.dec.trunc = true → s.dec.state = .done)

/-! ## Frames -/

/-- Of the environment, only the responses change, by one response. -/
def AnswersOnly (s t : State) (code : Code) (data : Word) : Prop :=
  t.env = { s.env with rsps := s.env.rsps ++ [⟨code, data⟩] }

/-- The command was refused with `code`: GSTAT.REFUSED is 1, one response, nothing else (R206). -/
def RefusedWith (s t : State) (code : Code) : Prop :=
  t.glob = { s.glob with refused := true } ∧ t.enc = s.enc ∧ t.dec = s.dec ∧ AnswersOnly s t code 0

/-- The code table reads the same for every symbol. -/
def SameCT (s t : State) : Prop := ∀ x : Byte, t.enc.code x = s.enc.code x

/-- The tree memory reads the same at every index. -/
def SameTM (s t : State) : Prop := ∀ i : Idx, t.dec.node i = s.dec.node i

/-! ## The state tables -/

/-- A cell of the state tables R120 and R150. -/
inductive TableCell where
  /-- The command is accepted and leaves the unit in `u`. -/
  | leaves (u : UnitState)
  /-- The command is accepted and leaves the unit in `u`, or in FAIL through a fatal error. -/
  | leavesOrFails (u : UnitState)
  /-- The command is refused with SEQ. -/
  | seq
  /-- The command does not change the unit's state. -/
  | keeps
deriving DecidableEq, Repr

/-- A row of a table: IDLE and RUN accept alike, DONE and FAIL refuse with SEQ. -/
def runRow (accepted : TableCell) : UnitState → TableCell
  | .idle => accepted
  | .run => accepted
  | .done => .seq
  | .fail => .seq

/-- A row of a table for a command that only IDLE accepts. -/
def idleRow : UnitState → TableCell
  | .idle => .leaves .idle
  | .run => .seq
  | .done => .seq
  | .fail => .seq

/-- The table of R120, with its two last sentences. -/
def encTable (i : Instr) (u : UnitState) : TableCell :=
  match i with
  | .encInit => .leaves .idle
  | .ctClr => idleRow u
  | .ctOpen _ => idleRow u
  | .ctPush _ => idleRow u
  | .encPut _ => runRow (.leavesOrFails .run) u
  | .encEnd => runRow (.leavesOrFails .done) u
  | .encAbort => runRow (.leaves .fail) u
  | .srst => .leaves .idle
  | .nop => .keeps
  | .rdreg _ => .keeps
  | .wrreg _ _ => .keeps
  | .decInit => .keeps
  | .tLeaf _ _ => .keeps
  | .tInt _ _ _ => .keeps
  | .decPut _ _ => .keeps
  | .decEnd => .keeps
  | .decAbort => .keeps

/-- The table of R150, with its two last sentences; WRREG of TROOT has a row of it. -/
def decTable (i : Instr) (u : UnitState) : TableCell :=
  match i with
  | .decInit => .leaves .idle
  | .tLeaf _ _ => idleRow u
  | .tInt _ _ _ => idleRow u
  | .wrreg r _ => if r = 3#5 then idleRow u else .keeps
  | .decPut _ _ => runRow (.leavesOrFails .run) u
  | .decEnd => runRow (.leaves .done) u
  | .decAbort => runRow (.leaves .fail) u
  | .srst => .leaves .idle
  | .nop => .keeps
  | .rdreg _ => .keeps
  | .encInit => .keeps
  | .ctClr => .keeps
  | .ctOpen _ => .keeps
  | .ctPush _ => .keeps
  | .encPut _ => .keeps
  | .encEnd => .keeps
  | .encAbort => .keeps

/-- The response codes a command can end with once its word has decoded (R200, R201). -/
def mayAnswer : Instr → List Code
  | .nop => [.ok]
  | .srst => [.ok]
  | .rdreg _ => [.ok]
  | .wrreg r _ => if r = 3#5 then [.ok, .seq] else [.ok]
  | .encInit => [.ok]
  | .ctClr => [.ok, .seq]
  | .ctOpen _ => [.ok, .seq]
  | .ctPush _ => [.ok, .seq, .overflow]
  | .encPut _ => [.ok, .seq, .unencodable, .ioerr]
  | .encEnd => [.ok, .seq, .ioerr]
  | .encAbort => [.ok, .seq]
  | .decInit => [.ok]
  | .tLeaf _ _ => [.ok, .seq]
  | .tInt _ _ _ => [.ok, .seq]
  | .decPut _ _ => [.ok, .seq, .malformed, .ioerr]
  | .decEnd => [.ok, .seq]
  | .decAbort => [.ok, .seq]

/-! ## The answers of a sink -/

/-- The answer to the byte offered after `j` more answers (R58). -/
def Sink.answerAt (k : Sink) (j : Nat) : Option Answer :=
  match k.script[j]? with
  | some a => some a
  | none => k.rest

/-- The sink accepts the next `n` bytes offered. -/
def Sink.acceptsNext (k : Sink) (n : Nat) : Prop := ∀ j < n, k.answerAt j = some .ok

/-- "The sinks never fail": every SinkWrite answers `ok` (spec/43_codec_laws.md). -/
abbrev Sink.neverFails (k : Sink) : Prop := (∀ a ∈ k.script, a = .ok) ∧ k.rest = some .ok

/-- The sink after it has accepted the bytes `bs` one after another. -/
def Sink.acceptedAll (k : Sink) (bs : List Byte) : Sink :=
  { k with out := k.out ++ bs, script := k.script.drop bs.length }

/-! ## The tree as the walk sees it -/

/-- The index reached from `i` by the branches `bits`, through written internal nodes with a child on
the side taken; the node reached need not be written (R180). -/
def Dec.follow (d : Dec) : List Bool → Idx → Option Idx
  | [], i => some i
  | b :: bs, i =>
    match d.node i with
    | some (.int left right) =>
      if childOn b left right = Config.nil then none else d.follow bs (childOn b left right)
    | some (.leaf _) => none
    | none => none

/-- R246: when a tree is present, every entry the walk can reach from the root has been written. -/
def Dec.treeWritten (d : Dec) : Prop :=
  d.present = true → ∀ bits j, d.follow bits d.rootIdx = some j → d.node j ≠ none

/-- In RUN with a tree present the cursor stands on an entry reachable from the root. -/
def Dec.cursorOnTree (d : Dec) : Prop :=
  d.state = .run → d.present = true → ∃ bits, d.follow bits d.rootIdx = some d.cur

/-- The node from which a DEC.PUT walks: the root for the first of a run, else the cursor (R155). -/
def Dec.walkStart (d : Dec) : Idx := if d.state = .idle then d.rootIdx else d.cur

/-- The symbols the bits spell when they are walked from `i`, and the cursor after them; `none` when the
walk is malformed or reads an entry never written (R151). -/
def Dec.spells (d : Dec) : List Bool → Idx → Option (List Byte × Idx)
  | [], i => some ([], i)
  | b :: bs, i =>
    match d.follow [b] i with
    | none => none
    | some c =>
      match d.node c with
      | some (.leaf sym) => (d.spells bs d.rootIdx).map fun r => (sym :: r.1, r.2)
      | some (.int _ _) => d.spells bs c
      | none => none

/-- The bit `b` asks the node `i` for a child that does not exist (R203). -/
def Dec.noChild (d : Dec) (b : Bool) (i : Idx) : Prop :=
  (∃ sym, d.node i = some (.leaf sym))
    ∨ ∃ left right, d.node i = some (.int left right) ∧ childOn b left right = Config.nil

/-- CT agrees with the tree on the symbol `x` (R180). -/
def Agrees (s : State) (x : Byte) : Prop :=
  s.dec.present = true ∧ s.enc.code x ≠ []
    ∧ ∃ j, s.dec.follow (s.enc.code x) s.dec.rootIdx = some j ∧ s.dec.node j = some (.leaf x)

/-! ## Bit sequences as bytes -/

/-- The byte with the eight bits `g 0`, …, `g 7` in stream order (R60). -/
def byteOf (g : Nat → Bool) : Byte :=
  BitVec.ofBool (g 0) ++ BitVec.ofBool (g 1) ++ BitVec.ofBool (g 2) ++ BitVec.ofBool (g 3)
    ++ BitVec.ofBool (g 4) ++ BitVec.ofBool (g 5) ++ BitVec.ofBool (g 6) ++ BitVec.ofBool (g 7)

/-- `pack(B, f)`: bit `7 - (k mod 8)` of byte `k div 8` is `B[k]`, and `f` past the end of `B`
(spec/43_codec_laws.md). -/
def pack (bits : List Bool) (f : Bool) : List Byte :=
  (List.range ((bits.length + 7) / 8)).map fun j => byteOf fun i => bits.getD (8 * j + i) f

/-- The code bits ACC holds, in stream order (R26). -/
def Enc.held (e : Enc) : List Bool := (byteBits e.acc).take e.accN.toNat

/-- The bits of a symbol sequence: `code(s_1) ++ … ++ code(s_m)` (R181). -/
def Enc.bitsOf (e : Enc) (xs : List Byte) : List Bool := xs.flatMap e.code

/-! ## Runs of commands -/

/-- The host issues the commands `is` one after another, from `s`, and the block ends in `t`: as many
steps as commands, the port bringing exactly their words. -/
def Issued (s : State) (is : List Instr) (t : State) : Prop :=
  Host.Core.run Sys2Proof.core is.length (s.withPort (is.map fun i => .cmd (encode i))) = .next t

/-- `n` responses (OK, 0) are given between `s` and `t`. -/
def AllOk (s t : State) (n : Nat) : Prop :=
  t.env.rsps = s.env.rsps ++ List.replicate n ⟨.ok, 0⟩

/-- The encoder run of R181 on the symbols `xs`, without and with ENC.END. -/
def encRun (xs : List Byte) : List Instr := .encInit :: xs.map .encPut

/-- The DEC.PUTs of the bytes `ps`, 8 valid bits each, but `n` of the last byte when `n` is not 0
(R182, R247). -/
def putBytes : List Byte → BitVec 3 → List Instr
  | [], _ => []
  | [p], n => [.decPut p (if n = 0 then 8 else n.zeroExtend 4)]
  | p :: q :: ps, n => .decPut p 8 :: putBytes (q :: ps) n

/-- The decoder run of R182. -/
def decRun (ps : List Byte) (n : BitVec 3) : List Instr := .decInit :: (putBytes ps n ++ [.decEnd])

end Sys2Proof.Machine
end

