-- ==== Sys2Proof/Certificates/Slice0/Obligations.lean ====
section
/-! DEFINITION. The statements for the provers. Each docstring names the rule of spec/ it formalises. -/

open Sys2Proof Sys2Proof.Machine

/-! ## Encoding -/

/-- Words written out from the encodings of 30_encoding.md, one or more for each family
(95_test_vectors.md 2.1). -/
def Obligations.SpecWordsDecode : Prop :=
  decode 0x00000000#32 = .instr .nop
    ∧ decode 0x10140000#32 = .instr (.rdreg 20#5)
    ∧ decode 0x180303FE#32 = .instr (.wrreg 3#5 0x03FE#16)
    ∧ decode 0x30000061#32 = .instr (.ctOpen 0x61#8)
    ∧ decode 0x38000001#32 = .instr (.ctPush true)
    ∧ decode 0x400000FF#32 = .instr (.encPut 0xFF#8)
    ∧ decode 0x8FF800FF#32 = .instr (.tLeaf 510#9 0xFF#8)
    ∧ decode 0x90080604#32 = .instr (.tInt 2#9 3#9 4#9)
    ∧ decode 0x9800081F#32 = .instr (.decPut 0x1F#8 8#4)

/-- Decoding and encoding agree, in both directions: a word decodes to a command exactly when the
command is well formed and is spelled by that word, so every legal operand is kept and no bit of a word
is ignored (R80 to R87). -/
def Obligations.DecodeIffEncode : Prop :=
  ∀ (w : Word) (i : Instr), decode w = .instr i ↔ i.WellFormed ∧ encode i = w

/-- R83: the opcode map. A word that decodes to a command matches that command's row; a word that
matches a row decodes to that row's command or has an operand out of range; the seventeen rows do not
overlap; the all-zero word is NOP and the all-one word is illegal. -/
def Obligations.OpcodeMapAgrees : Prop :=
  opTable.length = 17
    ∧ (∀ w i, decode w = .instr i →
        ∃ row ∈ opTable, row.mnemonic = mnemonic i ∧ w &&& row.mask = row.pattern)
    ∧ (∀ w, ∀ row ∈ opTable, w &&& row.mask = row.pattern →
        ∃ i, mnemonic i = row.mnemonic ∧ encode i = w ∧
          (decode w = .instr i ∨ (¬ i.WellFormed ∧ ∃ why, decode w = .illegal why)))
    ∧ (∀ w, ∀ r₁ ∈ opTable, ∀ r₂ ∈ opTable,
        w &&& r₁.mask = r₁.pattern → w &&& r₂.mask = r₂.pattern → r₁ = r₂)
    ∧ decode 0#32 = .instr .nop ∧ ∃ why, decode (BitVec.allOnes 32) = .illegal why

/-- R84: a word with a reserved opcode is refused with ILLEGAL whatever its payload, and changes no
state but GSTAT.REFUSED. -/
def Obligations.ReservedOpcodeRefused : Prop :=
  ∀ (s : State) (w : Word) (rest : List PortEvent),
    s.env.port = .cmd w :: rest → s.env.stalled = false →
    (let op := w.toNat / 2 ^ 27
     (0x0B ≤ op ∧ op ≤ 0x0F) ∨ (0x16 ≤ op ∧ op ≤ 0x1F)) →
    ∃ t, step s = .next t ∧ RefusedWith (s.withPort rest) t .illegal

/-- R85: a word whose opcode is assigned but which has a 1 in a bit its format marks `0` is refused with
ILLEGAL. The bits that must be zero are those of the row's mask below the opcode. -/
def Obligations.ReservedBitRefused : Prop :=
  ∀ (s : State) (w : Word) (rest : List PortEvent),
    s.env.port = .cmd w :: rest → s.env.stalled = false →
    (∃ row ∈ opTable, w.toNat / 2 ^ 27 = row.pattern.toNat / 2 ^ 27
      ∧ w &&& row.mask &&& 0x07FFFFFF#32 ≠ 0#32) →
    ∃ t, step s = .next t ∧ RefusedWith (s.withPort rest) t .illegal

/-- R86: the six cases of an operand out of range, (a) to (f), each refused with ILLEGAL in every state
of the units; every other operand value is legal. -/
def Obligations.OperandRangesRefused : Prop :=
  (∀ (s : State) (i : Instr) (rest : List PortEvent),
    s.env.port = .cmd (encode i) :: rest → s.env.stalled = false →
    ((∃ r, (i = .rdreg r ∨ ∃ v, i = .wrreg r v)
          ∧ ((11 ≤ r.toNat ∧ r.toNat ≤ 15) ∨ (21 ≤ r.toNat ∧ r.toNat ≤ 31)))
      ∨ (∃ r v, i = .wrreg r v ∧ regOf r ≠ none ∧ r ≠ 1#5 ∧ r ≠ 3#5)
      ∨ (∃ v, i = .wrreg 1#5 v ∧ v.toNat / 2 ^ 3 ≠ 0)
      ∨ (∃ v, i = .wrreg 3#5 v ∧ (v.toNat / 2 ^ 10 ≠ 0 ∨ v.toNat % 2 ^ 9 = 0x1FF))
      ∨ (∃ sym, i = .tLeaf 0x1FF#9 sym) ∨ (∃ left right, i = .tInt 0x1FF#9 left right)
      ∨ (∃ byte n, i = .decPut byte n ∧ 9 ≤ n.toNat)) →
    ∃ t, step s = .next t ∧ RefusedWith (s.withPort rest) t .illegal)
  ∧ (decode (encode .nop) = .instr .nop ∧ decode (encode .srst) = .instr .srst
      ∧ decode (encode .encInit) = .instr .encInit ∧ decode (encode .ctClr) = .instr .ctClr
      ∧ decode (encode .encEnd) = .instr .encEnd ∧ decode (encode .encAbort) = .instr .encAbort
      ∧ decode (encode .decInit) = .instr .decInit ∧ decode (encode .decEnd) = .instr .decEnd
      ∧ decode (encode .decAbort) = .instr .decAbort)
  ∧ (∀ r : RegNum, (r.toNat ≤ 10 ∨ (16 ≤ r.toNat ∧ r.toNat ≤ 20)) →
      decode (encode (.rdreg r)) = .instr (.rdreg r))
  ∧ (∀ v : BitVec 16, v.toNat / 2 ^ 3 = 0 →
      decode (encode (.wrreg 1#5 v)) = .instr (.wrreg 1#5 v))
  ∧ (∀ v : BitVec 16, v.toNat / 2 ^ 10 = 0 → v.toNat % 2 ^ 9 ≠ 0x1FF →
      decode (encode (.wrreg 3#5 v)) = .instr (.wrreg 3#5 v))
  ∧ (∀ sym, decode (encode (.ctOpen sym)) = .instr (.ctOpen sym)
      ∧ decode (encode (.encPut sym)) = .instr (.encPut sym))
  ∧ (∀ b, decode (encode (.ctPush b)) = .instr (.ctPush b))
  ∧ (∀ idx sym, idx ≠ 0x1FF#9 → decode (encode (.tLeaf idx sym)) = .instr (.tLeaf idx sym))
  ∧ (∀ idx left right, idx ≠ 0x1FF#9 →
      decode (encode (.tInt idx left right)) = .instr (.tInt idx left right))
  ∧ (∀ byte n, n.toNat ≤ 8 → decode (encode (.decPut byte n)) = .instr (.decPut byte n))

/-! ## The step, the port and reset -/

/-- R100: a step takes the next word of the command port, decodes it, and refuses an illegal word or
executes the command; the word is taken off the port first. -/
def Obligations.StepRunsDecodedCommand : Prop :=
  ∀ (s : State) (w : Word) (rest : List PortEvent),
    s.env.port = .cmd w :: rest → s.env.stalled = false →
    (∀ i, decode w = .instr i → step s = exec i (s.withPort rest))
      ∧ ∀ why, decode w = .illegal why → step s = .next ((s.withPort rest).refuse .illegal)

/-- R43, R217: with no word on the port the block waits and holds its state. R68: while the block is
inside a command whose sink never answers, no command word is accepted. The waiting step itself is the
model's form of it (log 2, log 6). -/
def Obligations.WaitsWithoutCommand : Prop :=
  ∀ s : State, (s.env.port = [] → step s = .next s)
    ∧ ∀ w rest, s.env.port = .cmd w :: rest → s.env.stalled = true → step s = .next s

/-- R92: every command word is answered by exactly one response, when the command is complete (a command
whose unit's sink never answers is not: R68, whose stalled state is the model's form, log 6), and nothing
else is answered; DATA is the register's value for RDREG,
the new ERRINFO of the command's unit for a fatal error, and 0 in every other case. -/
def Obligations.EveryCommandAnsweredOnce : Prop :=
  (∀ (s t : State) (w : Word) (rest : List PortEvent),
    s.env.port = .cmd w :: rest → s.env.stalled = false → step s = .next t →
    (t.env.stalled = true ∧ t.env.rsps = s.env.rsps
        ∧ ∃ i, decode w = .instr i ∧ ((i.isEnc = true ∧ t.env.encOut.answerAt 0 = none)
          ∨ (i.isDec = true ∧ t.env.decOut.answerAt 0 = none)))
      ∨ ∃ c d, t.env.stalled = false ∧ t.env.rsps = s.env.rsps ++ [⟨c, d⟩]
        ∧ (∀ r, decode w = .instr (.rdreg r) → ∃ reg, regOf r = some reg ∧ c = .ok ∧ d = s.regValue reg)
        ∧ ((c = .unencodable ∨ c = .malformed ∨ c = .ioerr) →
            ∃ i, decode w = .instr i ∧ ((i.isEnc = true ∧ d = t.regValue .encErrinfo)
              ∨ (i.isDec = true ∧ d = t.regValue .decErrinfo)))
        ∧ ((∀ r, decode w ≠ .instr (.rdreg r)) → c ≠ .unencodable → c ≠ .malformed → c ≠ .ioerr → d = 0))
  ∧ (∀ (s t : State), step s = .next t → (∀ w rest, s.env.port ≠ .cmd w :: rest) →
      t.env.rsps = s.env.rsps)

/-- R240: the hardware reset gives the block its reset state, answers nothing, leaves what the sinks have
accepted, and takes the block out of a command in progress. -/
def Obligations.HardwareReset : Prop :=
  ∀ (s : State) (rest : List PortEvent), s.env.port = .rst :: rest →
    ∃ t, step s = .next t ∧ t.glob = State.reset.glob ∧ t.enc = State.reset.enc
      ∧ t.dec = State.reset.dec ∧ t.env = { s.env with port := rest, stalled := false }

/-- R240, 93 V8: `rst` during a command, after at most `n` answers of the sink: the block is in its reset
state, the command is never answered, and each sink has accepted at most `n` more bytes, the first ones
of those it would have accepted had the command completed. Only a walk that reads an entry never written
stops the model. -/
def Obligations.ResetDuringCommand : Prop :=
  ∀ (s : State) (w : Word) (n : Nat) (rest : List PortEvent),
    s.env.port = .rstDuring w n :: rest → s.env.stalled = false →
    (∃ i, step s = .fault (.unwrittenNode i))
      ∨ ∃ t, step s = .next t ∧ t.glob = State.reset.glob ∧ t.enc = State.reset.enc
        ∧ t.dec = State.reset.dec ∧ t.env.port = rest ∧ t.env.stalled = false
        ∧ t.env.rsps = s.env.rsps
        ∧ ∃ xs ys, t.env.encOut.out = s.env.encOut.out ++ xs ∧ xs.length ≤ n
            ∧ t.env.decOut.out = s.env.decOut.out ++ ys ∧ ys.length ≤ n
            ∧ ∀ u xs' ys', step (s.withPort (.cmd w :: rest)) = .next u →
                u.env.encOut.out = s.env.encOut.out ++ xs' →
                u.env.decOut.out = s.env.decOut.out ++ ys' → xs = xs'.take n ∧ ys = ys'.take n

/-- R241: the state after reset, complete. An entry of TM holds nothing, which is how the model keeps
"unspecified" (R67, log 9). The last clause, the waiting step on the empty port, is the model's form of
"waiting for its first command" (log 2, log 3). -/
def Obligations.ResetState : Prop :=
  (∀ reg, reg ≠ .id → State.reset.regValue reg = 0) ∧ State.reset.regValue .id = 0x48424331#32
    ∧ (∀ x, State.reset.enc.len x = 0) ∧ (∀ i, State.reset.dec.node i = none)
    ∧ State.reset.irq = false
    ∧ State.reset.env.encOut.out = [] ∧ State.reset.env.decOut.out = []
    ∧ State.reset.env.rsps = [] ∧ step State.reset = .next State.reset

/-! ## The global commands -/

/-- R101: NOP answers OK and does nothing else, in every state. -/
def Obligations.NopDoesNothing : Prop :=
  ∀ s, ∃ t, exec .nop s = .next t ∧ AnswersOnly s t .ok 0
    ∧ t.glob = s.glob ∧ t.enc = s.enc ∧ t.dec = s.dec

/-- R102: SRST puts the block into its reset state in every state, answers OK, writes nothing to either
sink, and is the only command that clears GSTAT.REFUSED. -/
def Obligations.SrstResetsBlock : Prop :=
  (∀ s, ∃ t, exec .srst s = .next t ∧ AnswersOnly s t .ok 0 ∧ t.glob = State.reset.glob
      ∧ t.enc = State.reset.enc ∧ t.dec = State.reset.dec ∧ (∀ x, t.enc.len x = 0)
      ∧ ∀ i, t.dec.node i = none)
  ∧ ∀ i s t, exec i s = .next t → i ≠ .srst → s.glob.refused = true → t.glob.refused = true

/-- R103: RDREG of an assigned register answers (OK, the register's value) and changes no state; R36: which
numbers are assigned. The clause that a reserved number is refused with ILLEGAL speaks of `exec` of a term
no word decodes to, which is the model's choice (log 11); OperandRangesRefused says it of the words. -/
def Obligations.RdregReturnsValue : Prop :=
  ∀ (s : State) (r : RegNum),
    (∀ reg, regOf r = some reg → ∃ t, exec (.rdreg r) s = .next t ∧ AnswersOnly s t .ok (s.regValue reg)
      ∧ t.glob = s.glob ∧ t.enc = s.enc ∧ t.dec = s.dec)
    ∧ (((11 ≤ r.toNat ∧ r.toNat ≤ 15) ∨ 21 ≤ r.toNat) →
        ∃ t, exec (.rdreg r) s = .next t ∧ RefusedWith s t .illegal)
    ∧ ((r.toNat ≤ 10 ∨ (16 ≤ r.toNat ∧ r.toNat ≤ 20)) → regOf r ≠ none)

/-- R14, R20 to R35: the number and the value of every assigned register, field by field, with the numbers
of the states and of the causes (R24, R31); every other bit reads 0. -/
def Obligations.RegisterFields : Prop :=
  regOf 0#5 = some .id ∧ regOf 1#5 = some .ctrl ∧ regOf 2#5 = some .gstat ∧ regOf 3#5 = some .troot
    ∧ regOf 4#5 = some .encStatus ∧ regOf 5#5 = some .encErrinfo ∧ regOf 6#5 = some .encAcc
    ∧ regOf 7#5 = some .encCtsel ∧ regOf 8#5 = some .encSyms ∧ regOf 9#5 = some .encBits
    ∧ regOf 10#5 = some .encBytes ∧ regOf 16#5 = some .decStatus ∧ regOf 17#5 = some .decErrinfo
    ∧ regOf 18#5 = some .decCur ∧ regOf 19#5 = some .decBits ∧ regOf 20#5 = some .decSyms
    ∧ UnitState.idle.number.toNat = 0 ∧ UnitState.run.number.toNat = 1
    ∧ UnitState.done.number.toNat = 2 ∧ UnitState.fail.number.toNat = 3
    ∧ Cause.none.number.toNat = 0 ∧ Cause.unencodable.number.toNat = 1
    ∧ Cause.malformed.number.toNat = 2 ∧ Cause.ioerr.number.toNat = 3
    ∧ ∀ s : State,
      s.regValue .id = 0x48424331#32
      ∧ (s.regValue .ctrl).toNat = s.glob.fill.toNat + 2 * s.glob.eie.toNat + 4 * s.glob.die.toNat
      ∧ (s.regValue .gstat).toNat = s.glob.refused.toNat + 2 * s.irq.toNat
      ∧ (s.regValue .troot).toNat = s.dec.rootIdx.toNat + 512 * s.dec.present.toNat
      ∧ (s.regValue .encStatus).toNat = s.enc.state.number.toNat + 4 * s.enc.cause.number.toNat
      ∧ (s.regValue .encErrinfo).toNat = s.enc.errSym.toNat + 256 * s.enc.errSrc.toNat
      ∧ (s.regValue .encAcc).toNat = s.enc.acc.toNat + 256 * s.enc.accN.toNat + 4096 * s.enc.lastN.toNat
      ∧ (s.regValue .encCtsel).toNat = s.enc.selSym.toNat + 256 * s.enc.selV.toNat
      ∧ s.regValue .encSyms = s.enc.syms ∧ s.regValue .encBits = s.enc.bits
      ∧ s.regValue .encBytes = s.enc.bytes
      ∧ (s.regValue .decStatus).toNat
          = s.dec.state.number.toNat + 4 * s.dec.cause.number.toNat + 64 * s.dec.trunc.toNat
      ∧ (s.regValue .decErrinfo).toNat
          = s.dec.errNode.toNat + 512 * s.dec.errBit.toNat + 1024 * s.dec.errSrc.toNat
      ∧ (s.regValue .decCur).toNat = s.dec.cur.toNat
      ∧ s.regValue .decBits = s.dec.bits ∧ s.regValue .decSyms = s.dec.syms

/-- R104: WRREG writes CTRL in every state, TROOT while DEC is IDLE and is refused with SEQ otherwise. The
last clause, an illegal register or value refused with ILLEGAL, speaks of `exec` of a term no word decodes
to, which is the model's choice (log 11); OperandRangesRefused says it of the words. -/
def Obligations.WrregWritesCtrlAndTroot : Prop :=
  ∀ (s : State) (v : BitVec 16),
    (v.toNat < 8 → ∃ t, exec (.wrreg 1#5 v) s = .next t ∧ AnswersOnly s t .ok 0
      ∧ t.glob.fill = v.getLsbD 0 ∧ t.glob.eie = v.getLsbD 1 ∧ t.glob.die = v.getLsbD 2
      ∧ t.glob.refused = s.glob.refused ∧ t.enc = s.enc ∧ t.dec = s.dec)
    ∧ (v.toNat < 1024 → v.toNat % 512 ≠ 511 → s.dec.state = .idle →
        ∃ t, exec (.wrreg 3#5 v) s = .next t ∧ AnswersOnly s t .ok 0 ∧ t.glob = s.glob ∧ t.enc = s.enc
          ∧ t.dec = { s.dec with rootIdx := BitVec.ofNat 9 v.toNat, present := v.getLsbD 9 })
    ∧ (v.toNat < 1024 → v.toNat % 512 ≠ 511 → s.dec.state ≠ .idle →
        ∃ t, exec (.wrreg 3#5 v) s = .next t ∧ RefusedWith s t .seq)
    ∧ ∀ r, ¬ (Instr.wrreg r v).WellFormed →
        ∃ t, exec (.wrreg r v) s = .next t ∧ RefusedWith s t .illegal

/-! ## The encoder unit -/

/-- R120: the state table of ENC, for every command. A command that has not completed (its sink never
answers) is not in the table. -/
def Obligations.EncStateTable : Prop :=
  ∀ (i : Instr) (s t : State), i.WellFormed → exec i s = .next t → t.env.stalled = false →
    match encTable i s.enc.state with
    | .leaves u => t.enc.state = u
        ∧ ((∀ b, i = .ctPush b → s.enc.selV = true) → ¬ RefusedWith s t .seq)
    | .leavesOrFails u => (t.enc.state = u ∨ t.enc.state = .fail) ∧ ¬ RefusedWith s t .seq
    | .seq => RefusedWith s t .seq
    | .keeps => t.enc.state = s.enc.state

/-- R121: PutBit. The bit goes to ACC[7 - ACC_N]; with the eighth bit the accumulator is emptied and the
byte is offered to ENC_OUT; ENC_BITS counts the bit in every case. The last clause, a sink that gives no
answer (R68), is the model's form: the block is stalled (log 6). -/
def Obligations.PutBitFillsFromBitSeven : Prop :=
  ∀ (b : Bool) (s : State),
    (s.enc.accN ≠ 7#3 → ∃ t, putBit b s = .go t ∧ t.enc.acc.getLsbD (7 - s.enc.accN.toNat) = b
      ∧ (∀ j, j ≠ 7 - s.enc.accN.toNat → t.enc.acc.getLsbD j = s.enc.acc.getLsbD j)
      ∧ t = { s with enc := { s.enc with
          acc := t.enc.acc, accN := s.enc.accN + 1, bits := s.enc.bits + 1 } })
    ∧ (s.enc.accN = 7#3 → ∀ byte : Byte,
        byte.getLsbD 0 = b → (∀ j, j ≠ 0 → byte.getLsbD j = s.enc.acc.getLsbD j) →
        (s.env.encOut.answerAt 0 = some .ok → putBit b s = .go { s with
            enc := { s.enc with acc := 0, accN := 0, bits := s.enc.bits + 1, bytes := s.enc.bytes + 1 }
            env := { s.env with encOut := s.env.encOut.acceptedAll [byte] } })
        ∧ (s.env.encOut.answerAt 0 = some .fail → ∃ t, putBit b s = .ended t
            ∧ t.enc = { s.enc with acc := 0, accN := 0, bits := s.enc.bits + 1,
                                   state := .fail, cause := .ioerr, errSym := 0, errSrc := false }
            ∧ t.env.rsps = s.env.rsps ++ [⟨.ioerr, 0⟩] ∧ t.env.encOut.out = s.env.encOut.out
            ∧ t.env.decOut = s.env.decOut ∧ t.glob = s.glob ∧ t.dec = s.dec)
        ∧ (s.env.encOut.answerAt 0 = none → ∃ t, putBit b s = .ended t
            ∧ t.enc = { s.enc with acc := 0, accN := 0, bits := s.enc.bits + 1 }
            ∧ t.env = { s.env with stalled := true } ∧ t.glob = s.glob ∧ t.dec = s.dec))

/-- R122: ENC.INIT, in every state, and what it leaves as it is. -/
def Obligations.EncInitStartsCleanRun : Prop :=
  ∀ s, ∃ t, exec .encInit s = .next t ∧ AnswersOnly s t .ok 0
    ∧ t.enc.state = .idle ∧ t.enc.cause = .none ∧ t.enc.errSym = 0 ∧ t.enc.errSrc = false
    ∧ t.enc.acc = 0 ∧ t.enc.accN = 0 ∧ t.enc.lastN = 0 ∧ t.enc.selV = false
    ∧ t.enc.syms = 0 ∧ t.enc.bits = 0 ∧ t.enc.bytes = 0
    ∧ t.enc.selSym = s.enc.selSym ∧ SameCT s t ∧ t.glob = s.glob ∧ t.dec = s.dec

/-- R123: CT.CLR in IDLE, and its refusal outside IDLE. -/
def Obligations.CtClrEmptiesTable : Prop :=
  ∀ s, (s.enc.state = .idle → ∃ t, exec .ctClr s = .next t ∧ AnswersOnly s t .ok 0
      ∧ (∀ x, t.enc.len x = 0) ∧ t.enc = { s.enc with ct := t.enc.ct, selV := false }
      ∧ t.glob = s.glob ∧ t.dec = s.dec)
    ∧ (s.enc.state ≠ .idle → ∃ t, exec .ctClr s = .next t ∧ RefusedWith s t .seq)

/-- R124: CT.OPEN in IDLE, and its refusal outside IDLE. -/
def Obligations.CtOpenOpensEntry : Prop :=
  ∀ (s : State) (sym : Byte),
    (s.enc.state = .idle → ∃ t, exec (.ctOpen sym) s = .next t ∧ AnswersOnly s t .ok 0
      ∧ t.enc.len sym = 0 ∧ (∀ x, x ≠ sym → t.enc.code x = s.enc.code x)
      ∧ t.enc = { s.enc with ct := t.enc.ct, selSym := sym, selV := true }
      ∧ t.glob = s.glob ∧ t.dec = s.dec)
    ∧ (s.enc.state ≠ .idle → ∃ t, exec (.ctOpen sym) s = .next t ∧ RefusedWith s t .seq)

/-- R125: CT.PUSH appends a bit to the open entry; SEQ outside IDLE or with no open entry, then OVERFLOW
at 255 bits. -/
def Obligations.CtPushAppendsBit : Prop :=
  ∀ (s : State) (b : Bool),
    (s.enc.state = .idle → s.enc.selV = true → s.enc.len s.enc.selSym ≠ 255 →
      ∃ t, exec (.ctPush b) s = .next t ∧ AnswersOnly s t .ok 0
        ∧ t.enc.code s.enc.selSym = s.enc.code s.enc.selSym ++ [b]
        ∧ t.enc.len s.enc.selSym = s.enc.len s.enc.selSym + 1
        ∧ (∀ x, x ≠ s.enc.selSym → t.enc.code x = s.enc.code x)
        ∧ t.enc = { s.enc with ct := t.enc.ct } ∧ t.glob = s.glob ∧ t.dec = s.dec)
    ∧ (s.enc.state = .idle → s.enc.selV = true → s.enc.len s.enc.selSym = 255 →
        ∃ t, exec (.ctPush b) s = .next t ∧ RefusedWith s t .overflow)
    ∧ ((s.enc.state ≠ .idle ∨ s.enc.selV = false) →
        ∃ t, exec (.ctPush b) s = .next t ∧ RefusedWith s t .seq)

/-- R126: ENC.PUT of a symbol that has a code, when the sink accepts every byte the code completes. With
`B` the bits ACC held followed by the code, the whole bytes of `B` go to ENC_OUT and the rest stays in
ACC. In DONE and FAIL the command is refused with SEQ. -/
def Obligations.EncPutEncodesSymbol : Prop :=
  ∀ (s : State) (sym : Byte),
    ((s.enc.state = .idle ∨ s.enc.state = .run) → s.enc.code sym ≠ [] → s.enc.accClean →
      (let B := s.enc.held ++ s.enc.code sym
       s.env.encOut.acceptsNext (B.length / 8) →
       ∃ t, exec (.encPut sym) s = .next t
        ∧ t.env = { s.env with
            encOut := s.env.encOut.acceptedAll ((pack B false).take (B.length / 8))
            rsps := s.env.rsps ++ [⟨.ok, 0⟩] }
        ∧ t.enc.held = B.drop (8 * (B.length / 8)) ∧ t.enc.accClean
        ∧ t.enc = { s.enc with
            state := .run, acc := t.enc.acc, accN := BitVec.ofNat 3 B.length
            syms := s.enc.syms + 1, bits := s.enc.bits + BitVec.ofNat 32 (s.enc.len sym)
            bytes := s.enc.bytes + BitVec.ofNat 32 (B.length / 8) }
        ∧ t.glob = s.glob ∧ t.dec = s.dec))
    ∧ ((s.enc.state = .done ∨ s.enc.state = .fail) →
        ∃ t, exec (.encPut sym) s = .next t ∧ RefusedWith s t .seq)

/-- R202: ENC.PUT of an absent symbol is UNENCODABLE, before any bit: nothing goes to the sink, ACC,
ACC_N and the counters stay, ERRINFO holds the symbol and the response is (1, sym). -/
def Obligations.EncPutAbsentSymbol : Prop :=
  ∀ (s : State) (sym : Byte), (s.enc.state = .idle ∨ s.enc.state = .run) → s.enc.len sym = 0 →
    ∃ t, exec (.encPut sym) s = .next t ∧ AnswersOnly s t .unencodable (BitVec.ofNat 32 sym.toNat)
      ∧ t.enc = { s.enc with state := .fail, cause := .unencodable, errSym := sym, errSrc := false }
      ∧ t.glob = s.glob ∧ t.dec = s.dec

/-- R205 and R211 for ENC.PUT: the sink accepts `j` bytes and answers `fail` to the next. Those `j` bytes
stay at the sink, the symbol and every bit up to the one that completed the failed byte are counted,
the accumulator is empty, and the response is (3, 0). -/
def Obligations.EncPutSinkFailure : Prop :=
  ∀ (s : State) (sym : Byte) (j : Nat), (s.enc.state = .idle ∨ s.enc.state = .run) →
    (let B := s.enc.held ++ s.enc.code sym
     s.enc.code sym ≠ [] → j < B.length / 8 → s.env.encOut.acceptsNext j →
     s.env.encOut.answerAt j = some .fail →
     ∃ t, exec (.encPut sym) s = .next t
      ∧ t.env.encOut.out = s.env.encOut.out ++ (pack B false).take j
      ∧ t.env.encOut.script = s.env.encOut.script.drop (j + 1)
      ∧ t.env.encOut.rest = s.env.encOut.rest
      ∧ t.env = { s.env with encOut := t.env.encOut, rsps := s.env.rsps ++ [⟨.ioerr, 0⟩] }
      ∧ t.enc = { s.enc with
          state := .fail, cause := .ioerr, errSym := 0, errSrc := false, acc := 0, accN := 0
          syms := s.enc.syms + 1
          bits := s.enc.bits + BitVec.ofNat 32 (8 * (j + 1) - s.enc.accN.toNat)
          bytes := s.enc.bytes + BitVec.ofNat 32 j }
      ∧ t.glob = s.glob ∧ t.dec = s.dec)

/-- R127: ENC.END. LASTN is the ACC_N it found; a held bit count of 0 writes nothing; otherwise the held
bits, padded with CTRL.FILL, are the last byte; the unit is DONE, or FAIL when the sink fails (LASTN
stays recorded, ACC is empty). In DONE and FAIL the command is refused with SEQ. -/
def Obligations.EncEndPadsAndCloses : Prop :=
  ∀ s : State,
    ((s.enc.state = .idle ∨ s.enc.state = .run) → s.enc.accN = 0 →
      ∃ t, exec .encEnd s = .next t ∧ AnswersOnly s t .ok 0
        ∧ t.enc = { s.enc with state := .done, lastN := 0 } ∧ t.glob = s.glob ∧ t.dec = s.dec)
    ∧ ((s.enc.state = .idle ∨ s.enc.state = .run) → s.enc.accN ≠ 0 → s.enc.accClean →
        (s.env.encOut.answerAt 0 = some .ok → ∃ t, exec .encEnd s = .next t
          ∧ t.env = { s.env with
              encOut := s.env.encOut.acceptedAll (pack s.enc.held s.glob.fill)
              rsps := s.env.rsps ++ [⟨.ok, 0⟩] }
          ∧ t.enc = { s.enc with state := .done, lastN := s.enc.accN, acc := 0, accN := 0
                                 bytes := s.enc.bytes + 1 }
          ∧ t.glob = s.glob ∧ t.dec = s.dec)
        ∧ (s.env.encOut.answerAt 0 = some .fail → ∃ t, exec .encEnd s = .next t
            ∧ t.env.encOut.out = s.env.encOut.out
            ∧ t.env = { s.env with encOut := t.env.encOut, rsps := s.env.rsps ++ [⟨.ioerr, 0⟩] }
            ∧ t.enc = { s.enc with state := .fail, cause := .ioerr, errSym := 0, errSrc := false
                                   lastN := s.enc.accN, acc := 0, accN := 0 }
            ∧ t.glob = s.glob ∧ t.dec = s.dec))
    ∧ ((s.enc.state = .done ∨ s.enc.state = .fail) →
        ∃ t, exec .encEnd s = .next t ∧ RefusedWith s t .seq)

/-- R128: ENC.ABORT in IDLE and RUN, and its refusal in DONE and FAIL. -/
def Obligations.EncAbortFails : Prop :=
  ∀ s : State,
    ((s.enc.state = .idle ∨ s.enc.state = .run) → ∃ t, exec .encAbort s = .next t
      ∧ AnswersOnly s t .ok 0
      ∧ t.enc = { s.enc with state := .fail, cause := .ioerr, errSym := 0, errSrc := true }
      ∧ t.glob = s.glob ∧ t.dec = s.dec)
    ∧ ((s.enc.state = .done ∨ s.enc.state = .fail) →
        ∃ t, exec .encAbort s = .next t ∧ RefusedWith s t .seq)

/-! ## The decoder unit -/

/-- R150: the state table of DEC, for every command. A command that has not completed (its sink never
answers) is not in the table. -/
def Obligations.DecStateTable : Prop :=
  ∀ (i : Instr) (s t : State), i.WellFormed → exec i s = .next t → t.env.stalled = false →
    match decTable i s.dec.state with
    | .leaves u => t.dec.state = u ∧ ¬ RefusedWith s t .seq
    | .leavesOrFails u => (t.dec.state = u ∨ t.dec.state = .fail) ∧ ¬ RefusedWith s t .seq
    | .seq => RefusedWith s t .seq
    | .keeps => t.dec.state = s.dec.state

/-- R151: WalkBit. A bit with no child is MALFORMED and moves nothing; otherwise the bit is counted and
the cursor moves to the child; a leaf's symbol goes to DEC_OUT and the cursor returns to the root; after
a sink failure the cursor stays on the leaf. -/
def Obligations.WalkBitMovesCursor : Prop :=
  ∀ (b : Bool) (s : State),
    (s.dec.noChild b s.dec.cur → ∃ t, walkBit b s = .ended t
      ∧ AnswersOnly s t .malformed (BitVec.ofNat 32 (s.dec.cur.toNat + 512 * b.toNat))
      ∧ t.dec = { s.dec with state := .fail, cause := .malformed
                             errNode := s.dec.cur, errBit := b, errSrc := false }
      ∧ t.glob = s.glob ∧ t.enc = s.enc)
    ∧ ∀ left right child, s.dec.node s.dec.cur = some (.int left right) →
        child = (if b = true then right else left) → child ≠ 0x1FF#9 →
        ((∃ l r, s.dec.node child = some (.int l r)) →
          walkBit b s = .go { s with dec := { s.dec with cur := child, bits := s.dec.bits + 1 } })
        ∧ ∀ sym, s.dec.node child = some (.leaf sym) →
          (s.env.decOut.answerAt 0 = some .ok → walkBit b s = .go { s with
              dec := { s.dec with cur := s.dec.rootIdx, bits := s.dec.bits + 1
                                  syms := s.dec.syms + 1 }
              env := { s.env with decOut := s.env.decOut.acceptedAll [sym] } })
          ∧ (s.env.decOut.answerAt 0 = some .fail → ∃ t, walkBit b s = .ended t
              ∧ t.dec = { s.dec with cur := child, bits := s.dec.bits + 1, state := .fail
                                     cause := .ioerr, errNode := 0, errBit := false, errSrc := false }
              ∧ t.env.decOut.out = s.env.decOut.out ∧ t.env.encOut = s.env.encOut
              ∧ t.env.rsps = s.env.rsps ++ [⟨.ioerr, 0⟩] ∧ t.glob = s.glob ∧ t.enc = s.enc)

/-- R152: DEC.INIT, in every state, and what it leaves as it is. -/
def Obligations.DecInitStartsCleanRun : Prop :=
  ∀ s, ∃ t, exec .decInit s = .next t ∧ AnswersOnly s t .ok 0
    ∧ t.dec.state = .idle ∧ t.dec.cause = .none ∧ t.dec.trunc = false ∧ t.dec.errNode = 0
    ∧ t.dec.errBit = false ∧ t.dec.errSrc = false ∧ t.dec.cur = 0 ∧ t.dec.bits = 0 ∧ t.dec.syms = 0
    ∧ t.dec.rootIdx = s.dec.rootIdx ∧ t.dec.present = s.dec.present ∧ SameTM s t
    ∧ t.glob = s.glob ∧ t.enc = s.enc

/-- R153: T.LEAF writes one node, only in IDLE. The clause on the NIL index speaks of `exec` of a term no
word decodes to ("Decode has refused idx = 0x1FF"), which is the model's choice (log 11). -/
def Obligations.TLeafWritesNode : Prop :=
  ∀ (s : State) (idx : Idx) (sym : Byte),
    (idx ≠ 0x1FF#9 → s.dec.state = .idle → ∃ t, exec (.tLeaf idx sym) s = .next t
      ∧ AnswersOnly s t .ok 0 ∧ t.dec.node idx = some (.leaf sym)
      ∧ (∀ i, i ≠ idx → t.dec.node i = s.dec.node i) ∧ t.dec = { s.dec with tm := t.dec.tm }
      ∧ t.glob = s.glob ∧ t.enc = s.enc)
    ∧ (idx ≠ 0x1FF#9 → s.dec.state ≠ .idle →
        ∃ t, exec (.tLeaf idx sym) s = .next t ∧ RefusedWith s t .seq)
    ∧ (idx = 0x1FF#9 → ∃ t, exec (.tLeaf idx sym) s = .next t ∧ RefusedWith s t .illegal)

/-- R154: T.INT writes one node, only in IDLE, whatever the children. The clause on the NIL index speaks of
`exec` of a term no word decodes to ("Decode has refused idx = 0x1FF"), which is the model's choice
(log 11). -/
def Obligations.TIntWritesNode : Prop :=
  ∀ (s : State) (idx left right : Idx),
    (idx ≠ 0x1FF#9 → s.dec.state = .idle → ∃ t, exec (.tInt idx left right) s = .next t
      ∧ AnswersOnly s t .ok 0 ∧ t.dec.node idx = some (.int left right)
      ∧ (∀ i, i ≠ idx → t.dec.node i = s.dec.node i) ∧ t.dec = { s.dec with tm := t.dec.tm }
      ∧ t.glob = s.glob ∧ t.enc = s.enc)
    ∧ (idx ≠ 0x1FF#9 → s.dec.state ≠ .idle →
        ∃ t, exec (.tInt idx left right) s = .next t ∧ RefusedWith s t .seq)
    ∧ (idx = 0x1FF#9 → ∃ t, exec (.tInt idx left right) s = .next t ∧ RefusedWith s t .illegal)

/-- R155: DEC.PUT when the tree is absent consumes nothing; when it is present and the first `n` bits of
the byte spell symbols the sink accepts, those go to DEC_OUT and the cursor, the bit count and the symbol
count follow. The first DEC.PUT of a run starts at the root. In DONE and FAIL it is refused with SEQ. The
clause on `n` above 8 speaks of `exec` of a term no word decodes to ("Decode has refused n > 8"), which is
the model's choice (log 11). -/
def Obligations.DecPutDecodesBits : Prop :=
  ∀ (s : State) (byte : Byte) (n : BitVec 4),
    (n.toNat ≤ 8 → (s.dec.state = .idle ∨ s.dec.state = .run) → s.dec.present = false →
      ∃ t, exec (.decPut byte n) s = .next t ∧ AnswersOnly s t .ok 0
        ∧ t.dec = { s.dec with state := .run } ∧ t.glob = s.glob ∧ t.enc = s.enc)
    ∧ (n.toNat ≤ 8 → (s.dec.state = .idle ∨ s.dec.state = .run) → s.dec.present = true →
        ∀ xs cur, s.dec.spells ((byteBits byte).take n.toNat) s.dec.walkStart = some (xs, cur) →
        s.env.decOut.acceptsNext xs.length →
        ∃ t, exec (.decPut byte n) s = .next t
          ∧ t.env = { s.env with
              decOut := s.env.decOut.acceptedAll xs, rsps := s.env.rsps ++ [⟨.ok, 0⟩] }
          ∧ t.dec = { s.dec with
              state := .run, cur := cur, bits := s.dec.bits + BitVec.ofNat 32 n.toNat
              syms := s.dec.syms + BitVec.ofNat 32 xs.length }
          ∧ t.glob = s.glob ∧ t.enc = s.enc)
    ∧ (n.toNat ≤ 8 → (s.dec.state = .done ∨ s.dec.state = .fail) →
        ∃ t, exec (.decPut byte n) s = .next t ∧ RefusedWith s t .seq)
    ∧ (9 ≤ n.toNat → ∃ t, exec (.decPut byte n) s = .next t ∧ RefusedWith s t .illegal)

/-- R203: the bits `pre` of a DEC.PUT are walked and have their whole effect; the next bit `b` asks for a
child that does not exist: MALFORMED, NODE is the cursor, BIT the bit; it is not counted, the cursor does
not move, and the bits after it are not looked at. -/
def Obligations.DecPutMalformed : Prop :=
  ∀ (s : State) (byte : Byte) (n : BitVec 4) (pre post : List Bool) (b : Bool) (xs : List Byte) (cur : Idx),
    n.toNat ≤ 8 → (s.dec.state = .idle ∨ s.dec.state = .run) → s.dec.present = true →
    (byteBits byte).take n.toNat = pre ++ b :: post →
    s.dec.spells pre s.dec.walkStart = some (xs, cur) → s.dec.noChild b cur →
    s.env.decOut.acceptsNext xs.length →
    ∃ t, exec (.decPut byte n) s = .next t
      ∧ t.env = { s.env with
          decOut := s.env.decOut.acceptedAll xs
          rsps := s.env.rsps ++ [⟨.malformed, BitVec.ofNat 32 (cur.toNat + 512 * b.toNat)⟩] }
      ∧ t.dec = { s.dec with
          state := .fail, cause := .malformed, errNode := cur, errBit := b, errSrc := false, cur := cur
          bits := s.dec.bits + BitVec.ofNat 32 pre.length
          syms := s.dec.syms + BitVec.ofNat 32 xs.length }
      ∧ t.glob = s.glob ∧ t.enc = s.enc

/-- R205 and R211 for DEC.PUT: the sink accepts the symbols of the bits `pre` and answers `fail` to the
symbol of the leaf that the next bit reaches: the bit is counted, the cursor stays on the leaf, and the
response is (3, 0). -/
def Obligations.DecPutSinkFailure : Prop :=
  ∀ (s : State) (byte : Byte) (n : BitVec 4) (pre post : List Bool) (b : Bool) (xs : List Byte)
    (cur child : Idx) (sym : Byte),
    n.toNat ≤ 8 → (s.dec.state = .idle ∨ s.dec.state = .run) → s.dec.present = true →
    (byteBits byte).take n.toNat = pre ++ b :: post →
    s.dec.spells pre s.dec.walkStart = some (xs, cur) → s.dec.follow [b] cur = some child →
    s.dec.node child = some (.leaf sym) →
    s.env.decOut.acceptsNext xs.length → s.env.decOut.answerAt xs.length = some .fail →
    ∃ t, exec (.decPut byte n) s = .next t
      ∧ t.env.decOut.out = s.env.decOut.out ++ xs
      ∧ t.env.decOut.script = s.env.decOut.script.drop (xs.length + 1)
      ∧ t.env.decOut.rest = s.env.decOut.rest
      ∧ t.env = { s.env with decOut := t.env.decOut, rsps := s.env.rsps ++ [⟨.ioerr, 0⟩] }
      ∧ t.dec = { s.dec with
          state := .fail, cause := .ioerr, errNode := 0, errBit := false, errSrc := false, cur := child
          bits := s.dec.bits + BitVec.ofNat 32 (pre.length + 1)
          syms := s.dec.syms + BitVec.ofNat 32 xs.length }
      ∧ t.glob = s.glob ∧ t.enc = s.enc

/-- R67: a walk that reads an entry never written, as the cursor's node or as the child it moves to, is a
fault of the model, and exec faults nowhere else. -/
def Obligations.OnlyUnwrittenNodeFaults : Prop :=
  (∀ (s : State) (byte : Byte) (n : BitVec 4) (pre post : List Bool) (b : Bool) (xs : List Byte)
      (cur : Idx),
    n.toNat ≤ 8 → (s.dec.state = .idle ∨ s.dec.state = .run) → s.dec.present = true →
    (byteBits byte).take n.toNat = pre ++ b :: post →
    s.dec.spells pre s.dec.walkStart = some (xs, cur) → s.env.decOut.acceptsNext xs.length →
    (s.dec.node cur = none → exec (.decPut byte n) s = .fault (.unwrittenNode cur))
    ∧ ∀ child, s.dec.follow [b] cur = some child → s.dec.node child = none →
        exec (.decPut byte n) s = .fault (.unwrittenNode child))
  ∧ (∀ i s r, exec i s = .fault r →
      (∃ byte n, i = .decPut byte n) ∧ ∃ j, r = .unwrittenNode j ∧ s.dec.node j = none)

/-- R156: DEC.END records in TRUNC whether the input stopped mid-code, leaves DEC in DONE and is never an
error; in DONE and FAIL it is refused with SEQ. -/
def Obligations.DecEndRecordsTrunc : Prop :=
  ∀ s : State,
    ((s.dec.state = .idle ∨ s.dec.state = .run) → ∃ t, exec .decEnd s = .next t
      ∧ AnswersOnly s t .ok 0 ∧ t.dec = { s.dec with state := .done, trunc := t.dec.trunc }
      ∧ (t.dec.trunc = true ↔
          s.dec.state = .run ∧ s.dec.present = true ∧ s.dec.cur ≠ s.dec.rootIdx)
      ∧ t.glob = s.glob ∧ t.enc = s.enc)
    ∧ ((s.dec.state = .done ∨ s.dec.state = .fail) →
        ∃ t, exec .decEnd s = .next t ∧ RefusedWith s t .seq)

/-- R157: DEC.ABORT in IDLE and RUN, and its refusal in DONE and FAIL. -/
def Obligations.DecAbortFails : Prop :=
  ∀ s : State,
    ((s.dec.state = .idle ∨ s.dec.state = .run) → ∃ t, exec .decAbort s = .next t
      ∧ AnswersOnly s t .ok 0
      ∧ t.dec = { s.dec with state := .fail, cause := .ioerr
                             errNode := 0, errBit := false, errSrc := true }
      ∧ t.glob = s.glob ∧ t.enc = s.enc)
    ∧ ((s.dec.state = .done ∨ s.dec.state = .fail) →
        ∃ t, exec .decAbort s = .next t ∧ RefusedWith s t .seq)

/-! ## Rules of the whole machine -/

/-- R44 holds right after reset, and so does what R24, R25, R31 and R32 say of the status registers. -/
def Obligations.InvAtReset : Prop := StateInv State.reset ∧ StatusInv State.reset

/-- R44: every step keeps the invariants, from every state that has them. -/
def Obligations.InvKeptByStep : Prop := ∀ s t, StateInv s → step s = .next t → StateInv t

/-- R24, R25, R31, R32: every step keeps what they say of the causes, the error information and TRUNC. -/
def Obligations.StatusInvKeptByStep : Prop := ∀ s t, StatusInv s → step s = .next t → StatusInv t

/-- R66: CT does not change while ENC is out of IDLE, nor TM and TROOT while DEC is, whatever command
but SRST is executed. -/
def Obligations.TablesFixedDuringRun : Prop :=
  ∀ (i : Instr) (s t : State), exec i s = .next t → i ≠ .srst →
    (s.enc.state ≠ .idle → SameCT s t)
      ∧ (s.dec.state ≠ .idle → SameTM s t ∧ t.dec.rootIdx = s.dec.rootIdx ∧ t.dec.present = s.dec.present)

/-- Which commands write each piece of state, SRST apart: CT (R53), TM (R56), CTRL and TROOT (R104), the
cursor (R158), ACC and ACC_N, LASTN (R26), CTSEL (R27), the counters (R28 to R30, R34, R35), TRUNC (R31),
STATE, CAUSE and ERRINFO of both units (R24, R25, R31, R32, R204), the sinks (R50), and GSTAT.REFUSED, which
only a refusal changes (R206). -/
def Obligations.OnlyWritersWrite : Prop :=
  ∀ (i : Instr) (s t : State), exec i s = .next t → i ≠ .srst →
    (i ≠ .ctClr → (∀ x, i ≠ .ctOpen x) → (∀ b, i ≠ .ctPush b) → SameCT s t)
    ∧ ((∀ k x, i ≠ .tLeaf k x) → (∀ k l r, i ≠ .tInt k l r) → SameTM s t)
    ∧ ((∀ v, i ≠ .wrreg 1#5 v) → t.glob.fill = s.glob.fill ∧ t.glob.eie = s.glob.eie
        ∧ t.glob.die = s.glob.die)
    ∧ ((∀ v, i ≠ .wrreg 3#5 v) → t.dec.rootIdx = s.dec.rootIdx ∧ t.dec.present = s.dec.present)
    ∧ (i ≠ .decInit → (∀ x n, i ≠ .decPut x n) →
        t.dec.cur = s.dec.cur ∧ t.dec.bits = s.dec.bits ∧ t.dec.syms = s.dec.syms
          ∧ t.env.decOut = s.env.decOut)
    ∧ (i ≠ .encInit → i ≠ .encEnd → (∀ x, i ≠ .encPut x) →
        t.enc.acc = s.enc.acc ∧ t.enc.accN = s.enc.accN ∧ t.enc.bytes = s.enc.bytes
          ∧ t.env.encOut = s.env.encOut)
    ∧ (i ≠ .encInit → (∀ x, i ≠ .encPut x) → t.enc.syms = s.enc.syms ∧ t.enc.bits = s.enc.bits)
    ∧ (i ≠ .encInit → i ≠ .encEnd → t.enc.lastN = s.enc.lastN)
    ∧ (i ≠ .encInit → i ≠ .ctClr → (∀ x, i ≠ .ctOpen x) → t.enc.selV = s.enc.selV)
    ∧ ((∀ x, i ≠ .ctOpen x) → t.enc.selSym = s.enc.selSym)
    ∧ (i ≠ .decInit → i ≠ .decEnd → t.dec.trunc = s.dec.trunc)
    ∧ (i ≠ .encInit → (∀ x, i ≠ .encPut x) → i ≠ .encEnd → i ≠ .encAbort →
        t.enc.state = s.enc.state ∧ t.enc.cause = s.enc.cause
          ∧ t.enc.errSym = s.enc.errSym ∧ t.enc.errSrc = s.enc.errSrc)
    ∧ (i ≠ .decInit → (∀ x n, i ≠ .decPut x n) → i ≠ .decAbort →
        t.dec.cause = s.dec.cause ∧ t.dec.errNode = s.dec.errNode ∧ t.dec.errBit = s.dec.errBit
          ∧ t.dec.errSrc = s.dec.errSrc ∧ (i ≠ .decEnd → t.dec.state = s.dec.state))
    ∧ ((∀ x, i ≠ .encPut x) → i ≠ .encEnd → t.env.encOut = s.env.encOut)
    ∧ ((∀ x n, i ≠ .decPut x n) → t.env.decOut = s.env.decOut)
    ∧ (t.glob.refused ≠ s.glob.refused →
        ∃ c, (c = .illegal ∨ c = .seq ∨ c = .overflow) ∧ RefusedWith s t c)

/-- R64: the units share nothing but CTRL and GSTAT.REFUSED. A command of one unit leaves the other unit
and its sink as they are, and what it does to its own unit, to its own sink and in its response depends
only on that unit, that sink and, for ENC, on CTRL.FILL. -/
def Obligations.UnitsIndependent : Prop :=
  (∀ (i : Instr) (s t : State), exec i s = .next t →
    (i.isEnc = true → t.dec = s.dec ∧ t.env.decOut = s.env.decOut
        ∧ t.glob = { s.glob with refused := t.glob.refused })
      ∧ (i.isDec = true → t.enc = s.enc ∧ t.env.encOut = s.env.encOut
        ∧ t.glob = { s.glob with refused := t.glob.refused }))
  ∧ (∀ (i : Instr) (s s' : State), i.isEnc = true → s'.enc = s.enc → s'.glob.fill = s.glob.fill →
      s'.env.encOut = s.env.encOut → ∀ t, exec i s = .next t →
      ∃ t' rs, exec i s' = .next t' ∧ t'.enc = t.enc ∧ t'.env.encOut = t.env.encOut
        ∧ t.env.rsps = s.env.rsps ++ rs ∧ t'.env.rsps = s'.env.rsps ++ rs)
  ∧ (∀ (i : Instr) (s s' : State), i.isDec = true → s'.dec = s.dec →
      s'.env.decOut = s.env.decOut → ∀ t, exec i s = .next t →
      ∃ t' rs, exec i s' = .next t' ∧ t'.dec = t.dec ∧ t'.env.decOut = t.env.decOut
        ∧ t.env.rsps = s.env.rsps ++ rs ∧ t'.env.rsps = s'.env.rsps ++ rs)

/-- R204, R213: while a unit is in FAIL no command but its INIT and SRST changes its state, its cause or
its error information, so they describe the first fatal error. -/
def Obligations.FirstFatalErrorStands : Prop :=
  ∀ (i : Instr) (s t : State), exec i s = .next t → i ≠ .srst →
    (s.enc.state = .fail → i ≠ .encInit → t.enc.state = .fail ∧ t.enc.cause = s.enc.cause
        ∧ t.enc.errSym = s.enc.errSym ∧ t.enc.errSrc = s.enc.errSrc)
      ∧ (s.dec.state = .fail → i ≠ .decInit → t.dec.state = .fail ∧ t.dec.cause = s.dec.cause
        ∧ t.dec.errNode = s.dec.errNode ∧ t.dec.errBit = s.dec.errBit ∧ t.dec.errSrc = s.dec.errSrc)

/-- R206: a command whose response is ILLEGAL, SEQ or OVERFLOW has set GSTAT.REFUSED and changed nothing
else, and its DATA is 0; GSTAT.REFUSED stays 1 until SRST or reset. -/
def Obligations.RefusalChangesNothingElse : Prop :=
  (∀ (s t : State) (w : Word) (rest : List PortEvent) (c : Code) (d : Word),
    s.env.port = .cmd w :: rest → s.env.stalled = false → step s = .next t →
    t.env.rsps = s.env.rsps ++ [⟨c, d⟩] → (c = .illegal ∨ c = .seq ∨ c = .overflow) →
    d = 0 ∧ RefusedWith (s.withPort rest) t c)
  ∧ (∀ s t, step s = .next t → s.glob.refused = true → t.glob.refused = true
      ∨ t.glob = State.reset.glob ∧ t.enc = State.reset.enc ∧ t.dec = State.reset.dec)

/-- R200: how each command can end once its word has decoded: fatal errors only from ENC.PUT, ENC.END and
DEC.PUT; NOP, SRST, RDREG, WRREG 1, ENC.INIT and DEC.INIT never refused; the others refused with SEQ
only, CT.PUSH also with OVERFLOW. R93, R201: the numbers of the codes, and that the response code of a
fatal error is the value written to CAUSE. -/
def Obligations.HowEachCommandEnds : Prop :=
  (∀ (i : Instr) (s t : State) (c : Code) (d : Word), i.WellFormed → exec i s = .next t →
    t.env.rsps = s.env.rsps ++ [⟨c, d⟩] → c ∈ mayAnswer i)
  ∧ Code.ok.number.toNat = 0 ∧ Code.unencodable.number.toNat = 1 ∧ Code.malformed.number.toNat = 2
  ∧ Code.ioerr.number.toNat = 3 ∧ Code.illegal.number.toNat = 4 ∧ Code.seq.number.toNat = 5
  ∧ Code.overflow.number.toNat = 6
  ∧ ∀ c : Cause, c.code.number = c.number

/-- R210: the order of the checks. A word that is illegal is refused with ILLEGAL in every state; the
state check comes before UNENCODABLE, and the state and open-entry check before OVERFLOW. -/
def Obligations.OrderOfChecks : Prop :=
  (∀ (s : State) (w : Word) (rest : List PortEvent) (why : Illegal),
    s.env.port = .cmd w :: rest → s.env.stalled = false → decode w = .illegal why →
    ∃ t, step s = .next t ∧ RefusedWith (s.withPort rest) t .illegal)
  ∧ (∀ (s : State) (sym : Byte), s.enc.len sym = 0 → (s.enc.state = .done ∨ s.enc.state = .fail) →
      ∃ t, exec (.encPut sym) s = .next t ∧ RefusedWith s t .seq)
  ∧ (∀ (s : State) (b : Bool), s.enc.len s.enc.selSym = 255 →
      (s.enc.state ≠ .idle ∨ s.enc.selV = false) →
      ∃ t, exec (.ctPush b) s = .next t ∧ RefusedWith s t .seq)

/-- R214: `irq` is high exactly while a unit whose enable is set is in FAIL; RDREG 2 reads it in bit 1;
it is cleared by x.INIT of the failed unit, by SRST and by clearing the enables. -/
def Obligations.IrqLevel : Prop :=
  ∀ s : State,
    (s.irq = true ↔ (s.glob.eie = true ∧ s.enc.state = .fail) ∨ (s.glob.die = true ∧ s.dec.state = .fail))
    ∧ (s.regValue .gstat).getLsbD 1 = s.irq
    ∧ (∀ t, exec .encInit s = .next t → (t.irq = true ↔ s.glob.die = true ∧ s.dec.state = .fail))
    ∧ (∀ t, exec .decInit s = .next t → (t.irq = true ↔ s.glob.eie = true ∧ s.enc.state = .fail))
    ∧ (∀ t, exec .srst s = .next t → t.irq = false)
    ∧ (∀ t, exec (.wrreg 1#5 0#16) s = .next t → t.irq = false)

/-- R62: a command that is neither a stream command, an ABORT nor CT.PUSH, issued twice in a row, leaves
the block as the first issue left it. -/
def Obligations.RepeatedCommandChangesNothing : Prop :=
  ∀ (i : Instr) (s t : State), i.isIdempotent = true → exec i s = .next t →
    ∃ u, exec i t = .next u ∧ u.glob = t.glob ∧ u.enc = t.enc ∧ u.dec = t.dec

/-- R68: a sink that never answers leaves the block inside the command (ENC.PUT, ENC.END or DEC.PUT): no
response is given, and the bytes accepted before stay; the block then accepts no command, and `rst` brings
it back. ENC.END has by then recorded LASTN and emptied ACC, as its pseudocode orders (R127). The stalled
next state is the model's form of the rule (log 6). -/
def Obligations.SilentSinkStallsBlock : Prop :=
  (∀ (s : State) (sym : Byte) (j : Nat), (s.enc.state = .idle ∨ s.enc.state = .run) →
    s.enc.code sym ≠ [] → j < (s.enc.held ++ s.enc.code sym).length / 8 →
    s.env.encOut.acceptsNext j → s.env.encOut.answerAt j = none →
    ∃ t, exec (.encPut sym) s = .next t ∧ t.env.stalled = true ∧ t.env.rsps = s.env.rsps
      ∧ t.env.encOut.out
          = s.env.encOut.out ++ (pack (s.enc.held ++ s.enc.code sym) false).take j)
  ∧ (∀ s : State, (s.enc.state = .idle ∨ s.enc.state = .run) → s.enc.accN ≠ 0 →
    s.env.encOut.answerAt 0 = none →
    ∃ t, exec .encEnd s = .next t ∧ t.env = { s.env with stalled := true }
      ∧ t.enc = { s.enc with lastN := s.enc.accN, acc := 0, accN := 0 }
      ∧ t.glob = s.glob ∧ t.dec = s.dec)
  ∧ (∀ (s : State) (byte : Byte) (n : BitVec 4) (pre post : List Bool) (b : Bool) (xs : List Byte)
      (cur child : Idx) (sym : Byte),
    n.toNat ≤ 8 → (s.dec.state = .idle ∨ s.dec.state = .run) → s.dec.present = true →
    (byteBits byte).take n.toNat = pre ++ b :: post →
    s.dec.spells pre s.dec.walkStart = some (xs, cur) → s.dec.follow [b] cur = some child →
    s.dec.node child = some (.leaf sym) →
    s.env.decOut.acceptsNext xs.length → s.env.decOut.answerAt xs.length = none →
    ∃ t, exec (.decPut byte n) s = .next t ∧ t.env.stalled = true ∧ t.env.rsps = s.env.rsps
      ∧ t.env.decOut.out = s.env.decOut.out ++ xs)
  ∧ (∀ s : State, s.env.stalled = true →
      (∀ w rest, s.env.port = .cmd w :: rest → step s = .next s)
      ∧ ∀ rest, s.env.port = .rst :: rest → ∃ t, step s = .next t ∧ t.env.stalled = false)

/-- R246: when every entry the walk can reach has been written and the cursor of a run under way stands
on the tree, no command faults, and both stay so through the run, whatever commands are executed. -/
def Obligations.WrittenTreeNeverFaults : Prop :=
  ∀ (i : Instr) (s : State), s.dec.treeWritten → s.dec.cursorOnTree →
    (∀ r, exec i s ≠ .fault r)
      ∧ ∀ t, exec i s = .next t → t.dec.state = .run → t.dec.treeWritten ∧ t.dec.cursorOnTree

/-! ## The laws of the codec -/

/-- R181: what an encoder run produces. `B` is the concatenation of the codes, `L` its length. -/
def Obligations.EncoderRunOutput : Prop :=
  ∀ (s : State) (xs : List Byte), s.env.stalled = false → s.env.encOut.neverFails →
    (∀ x ∈ xs, s.enc.code x ≠ []) →
    (let B := s.enc.bitsOf xs
     let L := B.length
     (∃ t, Issued s (encRun xs) t ∧ AllOk s t (xs.length + 1)
        ∧ t.env.encOut.out = s.env.encOut.out ++ (pack B false).take (L / 8)
        ∧ t.enc.held = B.drop (8 * (L / 8)) ∧ t.enc.accClean ∧ t.enc.accN.toNat = L % 8
        ∧ t.enc.syms.toNat = xs.length % 2 ^ 32 ∧ t.enc.bits.toNat = L % 2 ^ 32
        ∧ t.enc.bytes.toNat = L / 8 % 2 ^ 32
        ∧ t.enc.state = (if xs = [] then .idle else .run))
     ∧ ∃ u, Issued s (encRun xs ++ [.encEnd]) u ∧ AllOk s u (xs.length + 2)
        ∧ u.env.encOut.out = s.env.encOut.out ++ pack B s.glob.fill
        ∧ u.enc.lastN.toNat = L % 8 ∧ u.enc.bits.toNat = L % 2 ^ 32
        ∧ u.enc.bytes.toNat = (L + 7) / 8 % 2 ^ 32 ∧ u.enc.state = .done)

/-- R182: round trip. When CT agrees with the tree on every symbol of `xs` and the sinks never fail, the
encoder run followed by the decoder run on its bytes, the last with LASTN valid bits when LASTN is not
0, gives back exactly `xs`, for both values of the filler. -/
def Obligations.RoundTrip : Prop :=
  ∀ (s : State) (xs : List Byte), s.env.stalled = false → s.env.encOut.neverFails →
    s.env.decOut.neverFails → (∀ x ∈ xs, Agrees s x) →
    ∃ t u P, Issued s (encRun xs ++ [.encEnd]) t
      ∧ t.env.encOut.out = s.env.encOut.out ++ P
      ∧ Issued t (decRun P t.enc.lastN) u
      ∧ u.env.decOut.out = s.env.decOut.out ++ xs
      ∧ AllOk s t (xs.length + 2) ∧ AllOk t u (P.length + 2)
      ∧ u.dec.state = .done ∧ u.dec.trunc = false
      ∧ u.dec.syms.toNat = xs.length % 2 ^ 32
      ∧ u.dec.bits.toNat = (s.enc.bitsOf xs).length % 2 ^ 32

/-- R183: empty input. ENC.INIT, ENC.END writes nothing whatever CT holds; with the tree absent DEC.INIT,
any DEC.PUTs and DEC.END write nothing, count nothing and answer OK. -/
def Obligations.EmptyInput : Prop :=
  ∀ s : State, s.env.stalled = false →
    (∃ t, Issued s [.encInit, .encEnd] t ∧ AllOk s t 2 ∧ t.env.encOut.out = s.env.encOut.out
      ∧ t.enc.lastN = 0 ∧ t.enc.syms = 0 ∧ t.enc.bits = 0 ∧ t.enc.bytes = 0 ∧ t.enc.state = .done)
    ∧ (s.dec.present = false → ∀ ps : List (Byte × BitVec 4), (∀ p ∈ ps, p.2.toNat ≤ 8) →
        ∃ t, Issued s (.decInit :: (ps.map (fun p => Instr.decPut p.1 p.2) ++ [.decEnd])) t
          ∧ AllOk s t (ps.length + 2) ∧ t.env.decOut.out = s.env.decOut.out
          ∧ t.dec.bits = 0 ∧ t.dec.syms = 0 ∧ t.dec.state = .done ∧ t.dec.trunc = false)

/-- R184: one distinct symbol with the code "1". `m` copies give `m / 8` bytes 0xFF and, if `m mod 8` is
not 0, one byte whose top `m mod 8` bits are 1 and whose other bits are the filler. -/
def Obligations.SingleSymbolOutput : Prop :=
  ∀ (s : State) (a : Byte) (m : Nat), s.env.stalled = false → s.env.encOut.neverFails →
    s.enc.code a = [true] →
    ∃ t, Issued s (encRun (List.replicate m a) ++ [.encEnd]) t
      ∧ t.env.encOut.out = s.env.encOut.out ++ List.replicate (m / 8) 0xFF#8
          ++ (if m % 8 = 0 then []
              else [BitVec.ofNat 8 (256 - 2 ^ (8 - m % 8)
                + (if s.glob.fill = true then 2 ^ (8 - m % 8) - 1 else 0))])
      ∧ t.enc.lastN.toNat = m % 8 ∧ t.enc.bits.toNat = m % 2 ^ 32

/-- R180, R185: when CT agrees with the tree on two different symbols, neither code is a prefix of the
other. -/
def Obligations.AgreementIsPrefixFree : Prop :=
  ∀ (s : State) (x y : Byte), Agrees s x → Agrees s y → x ≠ y →
    ¬ s.enc.code x <+: s.enc.code y

/-- R186: every byte of the compressed stream put with n = 8. With `k` filler bits of value `f`: (a) with
k = 0 the output is exactly `xs`; (b) when the all-`f` path from the root reaches a leaf after `d` bits,
`k / d` spurious copies of its symbol follow, and TRUNC tells whether bits are left over; (c) when the
all-`f` path meets an absent child at depth `j`, no spurious symbol appears: with more than `j` filler
bits the last DEC.PUT is MALFORMED at that node, with at most `j` (and at least one) TRUNC is 1. -/
def Obligations.WholeByteDecoding : Prop :=
  ∀ (s : State) (xs : List Byte), s.env.stalled = false → s.env.encOut.neverFails →
    s.env.decOut.neverFails → s.dec.present = true → (∀ x ∈ xs, Agrees s x) →
    ∃ t P, Issued s (encRun xs ++ [.encEnd]) t ∧ t.env.encOut.out = s.env.encOut.out ++ P
      ∧ (let f := s.glob.fill
         let k := (8 - t.enc.lastN.toNat) % 8
         let puts := Instr.decInit :: P.map fun p => Instr.decPut p 8
         (k = 0 → ∃ u, Issued t (puts ++ [.decEnd]) u ∧ AllOk t u (P.length + 2)
            ∧ u.env.decOut.out = s.env.decOut.out ++ xs ∧ u.dec.trunc = false)
         ∧ (∀ d j x, 1 ≤ d → s.dec.follow (List.replicate d f) s.dec.rootIdx = some j →
              s.dec.node j = some (.leaf x) →
              ∃ u, Issued t (puts ++ [.decEnd]) u ∧ AllOk t u (P.length + 2)
                ∧ u.env.decOut.out = s.env.decOut.out ++ xs ++ List.replicate (k / d) x
                ∧ u.dec.trunc = decide (k % d ≠ 0))
         ∧ (∀ j i left right, s.dec.follow (List.replicate j f) s.dec.rootIdx = some i →
              s.dec.node i = some (.int left right) → childOn f left right = 0x1FF#9 →
              (j < k → ∃ u, Issued t puts u ∧ u.env.decOut.out = s.env.decOut.out ++ xs
                ∧ u.dec.state = .fail ∧ u.dec.cause = .malformed ∧ u.dec.errNode = i
                ∧ u.dec.errBit = f
                ∧ u.env.rsps.getLast? = some ⟨.malformed, BitVec.ofNat 32 (i.toNat + 512 * f.toNat)⟩)
              ∧ (1 ≤ k → k ≤ j → ∃ u, Issued t (puts ++ [.decEnd]) u ∧ AllOk t u (P.length + 2)
                ∧ u.env.decOut.out = s.env.decOut.out ++ xs ∧ u.dec.trunc = true)))
end

