-- ==== Sys2Proof/Laws/State.lean ====
section
/-! SUPPORT. One lemma per field per update of the state, each true by `rfl`, so that no proof unfolds a
record update. -/

namespace Sys2Proof.Machine

variable (s : State) (e : Enc) (d : Dec) (g : Global) (k : Sink)

/-! ### `State.respond` -/

@[simp] theorem State.respond_glob (c : Code) (w : Word) : (s.respond c w).glob = s.glob := rfl
@[simp] theorem State.respond_enc (c : Code) (w : Word) : (s.respond c w).enc = s.enc := rfl
@[simp] theorem State.respond_dec (c : Code) (w : Word) : (s.respond c w).dec = s.dec := rfl
@[simp] theorem State.respond_port (c : Code) (w : Word) : (s.respond c w).env.port = s.env.port := rfl
@[simp] theorem State.respond_encOut (c : Code) (w : Word) :
    (s.respond c w).env.encOut = s.env.encOut := rfl
@[simp] theorem State.respond_decOut (c : Code) (w : Word) :
    (s.respond c w).env.decOut = s.env.decOut := rfl
@[simp] theorem State.respond_rsps (c : Code) (w : Word) :
    (s.respond c w).env.rsps = s.env.rsps ++ [⟨c, w⟩] := rfl
@[simp] theorem State.respond_stalled (c : Code) (w : Word) :
    (s.respond c w).env.stalled = s.env.stalled := rfl

/-! ### `State.refuse` -/

@[simp] theorem State.refuse_glob (c : Code) :
    (s.refuse c).glob = { s.glob with refused := true } := rfl
@[simp] theorem State.refuse_enc (c : Code) : (s.refuse c).enc = s.enc := rfl
@[simp] theorem State.refuse_dec (c : Code) : (s.refuse c).dec = s.dec := rfl
@[simp] theorem State.refuse_port (c : Code) : (s.refuse c).env.port = s.env.port := rfl
@[simp] theorem State.refuse_encOut (c : Code) : (s.refuse c).env.encOut = s.env.encOut := rfl
@[simp] theorem State.refuse_decOut (c : Code) : (s.refuse c).env.decOut = s.env.decOut := rfl
@[simp] theorem State.refuse_rsps (c : Code) : (s.refuse c).env.rsps = s.env.rsps ++ [⟨c, 0⟩] := rfl
@[simp] theorem State.refuse_stalled (c : Code) : (s.refuse c).env.stalled = s.env.stalled := rfl

/-! ### `State.raiseEnc` -/

@[simp] theorem State.raiseEnc_glob (c : Cause) (x : Byte) (b : Bool) :
    (s.raiseEnc c x b).glob = s.glob := rfl
@[simp] theorem State.raiseEnc_enc (c : Cause) (x : Byte) (b : Bool) :
    (s.raiseEnc c x b).enc = s.enc.enterFail c x b := rfl
@[simp] theorem State.raiseEnc_dec (c : Cause) (x : Byte) (b : Bool) :
    (s.raiseEnc c x b).dec = s.dec := rfl
@[simp] theorem State.raiseEnc_port (c : Cause) (x : Byte) (b : Bool) :
    (s.raiseEnc c x b).env.port = s.env.port := rfl
@[simp] theorem State.raiseEnc_encOut (c : Cause) (x : Byte) (b : Bool) :
    (s.raiseEnc c x b).env.encOut = s.env.encOut := rfl
@[simp] theorem State.raiseEnc_decOut (c : Cause) (x : Byte) (b : Bool) :
    (s.raiseEnc c x b).env.decOut = s.env.decOut := rfl
@[simp] theorem State.raiseEnc_rsps (c : Cause) (x : Byte) (b : Bool) :
    (s.raiseEnc c x b).env.rsps = s.env.rsps ++ [⟨c.code, encErrinfo x b⟩] := rfl
@[simp] theorem State.raiseEnc_stalled (c : Cause) (x : Byte) (b : Bool) :
    (s.raiseEnc c x b).env.stalled = s.env.stalled := rfl

/-! ### `State.raiseDec` -/

@[simp] theorem State.raiseDec_glob (c : Cause) (i : Idx) (b r : Bool) :
    (s.raiseDec c i b r).glob = s.glob := rfl
@[simp] theorem State.raiseDec_enc (c : Cause) (i : Idx) (b r : Bool) :
    (s.raiseDec c i b r).enc = s.enc := rfl
@[simp] theorem State.raiseDec_dec (c : Cause) (i : Idx) (b r : Bool) :
    (s.raiseDec c i b r).dec = s.dec.enterFail c i b r := rfl
@[simp] theorem State.raiseDec_port (c : Cause) (i : Idx) (b r : Bool) :
    (s.raiseDec c i b r).env.port = s.env.port := rfl
@[simp] theorem State.raiseDec_encOut (c : Cause) (i : Idx) (b r : Bool) :
    (s.raiseDec c i b r).env.encOut = s.env.encOut := rfl
@[simp] theorem State.raiseDec_decOut (c : Cause) (i : Idx) (b r : Bool) :
    (s.raiseDec c i b r).env.decOut = s.env.decOut := rfl
@[simp] theorem State.raiseDec_rsps (c : Cause) (i : Idx) (b r : Bool) :
    (s.raiseDec c i b r).env.rsps = s.env.rsps ++ [⟨c.code, decErrinfo i b r⟩] := rfl
@[simp] theorem State.raiseDec_stalled (c : Cause) (i : Idx) (b r : Bool) :
    (s.raiseDec c i b r).env.stalled = s.env.stalled := rfl

/-! ### `State.stall` -/

@[simp] theorem State.stall_glob : (s.stall).glob = s.glob := rfl
@[simp] theorem State.stall_enc : (s.stall).enc = s.enc := rfl
@[simp] theorem State.stall_dec : (s.stall).dec = s.dec := rfl
@[simp] theorem State.stall_port : (s.stall).env.port = s.env.port := rfl
@[simp] theorem State.stall_encOut : (s.stall).env.encOut = s.env.encOut := rfl
@[simp] theorem State.stall_decOut : (s.stall).env.decOut = s.env.decOut := rfl
@[simp] theorem State.stall_rsps : (s.stall).env.rsps = s.env.rsps := rfl
@[simp] theorem State.stall_stalled : (s.stall).env.stalled = true := rfl

/-! ### `State.resetBlock` -/

@[simp] theorem State.resetBlock_glob : (s.resetBlock).glob = Global.reset := rfl
@[simp] theorem State.resetBlock_enc : (s.resetBlock).enc = Enc.reset := rfl
@[simp] theorem State.resetBlock_dec : (s.resetBlock).dec = Dec.reset := rfl
@[simp] theorem State.resetBlock_port : (s.resetBlock).env.port = s.env.port := rfl
@[simp] theorem State.resetBlock_encOut : (s.resetBlock).env.encOut = s.env.encOut := rfl
@[simp] theorem State.resetBlock_decOut : (s.resetBlock).env.decOut = s.env.decOut := rfl
@[simp] theorem State.resetBlock_rsps : (s.resetBlock).env.rsps = s.env.rsps := rfl
@[simp] theorem State.resetBlock_stalled : (s.resetBlock).env.stalled = s.env.stalled := rfl

/-! ### `State.hardReset` -/

@[simp] theorem State.hardReset_glob : (s.hardReset).glob = Global.reset := rfl
@[simp] theorem State.hardReset_enc : (s.hardReset).enc = Enc.reset := rfl
@[simp] theorem State.hardReset_dec : (s.hardReset).dec = Dec.reset := rfl
@[simp] theorem State.hardReset_port : (s.hardReset).env.port = s.env.port := rfl
@[simp] theorem State.hardReset_encOut : (s.hardReset).env.encOut = s.env.encOut := rfl
@[simp] theorem State.hardReset_decOut : (s.hardReset).env.decOut = s.env.decOut := rfl
@[simp] theorem State.hardReset_rsps : (s.hardReset).env.rsps = s.env.rsps := rfl
@[simp] theorem State.hardReset_stalled : (s.hardReset).env.stalled = false := rfl

/-! ### `State.withPort` -/

@[simp] theorem State.withPort_glob (p : List PortEvent) : (s.withPort p).glob = s.glob := rfl
@[simp] theorem State.withPort_enc (p : List PortEvent) : (s.withPort p).enc = s.enc := rfl
@[simp] theorem State.withPort_dec (p : List PortEvent) : (s.withPort p).dec = s.dec := rfl
@[simp] theorem State.withPort_port (p : List PortEvent) : (s.withPort p).env.port = p := rfl
@[simp] theorem State.withPort_encOut (p : List PortEvent) :
    (s.withPort p).env.encOut = s.env.encOut := rfl
@[simp] theorem State.withPort_decOut (p : List PortEvent) :
    (s.withPort p).env.decOut = s.env.decOut := rfl
@[simp] theorem State.withPort_rsps (p : List PortEvent) : (s.withPort p).env.rsps = s.env.rsps := rfl
@[simp] theorem State.withPort_stalled (p : List PortEvent) :
    (s.withPort p).env.stalled = s.env.stalled := rfl

/-! ### `Enc.enterFail` -/

@[simp] theorem Enc.enterFail_state (c : Cause) (x : Byte) (b : Bool) :
    (e.enterFail c x b).state = .fail := rfl
@[simp] theorem Enc.enterFail_cause (c : Cause) (x : Byte) (b : Bool) :
    (e.enterFail c x b).cause = c := rfl
@[simp] theorem Enc.enterFail_errSym (c : Cause) (x : Byte) (b : Bool) :
    (e.enterFail c x b).errSym = x := rfl
@[simp] theorem Enc.enterFail_errSrc (c : Cause) (x : Byte) (b : Bool) :
    (e.enterFail c x b).errSrc = b := rfl
@[simp] theorem Enc.enterFail_acc (c : Cause) (x : Byte) (b : Bool) :
    (e.enterFail c x b).acc = e.acc := rfl
@[simp] theorem Enc.enterFail_accN (c : Cause) (x : Byte) (b : Bool) :
    (e.enterFail c x b).accN = e.accN := rfl
@[simp] theorem Enc.enterFail_lastN (c : Cause) (x : Byte) (b : Bool) :
    (e.enterFail c x b).lastN = e.lastN := rfl
@[simp] theorem Enc.enterFail_selSym (c : Cause) (x : Byte) (b : Bool) :
    (e.enterFail c x b).selSym = e.selSym := rfl
@[simp] theorem Enc.enterFail_selV (c : Cause) (x : Byte) (b : Bool) :
    (e.enterFail c x b).selV = e.selV := rfl
@[simp] theorem Enc.enterFail_syms (c : Cause) (x : Byte) (b : Bool) :
    (e.enterFail c x b).syms = e.syms := rfl
@[simp] theorem Enc.enterFail_bits (c : Cause) (x : Byte) (b : Bool) :
    (e.enterFail c x b).bits = e.bits := rfl
@[simp] theorem Enc.enterFail_bytes (c : Cause) (x : Byte) (b : Bool) :
    (e.enterFail c x b).bytes = e.bytes := rfl
@[simp] theorem Enc.enterFail_ct (c : Cause) (x : Byte) (b : Bool) :
    (e.enterFail c x b).ct = e.ct := rfl

/-! ### `Enc.restart` -/

@[simp] theorem Enc.restart_state : (e.restart).state = .idle := rfl
@[simp] theorem Enc.restart_cause : (e.restart).cause = .none := rfl
@[simp] theorem Enc.restart_errSym : (e.restart).errSym = 0 := rfl
@[simp] theorem Enc.restart_errSrc : (e.restart).errSrc = false := rfl
@[simp] theorem Enc.restart_acc : (e.restart).acc = 0 := rfl
@[simp] theorem Enc.restart_accN : (e.restart).accN = 0 := rfl
@[simp] theorem Enc.restart_lastN : (e.restart).lastN = 0 := rfl
@[simp] theorem Enc.restart_selSym : (e.restart).selSym = e.selSym := rfl
@[simp] theorem Enc.restart_selV : (e.restart).selV = false := rfl
@[simp] theorem Enc.restart_syms : (e.restart).syms = 0 := rfl
@[simp] theorem Enc.restart_bits : (e.restart).bits = 0 := rfl
@[simp] theorem Enc.restart_bytes : (e.restart).bytes = 0 := rfl
@[simp] theorem Enc.restart_ct : (e.restart).ct = e.ct := rfl

/-! ### `Enc.setCode` -/

@[simp] theorem Enc.setCode_state (x : Byte) (c : List Bool) : (e.setCode x c).state = e.state := rfl
@[simp] theorem Enc.setCode_cause (x : Byte) (c : List Bool) : (e.setCode x c).cause = e.cause := rfl
@[simp] theorem Enc.setCode_errSym (x : Byte) (c : List Bool) : (e.setCode x c).errSym = e.errSym := rfl
@[simp] theorem Enc.setCode_errSrc (x : Byte) (c : List Bool) : (e.setCode x c).errSrc = e.errSrc := rfl
@[simp] theorem Enc.setCode_acc (x : Byte) (c : List Bool) : (e.setCode x c).acc = e.acc := rfl
@[simp] theorem Enc.setCode_accN (x : Byte) (c : List Bool) : (e.setCode x c).accN = e.accN := rfl
@[simp] theorem Enc.setCode_lastN (x : Byte) (c : List Bool) : (e.setCode x c).lastN = e.lastN := rfl
@[simp] theorem Enc.setCode_selSym (x : Byte) (c : List Bool) : (e.setCode x c).selSym = e.selSym := rfl
@[simp] theorem Enc.setCode_selV (x : Byte) (c : List Bool) : (e.setCode x c).selV = e.selV := rfl
@[simp] theorem Enc.setCode_syms (x : Byte) (c : List Bool) : (e.setCode x c).syms = e.syms := rfl
@[simp] theorem Enc.setCode_bits (x : Byte) (c : List Bool) : (e.setCode x c).bits = e.bits := rfl
@[simp] theorem Enc.setCode_bytes (x : Byte) (c : List Bool) : (e.setCode x c).bytes = e.bytes := rfl

/-! ### `Dec.enterFail` -/

@[simp] theorem Dec.enterFail_state (c : Cause) (i : Idx) (b r : Bool) :
    (d.enterFail c i b r).state = .fail := rfl
@[simp] theorem Dec.enterFail_cause (c : Cause) (i : Idx) (b r : Bool) :
    (d.enterFail c i b r).cause = c := rfl
@[simp] theorem Dec.enterFail_trunc (c : Cause) (i : Idx) (b r : Bool) :
    (d.enterFail c i b r).trunc = d.trunc := rfl
@[simp] theorem Dec.enterFail_errNode (c : Cause) (i : Idx) (b r : Bool) :
    (d.enterFail c i b r).errNode = i := rfl
@[simp] theorem Dec.enterFail_errBit (c : Cause) (i : Idx) (b r : Bool) :
    (d.enterFail c i b r).errBit = b := rfl
@[simp] theorem Dec.enterFail_errSrc (c : Cause) (i : Idx) (b r : Bool) :
    (d.enterFail c i b r).errSrc = r := rfl
@[simp] theorem Dec.enterFail_cur (c : Cause) (i : Idx) (b r : Bool) :
    (d.enterFail c i b r).cur = d.cur := rfl
@[simp] theorem Dec.enterFail_rootIdx (c : Cause) (i : Idx) (b r : Bool) :
    (d.enterFail c i b r).rootIdx = d.rootIdx := rfl
@[simp] theorem Dec.enterFail_present (c : Cause) (i : Idx) (b r : Bool) :
    (d.enterFail c i b r).present = d.present := rfl
@[simp] theorem Dec.enterFail_bits (c : Cause) (i : Idx) (b r : Bool) :
    (d.enterFail c i b r).bits = d.bits := rfl
@[simp] theorem Dec.enterFail_syms (c : Cause) (i : Idx) (b r : Bool) :
    (d.enterFail c i b r).syms = d.syms := rfl
@[simp] theorem Dec.enterFail_tm (c : Cause) (i : Idx) (b r : Bool) :
    (d.enterFail c i b r).tm = d.tm := rfl

/-! ### `Dec.restart` -/

@[simp] theorem Dec.restart_state : (d.restart).state = .idle := rfl
@[simp] theorem Dec.restart_cause : (d.restart).cause = .none := rfl
@[simp] theorem Dec.restart_trunc : (d.restart).trunc = false := rfl
@[simp] theorem Dec.restart_errNode : (d.restart).errNode = 0 := rfl
@[simp] theorem Dec.restart_errBit : (d.restart).errBit = false := rfl
@[simp] theorem Dec.restart_errSrc : (d.restart).errSrc = false := rfl
@[simp] theorem Dec.restart_cur : (d.restart).cur = 0 := rfl
@[simp] theorem Dec.restart_rootIdx : (d.restart).rootIdx = d.rootIdx := rfl
@[simp] theorem Dec.restart_present : (d.restart).present = d.present := rfl
@[simp] theorem Dec.restart_bits : (d.restart).bits = 0 := rfl
@[simp] theorem Dec.restart_syms : (d.restart).syms = 0 := rfl
@[simp] theorem Dec.restart_tm : (d.restart).tm = d.tm := rfl

/-! ### `Dec.setNode` -/

@[simp] theorem Dec.setNode_state (i : Idx) (n : Node) : (d.setNode i n).state = d.state := rfl
@[simp] theorem Dec.setNode_cause (i : Idx) (n : Node) : (d.setNode i n).cause = d.cause := rfl
@[simp] theorem Dec.setNode_trunc (i : Idx) (n : Node) : (d.setNode i n).trunc = d.trunc := rfl
@[simp] theorem Dec.setNode_errNode (i : Idx) (n : Node) : (d.setNode i n).errNode = d.errNode := rfl
@[simp] theorem Dec.setNode_errBit (i : Idx) (n : Node) : (d.setNode i n).errBit = d.errBit := rfl
@[simp] theorem Dec.setNode_errSrc (i : Idx) (n : Node) : (d.setNode i n).errSrc = d.errSrc := rfl
@[simp] theorem Dec.setNode_cur (i : Idx) (n : Node) : (d.setNode i n).cur = d.cur := rfl
@[simp] theorem Dec.setNode_rootIdx (i : Idx) (n : Node) : (d.setNode i n).rootIdx = d.rootIdx := rfl
@[simp] theorem Dec.setNode_present (i : Idx) (n : Node) : (d.setNode i n).present = d.present := rfl
@[simp] theorem Dec.setNode_bits (i : Idx) (n : Node) : (d.setNode i n).bits = d.bits := rfl
@[simp] theorem Dec.setNode_syms (i : Idx) (n : Node) : (d.setNode i n).syms = d.syms := rfl
@[simp] theorem Dec.setNode_tm (i : Idx) (n : Node) :
    (d.setNode i n).tm = cellWrite i.toNat n d.tm := rfl

/-! ### `Dec.writeTroot` -/

@[simp] theorem Dec.writeTroot_state (v : BitVec 16) : (d.writeTroot v).state = d.state := rfl
@[simp] theorem Dec.writeTroot_cause (v : BitVec 16) : (d.writeTroot v).cause = d.cause := rfl
@[simp] theorem Dec.writeTroot_trunc (v : BitVec 16) : (d.writeTroot v).trunc = d.trunc := rfl
@[simp] theorem Dec.writeTroot_errNode (v : BitVec 16) : (d.writeTroot v).errNode = d.errNode := rfl
@[simp] theorem Dec.writeTroot_errBit (v : BitVec 16) : (d.writeTroot v).errBit = d.errBit := rfl
@[simp] theorem Dec.writeTroot_errSrc (v : BitVec 16) : (d.writeTroot v).errSrc = d.errSrc := rfl
@[simp] theorem Dec.writeTroot_cur (v : BitVec 16) : (d.writeTroot v).cur = d.cur := rfl
@[simp] theorem Dec.writeTroot_rootIdx (v : BitVec 16) :
    (d.writeTroot v).rootIdx = v.extractLsb' 0 9 := rfl
@[simp] theorem Dec.writeTroot_present (v : BitVec 16) : (d.writeTroot v).present = v.getLsbD 9 := rfl
@[simp] theorem Dec.writeTroot_bits (v : BitVec 16) : (d.writeTroot v).bits = d.bits := rfl
@[simp] theorem Dec.writeTroot_syms (v : BitVec 16) : (d.writeTroot v).syms = d.syms := rfl
@[simp] theorem Dec.writeTroot_tm (v : BitVec 16) : (d.writeTroot v).tm = d.tm := rfl

/-! ### `Global.writeCtrl` -/

@[simp] theorem Global.writeCtrl_fill (v : BitVec 16) : (g.writeCtrl v).fill = v.getLsbD 0 := rfl
@[simp] theorem Global.writeCtrl_eie (v : BitVec 16) : (g.writeCtrl v).eie = v.getLsbD 1 := rfl
@[simp] theorem Global.writeCtrl_die (v : BitVec 16) : (g.writeCtrl v).die = v.getLsbD 2 := rfl
@[simp] theorem Global.writeCtrl_refused (v : BitVec 16) : (g.writeCtrl v).refused = g.refused := rfl

/-! ### `Sink.accepted` -/

@[simp] theorem Sink.accepted_out (b : Byte) : (k.accepted b).out = k.out ++ [b] := rfl
@[simp] theorem Sink.accepted_script (b : Byte) : (k.accepted b).script = k.script.tail := rfl
@[simp] theorem Sink.accepted_rest (b : Byte) : (k.accepted b).rest = k.rest := rfl

/-! ### `Sink.declined` -/

@[simp] theorem Sink.declined_out : (k.declined).out = k.out := rfl
@[simp] theorem Sink.declined_script : (k.declined).script = k.script.tail := rfl
@[simp] theorem Sink.declined_rest : (k.declined).rest = k.rest := rfl

end Sys2Proof.Machine
end

