-- ==== Sys2Proof/Laws/Memory.lean ====
section
/-! SUPPORT. The table memories: what a read returns after a write, and that every operation keeps the
canonical form. -/

namespace Sys2Proof.Machine

variable {α : Type}

/-! ## Reading after writing -/

@[simp] theorem cellRead_nil (k : Nat) : cellRead k ([] : List (Nat × α)) = none := rfl

@[simp] theorem cellRead_write_same (k : Nat) (v : α) (m : List (Nat × α)) :
    cellRead k (cellWrite k v m) = some v := by
  induction m with
  | nil => simp [cellWrite, cellRead]
  | cons c m ih =>
    obtain ⟨a, x⟩ := c
    simp only [cellWrite]
    split
    · simp [cellRead]
    · split
      · simp [cellRead]
      · simp [cellRead, *]

theorem cellRead_write_other {k j : Nat} (h : j ≠ k) (v : α) (m : List (Nat × α)) :
    cellRead j (cellWrite k v m) = cellRead j m := by
  induction m with
  | nil => simp [cellWrite, cellRead, h]
  | cons c m ih =>
    obtain ⟨a, x⟩ := c
    simp only [cellWrite]
    split
    · simp [cellRead, h]
    · split
      · next hk => subst hk; simp [cellRead, h]
      · simp [cellRead, ih]

@[simp] theorem cellRead_erase_same (k : Nat) (m : List (Nat × α)) :
    cellRead k (cellErase k m) = none := by
  induction m with
  | nil => rfl
  | cons c m ih =>
    obtain ⟨a, x⟩ := c
    simp only [cellErase]
    split
    · exact ih
    · simp [cellRead, *]

theorem cellRead_erase_other {k j : Nat} (h : j ≠ k) (m : List (Nat × α)) :
    cellRead j (cellErase k m) = cellRead j m := by
  induction m with
  | nil => rfl
  | cons c m ih =>
    obtain ⟨a, x⟩ := c
    simp only [cellErase]
    split
    · next hk => subst hk; simp [cellRead, h, ih]
    · simp [cellRead, ih]

/-! ## Doing it twice -/

theorem cellWrite_twice (k : Nat) (v : α) (m : List (Nat × α)) :
    cellWrite k v (cellWrite k v m) = cellWrite k v m := by
  induction m with
  | nil => simp [cellWrite]
  | cons c m ih =>
    obtain ⟨a, x⟩ := c
    simp only [cellWrite]
    split
    · simp [cellWrite]
    · split
      · simp [cellWrite]
      · simp [cellWrite, *]

theorem cellErase_twice (k : Nat) (m : List (Nat × α)) :
    cellErase k (cellErase k m) = cellErase k m := by
  induction m with
  | nil => rfl
  | cons c m ih =>
    obtain ⟨a, x⟩ := c
    simp only [cellErase]
    split
    · exact ih
    · simp [cellErase, *]

/-! ## The canonical form -/

/-- Every key of the list is above `k`. -/
abbrev keysAbove (k : Nat) (m : List (Nat × α)) : Prop := ∀ c ∈ m, k < c.1

theorem cellsSorted_cons {a : Nat} {x : α} {m : List (Nat × α)} :
    cellsSorted ((a, x) :: m) = true ↔ keysAbove a m ∧ cellsSorted m = true := by
  induction m generalizing a x with
  | nil => simp [cellsSorted]
  | cons c m ih =>
    obtain ⟨b, y⟩ := c
    have step : cellsSorted ((a, x) :: (b, y) :: m) = true
        ↔ a < b ∧ cellsSorted ((b, y) :: m) = true := by simp [cellsSorted]
    rw [step, ih]
    constructor
    · rintro ⟨hab, hb, hm⟩
      refine ⟨fun c hc => ?_, hb, hm⟩
      rcases List.mem_cons.1 hc with rfl | hc
      · exact hab
      · exact Nat.lt_trans hab (hb c hc)
    · rintro ⟨ha, hb, hm⟩
      exact ⟨ha (b, y) (by simp), hb, hm⟩

theorem mem_cellWrite {k : Nat} {v : α} {m : List (Nat × α)} {c : Nat × α} (h : c ∈ cellWrite k v m) :
    c = (k, v) ∨ c ∈ m := by
  induction m with
  | nil => simpa [cellWrite] using h
  | cons d m ih =>
    obtain ⟨a, x⟩ := d
    simp only [cellWrite] at h
    split at h
    · simpa using h
    · split at h
      · rcases List.mem_cons.1 h with h | h
        · exact .inl h
        · exact .inr (by simp [h])
      · rcases List.mem_cons.1 h with h | h
        · exact .inr (by simp [h])
        · rcases ih h with h | h
          · exact .inl h
          · exact .inr (by simp [h])

theorem mem_cellErase {k : Nat} {m : List (Nat × α)} {c : Nat × α} (h : c ∈ cellErase k m) : c ∈ m := by
  induction m with
  | nil => simp [cellErase] at h
  | cons d m ih =>
    obtain ⟨a, x⟩ := d
    simp only [cellErase] at h
    split at h
    · simp [ih h]
    · rcases List.mem_cons.1 h with h | h
      · simp [h]
      · simp [ih h]

theorem cellWrite_sorted {k : Nat} {v : α} {m : List (Nat × α)} (h : cellsSorted m = true) :
    cellsSorted (cellWrite k v m) = true := by
  induction m with
  | nil => rfl
  | cons d m ih =>
    obtain ⟨a, x⟩ := d
    obtain ⟨ha, hm⟩ := cellsSorted_cons.1 h
    simp only [cellWrite]
    split
    · next hka =>
      refine cellsSorted_cons.2 ⟨fun c hc => ?_, h⟩
      rcases List.mem_cons.1 hc with rfl | hc
      · exact hka
      · exact Nat.lt_trans hka (ha c hc)
    · split
      · next hk => subst hk; exact cellsSorted_cons.2 ⟨ha, hm⟩
      · refine cellsSorted_cons.2 ⟨fun c hc => ?_, ih hm⟩
        rcases mem_cellWrite hc with rfl | hc
        · show a < k
          omega
        · exact ha c hc

theorem cellErase_sorted {k : Nat} {m : List (Nat × α)} (h : cellsSorted m = true) :
    cellsSorted (cellErase k m) = true := by
  induction m with
  | nil => rfl
  | cons d m ih =>
    obtain ⟨a, x⟩ := d
    obtain ⟨ha, hm⟩ := cellsSorted_cons.1 h
    simp only [cellErase]
    split
    · exact ih hm
    · exact cellsSorted_cons.2 ⟨fun c hc => ha c (mem_cellErase hc), ih hm⟩

/-! ## The two memories -/

@[simp] theorem Enc.code_setCode_same (e : Enc) (x : Byte) (c : List Bool) :
    (e.setCode x c).code x = c := by
  by_cases h : c = [] <;> simp [Enc.setCode, Enc.code, h]

theorem Enc.code_setCode_other (e : Enc) {x y : Byte} (h : y ≠ x) (c : List Bool) :
    (e.setCode x c).code y = e.code y := by
  have hxy : y.toNat ≠ x.toNat := fun hn => h (BitVec.eq_of_toNat_eq hn)
  by_cases hc : c = [] <;>
    simp [Enc.setCode, Enc.code, hc, cellRead_erase_other hxy, cellRead_write_other hxy]

@[simp] theorem Dec.node_setNode_same (d : Dec) (i : Idx) (n : Node) :
    (d.setNode i n).node i = some n := by simp [Dec.node]

theorem Dec.node_setNode_other (d : Dec) {i j : Idx} (h : j ≠ i) (n : Node) :
    (d.setNode i n).node j = d.node j := by
  have hij : j.toNat ≠ i.toNat := fun hn => h (BitVec.eq_of_toNat_eq hn)
  simp [Dec.node, cellRead_write_other hij]

/-- The canonical form as a conjunction of propositions. -/
theorem Memory.wf_iff (s : State) : Memory.wf s = true ↔
    cellsSorted s.enc.ct = true
      ∧ (∀ c ∈ s.enc.ct, c.1 < 256 ∧ c.2 ≠ [] ∧ c.2.length ≤ 255)
      ∧ cellsSorted s.dec.tm = true ∧ ∀ c ∈ s.dec.tm, c.1 < 511 := by
  simp [Memory.wf, and_assoc]

theorem mem_of_cellRead {α : Type} {k : Nat} {m : List (Nat × α)} {x : α} (h : cellRead k m = some x) :
    (k, x) ∈ m := by
  induction m with
  | nil => cases h
  | cons c m ih =>
    obtain ⟨a, y⟩ := c
    simp only [cellRead] at h
    split at h
    · next hk => cases h; rw [hk]; exact List.mem_cons_self
    · exact List.mem_cons_of_mem _ (ih h)

/-- In canonical form no code is longer than CODE_MAX. -/
theorem Memory.len_le {s : State} (h : Memory.wf s = true) (x : Byte) : s.enc.len x ≤ 255 := by
  unfold Enc.len Enc.code
  cases hr : cellRead x.toNat s.enc.ct with
  | none => simp
  | some c => exact (((Memory.wf_iff s).1 h).2.1 _ (mem_of_cellRead hr)).2.2

/-- The canonical form depends on the two tables only. -/
theorem Memory.wf_congr {s t : State} (hc : t.enc.ct = s.enc.ct) (hm : t.dec.tm = s.dec.tm) :
    Memory.wf t = Memory.wf s := by simp [Memory.wf, hc, hm]

theorem Memory.wf_reset : Memory.wf State.reset = true := by decide

/-- Giving a symbol a code of at most CODE_MAX bits keeps the canonical form. -/
theorem Memory.wf_setCode {s t : State} (h : Memory.wf s = true) (x : Byte) (c : List Bool)
    (hc : c.length ≤ 255) (ht : t.enc.ct = (s.enc.setCode x c).ct) (hm : t.dec.tm = s.dec.tm) :
    Memory.wf t = true := by
  obtain ⟨h1, h2, h3, h4⟩ := (Memory.wf_iff s).1 h
  refine (Memory.wf_iff t).2 ⟨?_, ?_, by rwa [hm], by rwa [hm]⟩
  · rw [ht]
    by_cases hn : c = [] <;> simp [Enc.setCode, hn, cellErase_sorted, cellWrite_sorted, h1]
  · intro p hp
    rw [ht] at hp
    by_cases hn : c = []
    · simp only [Enc.setCode, hn, if_true] at hp
      exact h2 p (mem_cellErase hp)
    · simp only [Enc.setCode, hn, if_false] at hp
      rcases mem_cellWrite hp with rfl | hp
      · exact ⟨x.isLt, hn, hc⟩
      · exact h2 p hp

/-- Emptying the code table keeps the canonical form. -/
theorem Memory.wf_clear {s t : State} (h : Memory.wf s = true) (ht : t.enc.ct = [])
    (hm : t.dec.tm = s.dec.tm) : Memory.wf t = true := by
  obtain ⟨-, -, h3, h4⟩ := (Memory.wf_iff s).1 h
  exact (Memory.wf_iff t).2 ⟨by simp [ht, cellsSorted], by simp [ht], by rwa [hm], by rwa [hm]⟩

/-- Writing a tree node at an index other than NIL keeps the canonical form. -/
theorem Memory.wf_setNode {s t : State} (h : Memory.wf s = true) (i : Idx) (n : Node)
    (hi : i ≠ Config.nil) (ht : t.dec.tm = (s.dec.setNode i n).tm) (hc : t.enc.ct = s.enc.ct) :
    Memory.wf t = true := by
  obtain ⟨h1, h2, h3, h4⟩ := (Memory.wf_iff s).1 h
  refine (Memory.wf_iff t).2 ⟨by rwa [hc], by rwa [hc], ?_, ?_⟩
  · rw [ht]; exact cellWrite_sorted h3
  · intro p hp
    rw [ht] at hp
    rcases mem_cellWrite hp with rfl | hp
    · have h1 : i.toNat < 2 ^ 9 := i.isLt
      have h2 : i.toNat ≠ 511 := fun hn => hi (BitVec.eq_of_toNat_eq (by simpa using hn))
      show i.toNat < 511
      omega
    · exact h4 p hp

end Sys2Proof.Machine
end

