-- ==== Sys2Proof/Laws/Ops.lean ====
section
/-! SUPPORT. What each shared operation can do, said once: the answers of a sink, a byte offered to it, one
bit of the packer, one bit of the walk, the loop over bits. -/

namespace Sys2Proof.Machine

/-! ## Sinks -/

theorem Sink.answerAt_zero (k : Sink) : k.answerAt 0 = k.answer := by
  unfold Sink.answerAt Sink.answer
  cases k.script <;> rfl

theorem Sink.answerAt_accepted (k : Sink) (b : Byte) (j : Nat) :
    (k.accepted b).answerAt j = k.answerAt (j + 1) := by
  unfold Sink.answerAt Sink.accepted
  simp

theorem Sink.acceptsNext_zero (k : Sink) : k.acceptsNext 0 := fun j hj => absurd hj (Nat.not_lt_zero j)

theorem Sink.acceptsNext_succ (k : Sink) (b : Byte) (n : Nat) :
    k.acceptsNext (n + 1) ↔ k.answer = some .ok ∧ (k.accepted b).acceptsNext n := by
  constructor
  · intro h
    refine ⟨?_, fun j hj => ?_⟩
    · rw [← k.answerAt_zero]; exact h 0 (Nat.succ_pos n)
    · rw [k.answerAt_accepted]; exact h (j + 1) (Nat.succ_lt_succ hj)
  · rintro ⟨h0, h⟩ j hj
    cases j with
    | zero => rw [k.answerAt_zero]; exact h0
    | succ j => rw [← k.answerAt_accepted b]; exact h j (Nat.lt_of_succ_lt_succ hj)

@[simp] theorem Sink.acceptedAll_nil (k : Sink) : k.acceptedAll [] = k := by
  simp [Sink.acceptedAll]

theorem Sink.acceptedAll_cons (k : Sink) (b : Byte) (bs : List Byte) :
    (k.accepted b).acceptedAll bs = k.acceptedAll (b :: bs) := by
  simp [Sink.acceptedAll, Sink.accepted]

theorem Sink.acceptedAll_append (k : Sink) (as bs : List Byte) :
    (k.acceptedAll as).acceptedAll bs = k.acceptedAll (as ++ bs) := by
  simp [Sink.acceptedAll]

/-- The answer to the byte after those accepted. -/
theorem Sink.answer_acceptedAll (k : Sink) (bs : List Byte) :
    (k.acceptedAll bs).answer = k.answerAt bs.length := by
  rw [← Sink.answerAt_zero]
  unfold Sink.answerAt Sink.acceptedAll
  simp

/-- A sink that never fails accepts any number of bytes. -/
theorem Sink.neverFails_accepts {k : Sink} (h : k.neverFails) (n : Nat) : k.acceptsNext n := by
  intro j _
  unfold Sink.answerAt
  cases hj : k.script[j]? with
  | none => exact h.2
  | some a => rw [h.1 a (List.mem_of_getElem? hj)]

theorem Sink.neverFails_acceptedAll {k : Sink} (h : k.neverFails) (bs : List Byte) :
    (k.acceptedAll bs).neverFails :=
  ⟨fun a ha => h.1 a (List.mem_of_mem_drop ha), h.2⟩

/-! ## A byte offered -/

theorem offerEnc_ok {s : State} (h : s.env.encOut.answer = some .ok) (b : Byte) :
    offerEnc b s = .go { s with enc := { s.enc with bytes := s.enc.bytes + 1 },
                                env := { s.env with encOut := s.env.encOut.accepted b } } := by
  simp [offerEnc, h]

theorem offerEnc_fail {s : State} (h : s.env.encOut.answer = some .fail) (b : Byte) :
    offerEnc b s = .ended
      ({ s with env := { s.env with encOut := s.env.encOut.declined } }.raiseEnc .ioerr 0 false) := by
  simp [offerEnc, h]

theorem offerEnc_silent {s : State} (h : s.env.encOut.answer = none) (b : Byte) :
    offerEnc b s = .ended s.stall := by
  simp [offerEnc, h]

theorem offerDec_ok {s : State} (h : s.env.decOut.answer = some .ok) (b : Byte) :
    offerDec b s = .go { s with dec := { s.dec with syms := s.dec.syms + 1 },
                                env := { s.env with decOut := s.env.decOut.accepted b } } := by
  simp [offerDec, h]

theorem offerDec_fail {s : State} (h : s.env.decOut.answer = some .fail) (b : Byte) :
    offerDec b s = .ended
      ({ s with env := { s.env with decOut := s.env.decOut.declined } }.raiseDec .ioerr 0 false false) := by
  simp [offerDec, h]

theorem offerDec_silent {s : State} (h : s.env.decOut.answer = none) (b : Byte) :
    offerDec b s = .ended s.stall := by
  simp [offerDec, h]

/-- What a byte offered to ENC_OUT can do: the sink accepts it, or the command has ended. -/
theorem offerEnc_cases (b : Byte) (s : State) :
    (s.env.encOut.answer = some .ok
      ∧ offerEnc b s = .go { s with enc := { s.enc with bytes := s.enc.bytes + 1 },
                                    env := { s.env with encOut := s.env.encOut.accepted b } })
    ∨ (s.env.encOut.answer = some .fail
      ∧ offerEnc b s = .ended
        ({ s with env := { s.env with encOut := s.env.encOut.declined } }.raiseEnc .ioerr 0 false))
    ∨ (s.env.encOut.answer = none ∧ offerEnc b s = .ended s.stall) := by
  rcases h : s.env.encOut.answer with _ | a
  · exact .inr (.inr ⟨rfl, offerEnc_silent h b⟩)
  · cases a
    · exact .inl ⟨rfl, offerEnc_ok h b⟩
    · exact .inr (.inl ⟨rfl, offerEnc_fail h b⟩)

/-- What a symbol offered to DEC_OUT can do: the sink accepts it, or the command has ended. -/
theorem offerDec_cases (b : Byte) (s : State) :
    (s.env.decOut.answer = some .ok
      ∧ offerDec b s = .go { s with dec := { s.dec with syms := s.dec.syms + 1 },
                                    env := { s.env with decOut := s.env.decOut.accepted b } })
    ∨ (s.env.decOut.answer = some .fail
      ∧ offerDec b s = .ended
        ({ s with env := { s.env with decOut := s.env.decOut.declined } }.raiseDec .ioerr 0 false false))
    ∨ (s.env.decOut.answer = none ∧ offerDec b s = .ended s.stall) := by
  rcases h : s.env.decOut.answer with _ | a
  · exact .inr (.inr ⟨rfl, offerDec_silent h b⟩)
  · cases a
    · exact .inl ⟨rfl, offerDec_ok h b⟩
    · exact .inr (.inl ⟨rfl, offerDec_fail h b⟩)

/-! ## The flow of a command -/

@[simp] theorem Flow.bind_go (s : State) (f : State → Flow) : (Flow.go s).bind f = f s := rfl
@[simp] theorem Flow.bind_ended (s : State) (f : State → Flow) : (Flow.ended s).bind f = .ended s := rfl
@[simp] theorem Flow.bind_fault (r : Fault) (f : State → Flow) : (Flow.fault r).bind f = .fault r := rfl
@[simp] theorem Flow.respondOk_go (s : State) : (Flow.go s).respondOk = .next (s.respond .ok 0) := rfl
@[simp] theorem Flow.respondOk_ended (s : State) : (Flow.ended s).respondOk = .next s := rfl
@[simp] theorem Flow.respondOk_fault (r : Fault) : (Flow.fault r).respondOk = .fault r := rfl

@[simp] theorem Flow.each_nil {α : Type} (f : α → State → Flow) (s : State) : Flow.each f [] s = .go s := rfl

theorem Flow.each_cons {α : Type} (f : α → State → Flow) (x : α) (xs : List α) (s : State) :
    Flow.each f (x :: xs) s = (f x s).bind (Flow.each f xs) := rfl

theorem Flow.each_append {α : Type} (f : α → State → Flow) (xs ys : List α) (s : State) :
    Flow.each f (xs ++ ys) s = (Flow.each f xs s).bind (Flow.each f ys) := by
  induction xs generalizing s with
  | nil => rfl
  | cons x xs ih =>
    rw [List.cons_append, Flow.each_cons, Flow.each_cons]
    cases f x s with
    | go t => exact ih t
    | ended t => rfl
    | fault r => rfl

/-- What a flow leaves: `P` of the state it goes on from, `Q` of the state it ended in. -/
def Flow.Leaves (P Q : State → Prop) : Flow → Prop
  | .go t => P t
  | .ended t => Q t
  | .fault _ => True

theorem Flow.Leaves.bind {P Q R : State → Prop} {x : Flow} {f : State → Flow} (h : x.Leaves P Q)
    (hf : ∀ t, P t → (f t).Leaves R Q) : (x.bind f).Leaves R Q := by
  cases x with
  | go t => exact hf t h
  | ended t => exact h
  | fault r => trivial

theorem Flow.Leaves.mono {P Q P' Q' : State → Prop} {x : Flow} (h : x.Leaves P Q)
    (hP : ∀ t, P t → P' t) (hQ : ∀ t, Q t → Q' t) : x.Leaves P' Q' := by
  cases x with
  | go t => exact hP t h
  | ended t => exact hQ t h
  | fault r => trivial

/-- The loop rule: what every pass keeps, the loop keeps. -/
theorem Flow.Leaves.each {α : Type} {P Q : State → Prop} {f : α → State → Flow}
    (hf : ∀ x s, P s → (f x s).Leaves P Q) (xs : List α) (s : State) (h : P s) :
    (Flow.each f xs s).Leaves P Q := by
  induction xs generalizing s with
  | nil => exact h
  | cons x xs ih => exact (hf x s h).bind ih

/-- The end of a command with a last `Respond(OK, 0)`: `Q` holds of the next state when it holds of every
early end, and of the response to every state `P` holds of. -/
theorem Flow.Leaves.respondOk {P Q : State → Prop} {x : Flow} (h : x.Leaves P Q)
    (hP : ∀ t, P t → Q (t.respond .ok 0)) {t : State} (ht : x.respondOk = .next t) : Q t := by
  cases x with
  | go u => cases ht; exact hP u h
  | ended u => cases ht; exact h
  | fault r => cases ht

/-! ## One bit of the packer -/

theorem putBit_partial {s : State} (h : s.enc.accN ≠ 7#3) (b : Bool) :
    putBit b s = .go { s with enc := { s.enc with
      acc := setBit s.enc.acc (accPlace s.enc.accN) b, accN := s.enc.accN + 1, bits := s.enc.bits + 1 } } := by
  simp [putBit, h]

theorem putBit_full {s : State} (h : s.enc.accN = 7#3) (b : Bool) :
    putBit b s = offerEnc (setBit s.enc.acc 0 b)
      { s with enc := { s.enc with acc := 0, accN := 0, bits := s.enc.bits + 1 } } := by
  simp [putBit, h, accPlace]

/-! ## One bit of the walk -/

theorem walkBit_unwritten {s : State} (h : s.dec.node s.dec.cur = none) (b : Bool) :
    walkBit b s = .fault (.unwrittenNode s.dec.cur) := by
  simp [walkBit, h]

theorem walkBit_noChild {s : State} {b : Bool} (h : s.dec.noChild b s.dec.cur) :
    walkBit b s = .ended (s.raiseDec .malformed s.dec.cur b false) := by
  rcases h with ⟨sym, h⟩ | ⟨l, r, h, hc⟩
  · simp [walkBit, h]
  · simp [walkBit, h, hc]

theorem follow_one {d : Dec} {b : Bool} {i c : Idx} :
    d.follow [b] i = some c ↔
      ∃ l r, d.node i = some (.int l r) ∧ childOn b l r ≠ Config.nil ∧ c = childOn b l r := by
  unfold Dec.follow
  cases h : d.node i with
  | none => simp
  | some n =>
    cases n with
    | leaf sym => simp
    | int l r =>
      by_cases hc : childOn b l r = Config.nil
      · simp [hc]
      · simp only [hc, if_false, Dec.follow, Option.some.injEq, Node.int.injEq]
        exact ⟨fun e => ⟨l, r, ⟨rfl, rfl⟩, hc, e.symm⟩, fun ⟨_, _, ⟨hl, hr⟩, _, e⟩ => by rw [e, hl, hr]⟩

/-- A bit with a child moves the cursor there, is counted, and arrives. -/
theorem walkBit_child {s : State} {b : Bool} {c : Idx} (h : s.dec.follow [b] s.dec.cur = some c) :
    walkBit b s = arrive c { s with dec := { s.dec with bits := s.dec.bits + 1, cur := c } } := by
  obtain ⟨l, r, hn, hc, rfl⟩ := follow_one.1 h
  simp [walkBit, hn, hc]

/-- Every bit faults, is malformed, or moves the cursor to a child. -/
theorem walkBit_cases (b : Bool) (s : State) :
    s.dec.node s.dec.cur = none ∨ s.dec.noChild b s.dec.cur
      ∨ ∃ c, s.dec.follow [b] s.dec.cur = some c ∧ c ≠ Config.nil := by
  cases h : s.dec.node s.dec.cur with
  | none => exact .inl rfl
  | some n =>
    cases n with
    | leaf sym => exact .inr (.inl (.inl ⟨sym, h⟩))
    | int l r =>
      by_cases hc : childOn b l r = Config.nil
      · exact .inr (.inl (.inr ⟨l, r, h, hc⟩))
      · exact .inr (.inr ⟨_, follow_one.2 ⟨l, r, h, hc, rfl⟩, hc⟩)

theorem arrive_int {s : State} {c l r : Idx} (h : s.dec.node c = some (.int l r)) : arrive c s = .go s := by
  simp [arrive, h]

theorem arrive_leaf {s : State} {c : Idx} {sym : Byte} (h : s.dec.node c = some (.leaf sym)) :
    arrive c s = (offerDec sym s).bind fun t => .go { t with dec := { t.dec with cur := t.dec.rootIdx } } := by
  simp [arrive, h]

theorem arrive_unwritten {s : State} {c : Idx} (h : s.dec.node c = none) :
    arrive c s = .fault (.unwrittenNode c) := by
  simp [arrive, h]

end Sys2Proof.Machine
end

