-- ==== Sys2Proof/Laws/Decoder.lean ====
section
/-! SUPPORT. The walk over a sequence of bits: what a path through the tree spells, and what the loop of a
DEC.PUT leaves when the sink accepts the symbols spelled. -/

namespace Sys2Proof.Machine

/-! ## What the walk sees depends on the tree and its root only -/

theorem Dec.node_congr {d d' : Dec} (h : d'.tm = d.tm) (i : Idx) : d'.node i = d.node i := by
  simp [Dec.node, h]

theorem Dec.follow_congr {d d' : Dec} (h : d'.tm = d.tm) (bits : List Bool) (i : Idx) :
    d'.follow bits i = d.follow bits i := by
  induction bits generalizing i with
  | nil => rfl
  | cons b bs ih => simp only [Dec.follow, Dec.node_congr h, ih]

theorem Dec.spells_congr {d d' : Dec} (h : d'.tm = d.tm) (hr : d'.rootIdx = d.rootIdx) (bits : List Bool)
    (i : Idx) : d'.spells bits i = d.spells bits i := by
  induction bits generalizing i with
  | nil => rfl
  | cons b bs ih => simp only [Dec.spells, Dec.follow_congr h, Dec.node_congr h, hr, ih]

/-! ## Paths -/

theorem Dec.follow_append (d : Dec) (as bs : List Bool) (i : Idx) :
    d.follow (as ++ bs) i = (d.follow as i).bind (d.follow bs) := by
  induction as generalizing i with
  | nil => rfl
  | cons a as ih =>
    simp only [List.cons_append, Dec.follow]
    cases d.node i with
    | none => rfl
    | some n =>
      cases n with
      | leaf sym => rfl
      | int l r =>
        by_cases h : childOn a l r = Config.nil
        · simp [h]
        · simp [h, ih]

theorem Dec.follow_cons (d : Dec) (b : Bool) (bs : List Bool) (i : Idx) :
    d.follow (b :: bs) i = (d.follow [b] i).bind (d.follow bs) := d.follow_append [b] bs i

/-- Nothing follows a leaf. -/
theorem Dec.follow_leaf {d : Dec} {i : Idx} {sym : Byte} (h : d.node i = some (.leaf sym)) (b : Bool)
    (bs : List Bool) : d.follow (b :: bs) i = none := by
  simp [Dec.follow, h]

/-- A child that is followed is not NIL. -/
theorem Dec.follow_ne_nil {d : Dec} {bits : List Bool} {i j : Idx} (h : d.follow bits i = some j)
    (hi : i ≠ Config.nil) : j ≠ Config.nil := by
  induction bits generalizing i with
  | nil => simp only [Dec.follow, Option.some.injEq] at h; exact h ▸ hi
  | cons b bs ih =>
    rw [Dec.follow_cons] at h
    cases hc : d.follow [b] i with
    | none => simp [hc] at h
    | some c =>
      obtain ⟨l, r, -, hn, rfl⟩ := follow_one.1 hc
      exact ih (by simpa [hc] using h) hn

/-! ## Spelling -/

theorem Dec.spells_nil (d : Dec) (i : Idx) : d.spells [] i = some ([], i) := rfl

theorem Dec.spells_cons_leaf {d : Dec} {b : Bool} {i c : Idx} {sym : Byte} (h : d.follow [b] i = some c)
    (hc : d.node c = some (.leaf sym)) (bs : List Bool) :
    d.spells (b :: bs) i = (d.spells bs d.rootIdx).map fun r => (sym :: r.1, r.2) := by
  simp only [Dec.spells, h, hc]

theorem Dec.spells_cons_int {d : Dec} {b : Bool} {i c l r : Idx} (h : d.follow [b] i = some c)
    (hc : d.node c = some (.int l r)) (bs : List Bool) : d.spells (b :: bs) i = d.spells bs c := by
  simp only [Dec.spells, h, hc]

/-- The two ways a first bit can be spelled. -/
theorem Dec.spells_cons {d : Dec} {b : Bool} {bs : List Bool} {i cur : Idx} {xs : List Byte}
    (h : d.spells (b :: bs) i = some (xs, cur)) : ∃ c, d.follow [b] i = some c ∧
      ((∃ sym ys, d.node c = some (.leaf sym) ∧ xs = sym :: ys ∧ d.spells bs d.rootIdx = some (ys, cur))
        ∨ ∃ l r, d.node c = some (.int l r) ∧ d.spells bs c = some (xs, cur)) := by
  simp only [Dec.spells] at h
  cases hc : d.follow [b] i with
  | none => simp [hc] at h
  | some c =>
    refine ⟨c, rfl, ?_⟩
    cases hn : d.node c with
    | none => simp [hc, hn] at h
    | some n =>
      cases n with
      | leaf sym =>
        simp only [hc, hn, Option.map_eq_some_iff, Prod.mk.injEq] at h
        obtain ⟨⟨ys, c'⟩, hs, rfl, rfl⟩ := h
        exact .inl ⟨sym, ys, rfl, rfl, hs⟩
      | int l r => exact .inr ⟨l, r, rfl, by simpa [hc, hn] using h⟩

theorem Dec.spells_append (d : Dec) (as bs : List Bool) (i : Idx) :
    d.spells (as ++ bs) i = (d.spells as i).bind fun r =>
      (d.spells bs r.2).map fun q => (r.1 ++ q.1, q.2) := by
  induction as generalizing i with
  | nil =>
    rw [List.nil_append, Dec.spells_nil, Option.bind_some]
    cases d.spells bs i <;> rfl
  | cons a as ih =>
    simp only [List.cons_append, Dec.spells]
    cases d.follow [a] i with
    | none => rfl
    | some c =>
      cases hn : d.node c with
      | none => simp only [hn]; rfl
      | some n =>
        cases n with
        | int l r => simp only [hn]; exact ih c
        | leaf sym =>
          simp only [hn, ih]
          cases d.spells as d.rootIdx with
          | none => rfl
          | some r => cases h : d.spells bs r.2 <;> simp [h]

/-- A path to a leaf spells its symbol and comes back to the root. -/
theorem Dec.spells_path {d : Dec} {bits : List Bool} {i j : Idx} {sym : Byte} (h0 : bits ≠ [])
    (hf : d.follow bits i = some j) (hj : d.node j = some (.leaf sym)) :
    d.spells bits i = some ([sym], d.rootIdx) := by
  induction bits generalizing i with
  | nil => exact absurd rfl h0
  | cons b bs ih =>
    rw [Dec.follow_cons] at hf
    cases hc : d.follow [b] i with
    | none => simp [hc] at hf
    | some c =>
      simp only [hc, Option.bind_some] at hf
      cases bs with
      | nil =>
        simp only [Dec.follow, Option.some.injEq] at hf
        subst hf
        rw [Dec.spells_cons_leaf hc hj]
        rfl
      | cons b' bs =>
        have hn : ∃ l r, d.node c = some (.int l r) := by
          cases hn : d.node c with
          | none => simp [Dec.follow, hn] at hf
          | some n =>
            cases n with
            | leaf s => simp [Dec.follow, hn] at hf
            | int l r => exact ⟨l, r, rfl⟩
        obtain ⟨l, r, hn⟩ := hn
        rw [Dec.spells_cons_int hc hn]
        exact ih (by simp) hf

/-- A path that ends on an internal node spells nothing. -/
theorem Dec.spells_inner {d : Dec} {bits : List Bool} {i j l r : Idx}
    (hf : d.follow bits i = some j) (hj : d.node j = some (.int l r)) :
    d.spells bits i = some ([], j) := by
  induction bits generalizing i with
  | nil => simp only [Dec.follow, Option.some.injEq] at hf; subst hf; rfl
  | cons b bs ih =>
    rw [Dec.follow_cons] at hf
    cases hc : d.follow [b] i with
    | none => simp [hc] at hf
    | some c =>
      simp only [hc, Option.bind_some] at hf
      have hn : ∃ l' r', d.node c = some (.int l' r') := by
        cases bs with
        | nil =>
          simp only [Dec.follow, Option.some.injEq] at hf
          subst hf
          exact ⟨l, r, hj⟩
        | cons b' bs =>
          cases hn : d.node c with
          | none => simp [Dec.follow, hn] at hf
          | some n =>
            cases n with
            | leaf s => simp [Dec.follow, hn] at hf
            | int l r => exact ⟨l, r, rfl⟩
      obtain ⟨l', r', hn⟩ := hn
      rw [Dec.spells_cons_int hc hn]
      exact ih hf

/-! ## The loop of a DEC.PUT -/

/-- The state after bits that spelled `xs` and left the cursor at `cur`, the sink having accepted `xs`. -/
def afterWalk (s : State) (n : Nat) (xs : List Byte) (cur : Idx) : State :=
  { s with
    dec := { s.dec with
      cur := cur, bits := s.dec.bits + BitVec.ofNat 32 n
      syms := s.dec.syms + BitVec.ofNat 32 xs.length }
    env := { s.env with decOut := s.env.decOut.acceptedAll xs } }

/-- A bit that reaches an internal node. -/
theorem walkBit_inner {s : State} {b : Bool} {c l r : Idx} (h : s.dec.follow [b] s.dec.cur = some c)
    (hc : s.dec.node c = some (.int l r)) :
    walkBit b s = .go { s with dec := { s.dec with bits := s.dec.bits + 1, cur := c } } := by
  rw [walkBit_child h]
  exact arrive_int (s := { s with dec := { s.dec with bits := s.dec.bits + 1, cur := c } }) hc

/-- A bit that reaches a leaf offers its symbol; what follows the offer puts the cursor on the root. -/
theorem walkBit_leaf {s : State} {b : Bool} {c : Idx} {sym : Byte} (h : s.dec.follow [b] s.dec.cur = some c)
    (hc : s.dec.node c = some (.leaf sym)) :
    walkBit b s = (offerDec sym { s with dec := { s.dec with bits := s.dec.bits + 1, cur := c } }).bind
      fun t => .go { t with dec := { t.dec with cur := t.dec.rootIdx } } := by
  rw [walkBit_child h]
  exact arrive_leaf (s := { s with dec := { s.dec with bits := s.dec.bits + 1, cur := c } }) hc

/-- A bit that reaches a leaf, when the sink accepts its symbol. -/
theorem walkBit_accepted {s : State} {b : Bool} {c : Idx} {sym : Byte}
    (h : s.dec.follow [b] s.dec.cur = some c) (hc : s.dec.node c = some (.leaf sym))
    (ha : s.env.decOut.answer = some .ok) :
    walkBit b s = .go { s with
      dec := { s.dec with bits := s.dec.bits + 1, cur := s.dec.rootIdx, syms := s.dec.syms + 1 }
      env := { s.env with decOut := s.env.decOut.accepted sym } } := by
  rw [walkBit_leaf h hc]
  simp [offerDec, ha]

/-- A bit that reaches a leaf, when the sink does not accept its symbol: the command ends as the offer
does. -/
theorem walkBit_notAccepted {s : State} {b : Bool} {c : Idx} {sym : Byte}
    (h : s.dec.follow [b] s.dec.cur = some c) (hc : s.dec.node c = some (.leaf sym))
    (ha : s.env.decOut.answer ≠ some .ok) :
    walkBit b s = offerDec sym { s with dec := { s.dec with bits := s.dec.bits + 1, cur := c } } := by
  rw [walkBit_leaf h hc]
  rcases hk : s.env.decOut.answer with _ | a
  · simp [offerDec, hk]
  · cases a
    · exact absurd hk ha
    · simp [offerDec, hk]

/-- A bit that reaches a leaf, when the sink fails: the cursor stays on the leaf. -/
theorem walkBit_failed {s : State} {b : Bool} {c : Idx} {sym : Byte}
    (h : s.dec.follow [b] s.dec.cur = some c) (hc : s.dec.node c = some (.leaf sym))
    (ha : s.env.decOut.answer = some .fail) :
    walkBit b s = .ended (({ s with
      dec := { s.dec with bits := s.dec.bits + 1, cur := c }
      env := { s.env with decOut := s.env.decOut.declined } } : State).raiseDec .ioerr 0 false false) := by
  rw [walkBit_notAccepted h hc (by rw [ha]; simp)]
  simp [offerDec, ha]

/-- A bit that reaches a leaf, when the sink never answers. -/
theorem walkBit_silent {s : State} {b : Bool} {c : Idx} {sym : Byte}
    (h : s.dec.follow [b] s.dec.cur = some c) (hc : s.dec.node c = some (.leaf sym))
    (ha : s.env.decOut.answer = none) :
    walkBit b s = .ended ({ s with dec := { s.dec with bits := s.dec.bits + 1, cur := c } } : State).stall := by
  rw [walkBit_notAccepted h hc (by rw [ha]; simp)]
  simp [offerDec, ha]

theorem dcount_succ (x : Word) {n m : Nat} (h : m = n + 1) :
    x + 1 + BitVec.ofNat 32 n = x + BitVec.ofNat 32 m := by
  rw [h, BitVec.ofNat_add, BitVec.add_assoc, BitVec.add_comm 1]
  rfl

/-- The loop of a DEC.PUT over bits that spell symbols the sink accepts. -/
theorem walkBits_ok (bs : List Bool) (s : State) {xs : List Byte} {cur : Idx}
    (h : s.dec.spells bs s.dec.cur = some (xs, cur)) (ha : s.env.decOut.acceptsNext xs.length) :
    Flow.each walkBit bs s = .go (afterWalk s bs.length xs cur) := by
  induction bs generalizing s xs with
  | nil =>
    simp only [Dec.spells, Option.some.injEq, Prod.mk.injEq] at h
    obtain ⟨rfl, rfl⟩ := h
    simp [afterWalk]
  | cons b bs ih =>
    obtain ⟨c, hc, ⟨sym, ys, hn, rfl, hs⟩ | ⟨l, r, hn, hs⟩⟩ := Dec.spells_cons h
    · rw [List.length_cons, Sink.acceptsNext_succ _ sym] at ha
      rw [Flow.each_cons, walkBit_accepted hc hn ha.1, Flow.bind_go, ih { s with
        dec := { s.dec with bits := s.dec.bits + 1, cur := s.dec.rootIdx, syms := s.dec.syms + 1 }
        env := { s.env with decOut := s.env.decOut.accepted sym } }
        (by refine Eq.trans (Dec.spells_congr (d := s.dec) ?_ ?_ _ _) hs <;> rfl) ha.2]
      unfold afterWalk
      simp only [dcount_succ _ (rfl : (b :: bs).length = bs.length + 1),
        dcount_succ _ (rfl : (sym :: ys).length = ys.length + 1), Sink.acceptedAll_cons]
    · rw [Flow.each_cons, walkBit_inner hc hn, Flow.bind_go,
        ih { s with dec := { s.dec with bits := s.dec.bits + 1, cur := c } }
        (by refine Eq.trans (Dec.spells_congr (d := s.dec) ?_ ?_ _ _) hs <;> rfl) ha]
      unfold afterWalk
      simp only [dcount_succ _ (rfl : (b :: bs).length = bs.length + 1)]

/-- The loop up to a bit that stops it: the bits before have their whole effect. -/
theorem walkBits_until {bs post : List Bool} {b : Bool} (s : State) {xs : List Byte} {cur : Idx}
    (h : s.dec.spells bs s.dec.cur = some (xs, cur)) (ha : s.env.decOut.acceptsNext xs.length) :
    Flow.each walkBit (bs ++ b :: post) s
      = (walkBit b (afterWalk s bs.length xs cur)).bind (Flow.each walkBit post) := by
  rw [Flow.each_append, walkBits_ok bs s h ha, Flow.bind_go, Flow.each_cons]

end Sys2Proof.Machine
end

