-- ==== Sys2Proof/Laws/Encode.lean ====
section
/-! SUPPORT. Command words and their fields as numbers: what each word is worth, what each field of it
is, and what `accept` answers. -/

namespace Sys2Proof

/-- A concatenation as a number: the left part in the more significant position (R6). -/
theorem toNat_cat {m n : Nat} (x : BitVec m) (y : BitVec n) :
    (x ++ y).toNat = x.toNat * 2 ^ n + y.toNat := by
  rw [BitVec.toNat_append, ← Nat.shiftLeft_add_eq_or_of_lt y.isLt, Nat.shiftLeft_eq]

theorem toNat_cat4 {m n p q : Nat} (a : BitVec m) (b : BitVec n) (c : BitVec p) (d : BitVec q) :
    (a ++ b ++ c ++ d).toNat
      = ((a.toNat * 2 ^ n + b.toNat) * 2 ^ p + c.toNat) * 2 ^ q + d.toNat := by
  simp only [toNat_cat]

/-- A field as a number. -/
theorem field_toNat (w : Word) (lo len : Nat) :
    (field w lo len).toNat = w.toNat / 2 ^ lo % 2 ^ len := by
  simp [field, Nat.shiftRight_eq_div_pow]

/-- A field is the bits `x` exactly when it has their number. -/
theorem field_eq_iff (w : Word) (lo len : Nat) (x : BitVec len) :
    field w lo len = x ↔ w.toNat / 2 ^ lo % 2 ^ len = x.toNat := by
  rw [← BitVec.toNat_inj, field_toNat]

/-- A range of bits is all 0 exactly when it has the number 0. -/
theorem zeros_iff (w : Word) (lo len : Nat) :
    zeros w lo len = true ↔ w.toNat / 2 ^ lo % 2 ^ len = 0 := by
  simp [zeros, field_eq_iff]

theorem bit_zero_eq (w : Word) : w.getLsbD 0 = decide (w.toNat % 2 = 1) := by
  simp [BitVec.getLsbD, Nat.testBit_zero]

/-- When `accept` gives a command, it is the candidate, its reserved bits are 0 and its operands are
legal. -/
theorem accept_eq_instr {z : Bool} {i j : Instr} :
    accept z i = .instr j ↔ z = true ∧ rangeFault i = none ∧ i = j := by
  unfold accept
  cases z <;> cases h : rangeFault i <;> simp

/-! ## Masks and fields -/

/-- A field all of whose bits a mask keeps has the bits of the masked word. -/
theorem field_of_masked {w m p : Word} (h : w &&& m = p) (lo len : Nat)
    (hm : field m lo len = BitVec.allOnes len) : field w lo len = field p lo len := by
  subst h
  simp only [field, BitVec.extractLsb'_and] at *
  rw [hm]
  simp

/-- A word that has the bits of `p` wherever the mask has a 1 is masked to `p`. -/
theorem masked_of_bits {w p : Word} (m : Word) (hp : p &&& m = p)
    (h : ∀ j : Nat, m.getLsbD j = true → w.getLsbD j = p.getLsbD j) : w &&& m = p := by
  refine BitVec.eq_of_getLsbD_eq fun i hi => ?_
  rw [← hp]
  by_cases hm : m.getLsbD i = true
  · simp [h i hm, hm]
  · simp [hm]

/-- Words with the same field have the same bits in it. -/
theorem bit_of_field {w p : Word} {lo len j : Nat} (h : field w lo len = field p lo len)
    (h1 : lo ≤ j) (h2 : j < lo + len) : w.getLsbD j = p.getLsbD j := by
  have hb := congrArg (fun x => BitVec.getLsbD x (j - lo)) h
  simp only [field, BitVec.getLsbD_extractLsb'] at hb
  have h3 : j - lo < len := by omega
  have h4 : lo + (j - lo) = j := by omega
  simpa [h3, h4] using hb

/-! ## The word of each command as a number -/

theorem formatZ_toNat (op : BitVec 5) : (formatZ op).toNat = op.toNat * 2 ^ 27 :=
  (toNat_cat op 0#27).trans (by simp)

theorem formatS_toNat (op : BitVec 5) (sym : Byte) :
    (formatS op sym).toNat = op.toNat * 2 ^ 27 + sym.toNat :=
  (toNat_cat (op ++ 0#19) sym).trans (by rw [toNat_cat]; simp only [BitVec.toNat_ofNat]; omega)

theorem encode_rdreg_toNat (r : RegNum) :
    (encode (.rdreg r)).toNat = 0x02 * 2 ^ 27 + r.toNat * 2 ^ 16 :=
  (toNat_cat4 0x02#5 0#6 r 0#16).trans (by simp only [BitVec.toNat_ofNat]; omega)

theorem encode_wrreg_toNat (r : RegNum) (v : BitVec 16) :
    (encode (.wrreg r v)).toNat = 0x03 * 2 ^ 27 + r.toNat * 2 ^ 16 + v.toNat :=
  (toNat_cat4 0x03#5 0#6 r v).trans (by simp only [BitVec.toNat_ofNat]; omega)

theorem encode_ctPush_toNat (b : Bool) :
    (encode (.ctPush b)).toNat = 0x07 * 2 ^ 27 + b.toNat := by
  cases b <;> rfl

theorem encode_tLeaf_toNat (idx : Idx) (sym : Byte) :
    (encode (.tLeaf idx sym)).toNat = 0x11 * 2 ^ 27 + idx.toNat * 2 ^ 18 + sym.toNat :=
  (toNat_cat4 0x11#5 idx 0#10 sym).trans (by simp only [BitVec.toNat_ofNat]; omega)

theorem encode_tInt_toNat (idx left right : Idx) :
    (encode (.tInt idx left right)).toNat = 0x12 * 2 ^ 27 + idx.toNat * 2 ^ 18 + left.toNat * 2 ^ 9 + right.toNat :=
  (toNat_cat4 0x12#5 idx left right).trans (by simp only [BitVec.toNat_ofNat]; omega)

theorem encode_decPut_toNat (byte : Byte) (n : BitVec 4) :
    (encode (.decPut byte n)).toNat = 0x13 * 2 ^ 27 + n.toNat * 2 ^ 8 + byte.toNat :=
  (toNat_cat4 0x13#5 0#15 n byte).trans (by simp only [BitVec.toNat_ofNat]; omega)

/-! ## The range checks of the decoder are well-formedness -/

theorem regOf_isSome_iff (r : RegNum) :
    regOf r ≠ none ↔ r.toNat ≤ 10 ∨ (16 ≤ r.toNat ∧ r.toNat ≤ 20) := by
  revert r; decide

theorem rangeFault_none_iff (i : Instr) : rangeFault i = none ↔ i.WellFormed := by
  cases i with
  | rdreg r =>
    have h := regOf_isSome_iff r
    simp only [rangeFault, Instr.WellFormed, Instr.wellFormed, decide_eq_true_eq]
    rw [← h]
    cases regOf r <;> simp
  | wrreg r v =>
    have h13 : v.extractLsb' 3 13 = 0#13 ↔ v.toNat < 8 := by
      rw [← BitVec.toNat_inj]; simp [Nat.shiftRight_eq_div_pow]; omega
    have h6 : v.extractLsb' 10 6 = 0#6 ↔ v.toNat < 1024 := by
      rw [← BitVec.toNat_inj]; simp [Nat.shiftRight_eq_div_pow]; omega
    have h9 : v.extractLsb' 0 9 = Config.nil ↔ v.toNat % 512 = 511 := by
      rw [← BitVec.toNat_inj]; simp
    simp only [rangeFault, Instr.WellFormed, Instr.wellFormed, decide_eq_true_eq, h13, h6, h9, ne_eq]
    have hr : r.toNat < 32 := r.isLt
    obtain ⟨n, hn⟩ : ∃ n : Fin 32, r = BitVec.ofFin n := ⟨r.toFin, rfl⟩
    subst hn
    fin_cases n <;> simp [regOf] <;> (try split) <;> (try split) <;> simp_all
  | tLeaf idx sym =>
    have : idx = Config.nil ↔ ¬ idx.toNat ≤ 510 := by
      rw [← BitVec.toNat_inj]; have := idx.isLt; simp; omega
    simp only [rangeFault, Instr.WellFormed, Instr.wellFormed, this]
    split <;> simp_all
  | tInt idx left right =>
    have : idx = Config.nil ↔ ¬ idx.toNat ≤ 510 := by
      rw [← BitVec.toNat_inj]; have := idx.isLt; simp; omega
    simp only [rangeFault, Instr.WellFormed, Instr.wellFormed, this]
    split <;> simp_all
  | decPut byte n =>
    simp only [rangeFault, Instr.WellFormed, Instr.wellFormed]
    split <;> simp_all
  | _ => exact iff_of_true rfl rfl

end Sys2Proof
end

