-- ==== Sys2Proof/Laws/Pack.lean ====
section
/-! SUPPORT. Bits and bytes: the bits of a byte, the packing of a bit sequence, the bits ACC holds, and what
one bit and a sequence of bits put through the packer do to them. -/

namespace Sys2Proof.Machine

/-! ## Bytes and their bits -/

theorem byteBits_get (x : Byte) {i : Nat} (h : i < 8) : (byteBits x)[i]? = some (x.getLsbD (7 - i)) := by
  have h8 : i = 0 ∨ i = 1 ∨ i = 2 ∨ i = 3 ∨ i = 4 ∨ i = 5 ∨ i = 6 ∨ i = 7 := by omega
  rcases h8 with rfl | rfl | rfl | rfl | rfl | rfl | rfl | rfl <;> rfl

theorem cat8_bits : ∀ a b c d e f g h : Bool,
    byteBits (BitVec.ofBool a ++ BitVec.ofBool b ++ BitVec.ofBool c ++ BitVec.ofBool d
      ++ BitVec.ofBool e ++ BitVec.ofBool f ++ BitVec.ofBool g ++ BitVec.ofBool h)
      = [a, b, c, d, e, f, g, h] := by decide

theorem byteBits_byteOf (g : Nat → Bool) : byteBits (byteOf g) = (List.range 8).map g :=
  cat8_bits _ _ _ _ _ _ _ _

theorem byteOf_getLsbD (g : Nat → Bool) {j : Nat} (h : j < 8) : (byteOf g).getLsbD j = g (7 - j) := by
  have hb := congrArg (fun l => l[7 - j]?) (byteBits_byteOf g)
  simp only [byteBits_get _ (show 7 - j < 8 by omega), List.getElem?_map,
    List.getElem?_range (show 7 - j < 8 by omega), Option.map_some, Option.some.injEq] at hb
  rwa [show 7 - (7 - j) = j by omega] at hb

theorem byteOf_congr {g g' : Nat → Bool} (h : ∀ i < 8, g i = g' i) : byteOf g = byteOf g' := by
  refine BitVec.eq_of_getLsbD_eq fun j hj => ?_
  rw [byteOf_getLsbD _ hj, byteOf_getLsbD _ hj]
  exact h _ (by omega)

@[simp] theorem byteBits_length (x : Byte) : (byteBits x).length = 8 := rfl

theorem setBit_getLsbD (x : Byte) {i j : Nat} (b : Bool) (hi : i < 8) :
    (setBit x i b).getLsbD j = if j = i then b else x.getLsbD j := by
  unfold setBit
  by_cases hj : j < 8
  · cases b <;> by_cases h : j = i
    · subst h; simp [hj]
    · simp [h, hj]
    · subst h; simp [hj]
    · simp [h, Ne.symm h]
  · have hji : j ≠ i := by omega
    simp [hji, BitVec.getLsbD_of_ge _ _ (Nat.le_of_not_lt hj)]

/-! ## Packing -/

@[simp] theorem pack_nil (f : Bool) : pack [] f = [] := rfl

@[simp] theorem pack_length (bs : List Bool) (f : Bool) : (pack bs f).length = (bs.length + 7) / 8 := by
  simp [pack]

theorem map_range_succ {α : Type} (g h : Nat → α) (x : α) (n : Nat) (h0 : g 0 = x)
    (hs : ∀ j, g (j + 1) = h j) : (List.range (n + 1)).map g = x :: (List.range n).map h := by
  rw [List.range_succ_eq_map, List.map_cons, List.map_map, h0]
  exact congrArg _ (List.map_congr_left fun j _ => hs j)

/-- Eight bits in front are one byte in front. -/
theorem pack_chunk {c : List Bool} (hc : c.length = 8) (bs : List Bool) (f : Bool) :
    pack (c ++ bs) f = byteOf (fun i => c.getD i f) :: pack bs f := by
  have hl : ((c ++ bs).length + 7) / 8 = (bs.length + 7) / 8 + 1 := by
    rw [List.length_append, hc]; omega
  unfold pack
  rw [hl]
  refine map_range_succ _ _ _ _ ?_ fun j => ?_
  · refine byteOf_congr fun i hi => ?_
    rw [Nat.mul_zero, Nat.zero_add, List.getD_append _ _ _ _ (by omega)]
  · refine byteOf_congr fun i _ => ?_
    rw [List.getD_append_right _ _ _ _ (by omega), hc, show 8 * (j + 1) + i - 8 = 8 * j + i by omega]

/-- Fewer than eight bits are one padded byte. -/
theorem pack_short {bs : List Bool} (h0 : bs ≠ []) (h8 : bs.length < 8) (f : Bool) :
    pack bs f = [byteOf fun i => bs.getD i f] := by
  have hl : (bs.length + 7) / 8 = 1 := by
    have := List.length_pos_iff.2 h0
    omega
  simp [pack, hl]

/-- Induction on a bit sequence in chunks of eight. -/
theorem chunk_induction {P : List Bool → Prop} (short : ∀ bs : List Bool, bs.length < 8 → P bs)
    (chunk : ∀ c bs : List Bool, c.length = 8 → P bs → P (c ++ bs)) (bs : List Bool) : P bs := by
  generalize hn : bs.length = n
  induction n using Nat.strongRecOn generalizing bs with
  | _ n ih =>
    by_cases h : bs.length < 8
    · exact short bs h
    · rw [← List.take_append_drop 8 bs]
      refine chunk _ _ (by rw [List.length_take]; omega) (ih (bs.length - 8) (by omega) _ ?_)
      rw [List.length_drop]

/-- The bits of the packed bytes: the sequence, then the filler up to the byte boundary. -/
theorem pack_bits (bs : List Bool) (f : Bool) :
    (pack bs f).flatMap byteBits = bs ++ List.replicate (8 * ((bs.length + 7) / 8) - bs.length) f := by
  induction bs using chunk_induction with
  | short bs h =>
    by_cases h0 : bs = []
    · subst h0; rfl
    · have hp := List.length_pos_iff.2 h0
      rw [pack_short h0 h, List.flatMap_singleton, byteBits_byteOf]
      rw [show (bs.length + 7) / 8 = 1 by omega]
      refine List.ext_getElem? fun i => ?_
      by_cases hi : i < 8
      · rw [List.getElem?_map, List.getElem?_range hi, Option.map_some]
        by_cases hb : i < bs.length
        · rw [List.getElem?_append_left hb, List.getD_eq_getElem?_getD, List.getElem?_eq_getElem hb]
          rfl
        · rw [List.getElem?_append_right (by omega), List.getD_eq_getElem?_getD,
            List.getElem?_eq_none (by omega), List.getElem?_replicate]
          simp; omega
      · rw [List.getElem?_eq_none (by simp; omega), List.getElem?_eq_none (by simp; omega)]
  | chunk c bs hc ih =>
    rw [pack_chunk hc, List.flatMap_cons, ih, byteBits_byteOf, List.append_assoc]
    congr 1
    · refine List.ext_getElem? fun i => ?_
      by_cases hi : i < 8
      · rw [List.getElem?_map, List.getElem?_range hi, Option.map_some, List.getD_eq_getElem?_getD,
          List.getElem?_eq_getElem (by omega)]
        rfl
      · rw [List.getElem?_eq_none (by simp; omega), List.getElem?_eq_none (by omega)]
    · rw [List.length_append, hc]
      congr 2
      omega

/-- The whole bytes of a sequence do not depend on the filler. -/
theorem pack_whole (bs : List Bool) (f g : Bool) :
    (pack bs f).take (bs.length / 8) = (pack bs g).take (bs.length / 8) := by
  induction bs using chunk_induction with
  | short bs h => simp [Nat.div_eq_of_lt h]
  | chunk c bs hc ih =>
    have hl : (c ++ bs).length / 8 = bs.length / 8 + 1 := by rw [List.length_append, hc]; omega
    rw [pack_chunk hc, pack_chunk hc, hl, List.take_succ_cons, List.take_succ_cons, ih]
    congr 1
    refine byteOf_congr fun i hi => ?_
    simp only [List.getD_eq_getElem?_getD, List.getElem?_eq_getElem (show i < c.length by omega)]
    rfl

/-- The packed bytes are the whole ones and the padded rest. -/
theorem pack_split (bs : List Bool) (f : Bool) :
    pack bs f = (pack bs f).take (bs.length / 8) ++ pack (bs.drop (8 * (bs.length / 8))) f := by
  induction bs using chunk_induction with
  | short bs h => simp [Nat.div_eq_of_lt h]
  | chunk c bs hc ih =>
    have hl : (c ++ bs).length / 8 = bs.length / 8 + 1 := by rw [List.length_append, hc]; omega
    rw [pack_chunk hc, hl, List.take_succ_cons, List.cons_append]
    congr 1
    rw [show 8 * (bs.length / 8 + 1) = c.length + 8 * (bs.length / 8) by omega,
      List.drop_length_add_append]
    exact ih

/-! ## The bits ACC holds -/

@[simp] theorem Enc.held_length (e : Enc) : e.held.length = e.accN.toNat := by
  have := e.accN.isLt
  simp [Enc.held]; omega

/-- A bit put into a part-filled accumulator is the next bit held. -/
theorem Enc.held_put {e e' : Enc} {b : Bool} (h : e.accN ≠ 7#3)
    (ha : e'.acc = setBit e.acc (accPlace e.accN) b) (hn : e'.accN = e.accN + 1) :
    e'.held = e.held ++ [b] := by
  have hlt : e.accN.toNat < 7 := by
    have h1 := e.accN.isLt
    have h2 : e.accN.toNat ≠ 7 := fun he => h (BitVec.eq_of_toNat_eq (by simpa using he))
    omega
  have hn' : e'.accN.toNat = e.accN.toNat + 1 := by
    rw [hn, BitVec.toNat_add]; simp; omega
  refine List.ext_getElem? fun i => ?_
  unfold Enc.held
  rw [hn', ha]
  by_cases hi : i < e.accN.toNat
  · rw [List.getElem?_append_left (by simp; omega), List.getElem?_take_of_lt (by omega),
      List.getElem?_take_of_lt hi, byteBits_get _ (by omega), byteBits_get _ (by omega),
      setBit_getLsbD _ _ (by unfold accPlace; omega)]
    have : 7 - i ≠ accPlace e.accN := by unfold accPlace; omega
    simp [this]
  · by_cases hi2 : i = e.accN.toNat
    · subst hi2
      rw [List.getElem?_append_right (by simp), List.getElem?_take_of_lt (by omega),
        byteBits_get _ (by omega), setBit_getLsbD _ _ (by unfold accPlace; omega)]
      simp [accPlace, show min e.accN.toNat 8 = e.accN.toNat by omega]
    · rw [List.getElem?_eq_none (by simp; omega), List.getElem?_eq_none (by simp; omega)]

/-- The eighth bit completes the byte of the bits held. -/
theorem Enc.held_full {e : Enc} (h : e.accN = 7#3) (b f : Bool) :
    setBit e.acc 0 b = byteOf fun i => (e.held ++ [b]).getD i f := by
  have h7 : e.accN.toNat = 7 := by rw [h]; rfl
  refine BitVec.eq_of_getLsbD_eq fun j hj => ?_
  rw [byteOf_getLsbD _ hj, setBit_getLsbD _ _ (by omega), List.getD_eq_getElem?_getD]
  by_cases h0 : j = 0
  · subst h0
    rw [List.getElem?_append_right (by simp [h7])]
    simp [h7]
  · rw [List.getElem?_append_left (by simp [h7]; omega), Enc.held, h7,
      List.getElem?_take_of_lt (by omega), byteBits_get _ (by omega)]
    simp [h0, show 7 - (7 - j) = j by omega]

theorem Enc.clean_put {e e' : Enc} {b : Bool} (hc : e.accClean) (h : e.accN ≠ 7#3)
    (ha : e'.acc = setBit e.acc (accPlace e.accN) b) (hn : e'.accN = e.accN + 1) : e'.accClean := by
  have hlt : e.accN.toNat < 7 := by
    have h1 := e.accN.isLt
    have h2 : e.accN.toNat ≠ 7 := fun he => h (BitVec.eq_of_toNat_eq (by simpa using he))
    omega
  have hn' : e'.accN.toNat = e.accN.toNat + 1 := by
    rw [hn, BitVec.toNat_add]; simp; omega
  intro i hi
  rw [ha, setBit_getLsbD _ _ (by unfold accPlace; omega)]
  have : i.val ≠ accPlace e.accN := by unfold accPlace; omega
  rw [if_neg this]
  exact hc i (by omega)

/-- An accumulator with nothing below its bits, padded, is the padded byte of the bits held. -/
theorem Enc.padded {e : Enc} (hc : e.accClean) (f : Bool) :
    e.acc ||| padMask f e.accN = byteOf fun i => e.held.getD i f := by
  refine BitVec.eq_of_getLsbD_eq fun j hj => ?_
  have hlt := e.accN.isLt
  rw [byteOf_getLsbD _ hj, List.getD_eq_getElem?_getD, BitVec.getLsbD_or]
  have hp : (padMask f e.accN).getLsbD j = (f && decide (j + e.accN.toNat < 8)) := by
    cases f
    · simp [padMask]
    · have h1 : ∀ n < 8, ∀ j < 8, ((0xFF#8 : BitVec 8) >>> n).getLsbD j = decide (j + n < 8) := by decide
      simp only [padMask, if_true, Bool.true_and]
      exact h1 _ (by omega) _ hj
  rw [hp]
  by_cases hh : 7 - j < e.accN.toNat
  · rw [Enc.held, List.getElem?_take_of_lt hh, byteBits_get _ (by omega)]
    simp [show 7 - (7 - j) = j by omega, show ¬ (j + e.accN.toNat < 8) by omega]
  · rw [List.getElem?_eq_none (by simp; omega), hc ⟨j, hj⟩ (by simp; omega)]
    simp [show j + e.accN.toNat < 8 by omega]

end Sys2Proof.Machine
end

