-- ==== Sys2Proof/Laws/Encoder.lean ====
section
/-! SUPPORT. The packer over a sequence of bits: what it leaves when the sink accepts every byte, and where
it stops when the sink does not. -/

namespace Sys2Proof.Machine

theorem accN_lt_seven {n : BitVec 3} (h : n ≠ 7#3) : n.toNat < 7 := by
  have h1 := n.isLt
  have h2 : n.toNat ≠ 7 := fun he => h (BitVec.eq_of_toNat_eq (by simpa using he))
  omega

/-- Counting one more before counting `n`. -/
theorem count_succ (x : Word) {n m : Nat} (h : m = n + 1) :
    x + 1 + BitVec.ofNat 32 n = x + BitVec.ofNat 32 m := by
  rw [h, BitVec.ofNat_add, BitVec.add_assoc, BitVec.add_comm 1]
  rfl

/-- The eighth bit, when the sink accepts the byte. -/
theorem putBit_accepted {s : State} (h : s.enc.accN = 7#3) (b : Bool)
    (ha : s.env.encOut.answer = some .ok) : putBit b s = .go { s with
      enc := { s.enc with acc := 0, accN := 0, bits := s.enc.bits + 1, bytes := s.enc.bytes + 1 }
      env := { s.env with encOut := s.env.encOut.accepted (setBit s.enc.acc 0 b) } } := by
  simp [putBit_full h, offerEnc, ha]

@[simp] theorem Enc.held_empty {e : Enc} (h : e.accN = 0) : e.held = [] := by
  simp [Enc.held, h]

/-- The state after the bits of `B`, held bits included, when the sink has accepted the whole bytes. -/
def afterBits (s : State) (bs : List Bool) (acc : Byte) : State :=
  let B := s.enc.held ++ bs
  { s with
    enc := { s.enc with
      acc := acc, accN := BitVec.ofNat 3 B.length
      bits := s.enc.bits + BitVec.ofNat 32 bs.length
      bytes := s.enc.bytes + BitVec.ofNat 32 (B.length / 8) }
    env := { s.env with
      encOut := s.env.encOut.acceptedAll ((pack B false).take (B.length / 8)) } }

/-- The whole bytes of the bits go to the sink and the rest stays in ACC, when the sink accepts them. -/
theorem putBits_ok (bs : List Bool) (s : State) (hc : s.enc.accClean)
    (ha : s.env.encOut.acceptsNext ((s.enc.held ++ bs).length / 8)) :
    ∃ acc, Flow.each putBit bs s = .go (afterBits s bs acc)
      ∧ (afterBits s bs acc).enc.held
          = (s.enc.held ++ bs).drop (8 * ((s.enc.held ++ bs).length / 8))
      ∧ (afterBits s bs acc).enc.accClean := by
  induction bs generalizing s with
  | nil =>
    have hlt := s.enc.accN.isLt
    have h0 : s.enc.accN.toNat / 8 = 0 := by omega
    refine ⟨s.enc.acc, ?_, ?_, ?_⟩
    · simp [afterBits, h0]
    · have h1 : (afterBits s [] s.enc.acc).enc.held = s.enc.held := by
        simp only [afterBits, Enc.held, List.append_nil, List.length_take, byteBits_length, BitVec.toNat_ofNat]
        exact congrArg (fun n => (byteBits s.enc.acc).take n) (by omega)
      rw [h1, List.append_nil, Enc.held_length, h0]; rfl
    · simpa [afterBits] using hc
  | cons b bs ih =>
    by_cases h7 : s.enc.accN = 7#3
    · -- the eighth bit: a byte goes to the sink
      have hl7 : s.enc.held.length = 7 := by rw [Enc.held_length, h7]; rfl
      have hsplit : s.enc.held ++ b :: bs = (s.enc.held ++ [b]) ++ bs := by simp
      have hc8 : (s.enc.held ++ [b]).length = 8 := by simp [h7]
      have hlen : (s.enc.held ++ b :: bs).length / 8 = bs.length / 8 + 1 := by simp [h7]; omega
      rw [hlen, Sink.acceptsNext_succ _ (setBit s.enc.acc 0 b)] at ha
      rw [Flow.each_cons, putBit_accepted h7 b ha.1, Flow.bind_go]
      obtain ⟨acc, h1, h2, h3⟩ := ih
        { s with
          enc := { s.enc with acc := 0, accN := 0, bits := s.enc.bits + 1, bytes := s.enc.bytes + 1 }
          env := { s.env with encOut := s.env.encOut.accepted (setBit s.enc.acc 0 b) } }
        (by intro i _; simp) (by simpa [Enc.held] using ha.2)
      have hbits : s.enc.bits + 1 + BitVec.ofNat 32 bs.length
          = s.enc.bits + BitVec.ofNat 32 (b :: bs).length := count_succ _ rfl
      have hbytes : s.enc.bytes + 1 + BitVec.ofNat 32 (bs.length / 8)
          = s.enc.bytes + BitVec.ofNat 32 ((s.enc.held ++ b :: bs).length / 8) := count_succ _ hlen
      have hn : BitVec.ofNat 3 bs.length = BitVec.ofNat 3 (s.enc.held ++ b :: bs).length := by
        apply BitVec.eq_of_toNat_eq
        simp only [BitVec.toNat_ofNat, List.length_append, List.length_cons, hl7]
        omega
      have hst : afterBits
          { s with
            enc := { s.enc with acc := 0, accN := 0, bits := s.enc.bits + 1, bytes := s.enc.bytes + 1 }
            env := { s.env with encOut := s.env.encOut.accepted (setBit s.enc.acc 0 b) } } bs acc
          = afterBits s (b :: bs) acc := by
        unfold afterBits
        simp only [Enc.held_empty, List.nil_append, hbits, hbytes, hn, Sink.acceptedAll_cons]
        rw [hlen, hsplit, pack_chunk hc8, List.take_succ_cons, ← Enc.held_full h7]
      rw [hst] at h1 h2 h3
      refine ⟨acc, h1, ?_, h3⟩
      simp only [Enc.held_empty, List.nil_append] at h2
      rw [h2, hlen, hsplit, show 8 * (bs.length / 8 + 1) = (s.enc.held ++ [b]).length + 8 * (bs.length / 8)
        by rw [hc8]; omega, List.drop_length_add_append]
    · -- the bit stays in ACC
      have hheld := Enc.held_put (e := s.enc) (b := b)
        (e' := { s.enc with acc := setBit s.enc.acc (accPlace s.enc.accN) b, accN := s.enc.accN + 1,
                            bits := s.enc.bits + 1 }) h7 rfl rfl
      have hsplit : s.enc.held ++ b :: bs = (s.enc.held ++ [b]) ++ bs := by simp
      rw [Flow.each_cons, putBit_partial h7, Flow.bind_go]
      obtain ⟨acc, h1, h2, h3⟩ := ih
        { s with enc := { s.enc with acc := setBit s.enc.acc (accPlace s.enc.accN) b,
                                     accN := s.enc.accN + 1, bits := s.enc.bits + 1 } }
        (Enc.clean_put hc h7 rfl rfl) (by simpa only [hheld, ← hsplit] using ha)
      have hbits : s.enc.bits + 1 + BitVec.ofNat 32 bs.length
          = s.enc.bits + BitVec.ofNat 32 (b :: bs).length := count_succ _ rfl
      have hst : afterBits
          { s with enc := { s.enc with acc := setBit s.enc.acc (accPlace s.enc.accN) b,
                                       accN := s.enc.accN + 1, bits := s.enc.bits + 1 } } bs acc
          = afterBits s (b :: bs) acc := by
        unfold afterBits
        simp only [hheld, ← hsplit, hbits]
      rw [hst] at h1 h2 h3
      exact ⟨acc, h1, by simpa only [hheld, ← hsplit] using h2, h3⟩

/-- The state when the packer offers byte `j` of the bits and the sink has accepted those before. -/
def beforeByte (s : State) (bs : List Bool) (j : Nat) : State :=
  { s with
    enc := { s.enc with
      acc := 0, accN := 0
      bits := s.enc.bits + BitVec.ofNat 32 (8 * (j + 1) - s.enc.accN.toNat)
      bytes := s.enc.bytes + BitVec.ofNat 32 j }
    env := { s.env with
      encOut := s.env.encOut.acceptedAll ((pack (s.enc.held ++ bs) false).take j) } }

/-- When the sink does not accept byte `j`, the loop ends as that offer ends. -/
theorem putBits_stop (bs : List Bool) (s : State) (j : Nat) (hj : j < (s.enc.held ++ bs).length / 8)
    (ha : s.env.encOut.acceptsNext j) (hn : s.env.encOut.answerAt j ≠ some .ok) :
    ∃ byte, Flow.each putBit bs s = offerEnc byte (beforeByte s bs j) := by
  induction bs generalizing s j with
  | nil =>
    have hlt := s.enc.accN.isLt
    simp at hj
    omega
  | cons b bs ih =>
    by_cases h7 : s.enc.accN = 7#3
    · have hsplit : s.enc.held ++ b :: bs = (s.enc.held ++ [b]) ++ bs := by simp
      have hc8 : (s.enc.held ++ [b]).length = 8 := by simp [h7]
      have hlen : (s.enc.held ++ b :: bs).length / 8 = bs.length / 8 + 1 := by simp [h7]; omega
      rw [Flow.each_cons]
      cases j with
      | zero =>
        rw [putBit_full h7]
        refine ⟨setBit s.enc.acc 0 b, ?_⟩
        have hst : beforeByte s (b :: bs) 0
            = { s with enc := { s.enc with acc := 0, accN := 0, bits := s.enc.bits + 1 } } := by
          simp [beforeByte, h7]
        rw [hst]
        rw [Sink.answerAt_zero] at hn
        rcases hk : s.env.encOut.answer with _ | a
        · simp [offerEnc, hk]
        · cases a
          · exact absurd hk hn
          · simp [offerEnc, hk]
      | succ j =>
        rw [Sink.acceptsNext_succ _ (setBit s.enc.acc 0 b)] at ha
        rw [putBit_accepted h7 b ha.1, Flow.bind_go]
        obtain ⟨byte, h⟩ := ih
          { s with
            enc := { s.enc with acc := 0, accN := 0, bits := s.enc.bits + 1, bytes := s.enc.bytes + 1 }
            env := { s.env with encOut := s.env.encOut.accepted (setBit s.enc.acc 0 b) } } j
          (by simp [Enc.held]; omega) ha.2 (by simpa [Sink.answerAt_accepted] using hn)
        refine ⟨byte, h.trans (congrArg _ ?_)⟩
        have hbits : s.enc.bits + 1 + BitVec.ofNat 32 (8 * (j + 1) - (0 : BitVec 3).toNat)
            = s.enc.bits + BitVec.ofNat 32 (8 * (j + 1 + 1) - s.enc.accN.toNat) :=
          count_succ _ (by rw [h7]; show 8 * (j + 1 + 1) - 7 = 8 * (j + 1) - 0 + 1; omega)
        have hbytes : s.enc.bytes + 1 + BitVec.ofNat 32 j = s.enc.bytes + BitVec.ofNat 32 (j + 1) := count_succ _ rfl
        unfold beforeByte
        simp only [Enc.held_empty, List.nil_append, hbits, hbytes, Sink.acceptedAll_cons]
        rw [hsplit, pack_chunk hc8, List.take_succ_cons, ← Enc.held_full h7]
    · have hheld := Enc.held_put (e := s.enc) (b := b)
        (e' := { s.enc with acc := setBit s.enc.acc (accPlace s.enc.accN) b, accN := s.enc.accN + 1,
                            bits := s.enc.bits + 1 }) h7 rfl rfl
      have hsplit : s.enc.held ++ b :: bs = (s.enc.held ++ [b]) ++ bs := by simp
      rw [Flow.each_cons, putBit_partial h7, Flow.bind_go]
      obtain ⟨byte, h⟩ := ih
        { s with enc := { s.enc with acc := setBit s.enc.acc (accPlace s.enc.accN) b,
                                     accN := s.enc.accN + 1, bits := s.enc.bits + 1 } } j
        (by rw [hheld, ← hsplit]; exact hj) ha hn
      refine ⟨byte, h.trans (congrArg _ ?_)⟩
      have hlt := accN_lt_seven h7
      have hbits : s.enc.bits + 1 + BitVec.ofNat 32 (8 * (j + 1) - (s.enc.accN + 1).toNat)
          = s.enc.bits + BitVec.ofNat 32 (8 * (j + 1) - s.enc.accN.toNat) := by
        have h1 : (s.enc.accN + 1).toNat = s.enc.accN.toNat + 1 := by
          rw [BitVec.toNat_add]; simp; omega
        exact count_succ _ (by omega)
      unfold beforeByte
      simp only [hheld, ← hsplit, hbits]

/-- ENC.END's flush of the bits held: the padded byte is the packing of what is held. -/
theorem flushAcc_eq {s : State} (hc : s.enc.accClean) (h : s.enc.accN ≠ 0) :
    ∃ byte, pack s.enc.held s.glob.fill = [byte]
      ∧ flushAcc s = offerEnc byte { s with enc := { s.enc with acc := 0, accN := 0 } } := by
  have hn : s.enc.accN.toNat ≠ 0 := fun he => h (BitVec.eq_of_toNat_eq (by simpa using he))
  refine ⟨byteOf fun i => s.enc.held.getD i s.glob.fill, pack_short ?_ ?_ _, ?_⟩
  · intro he
    have := congrArg List.length he
    rw [Enc.held_length] at this
    exact hn this
  · have := s.enc.accN.isLt
    simp; omega
  · unfold flushAcc
    rw [if_neg (by simpa using h), Enc.padded hc]

theorem flushAcc_empty {s : State} (h : s.enc.accN = 0) : flushAcc s = .go s := by
  simp [flushAcc, h]

end Sys2Proof.Machine
end

