-- ==== Sys2Proof/Laws/Port.lean ====
section
/-! SUPPORT. Two runs of a command side by side; a command neither reads nor writes the port; a step as the
command it serves; runs of commands put together. -/

namespace Sys2Proof.Machine

/-! ## Two runs side by side -/

/-- Two flows end alike, in states related by `R`. -/
def Flow.Rel (R : State → State → Prop) : Flow → Flow → Prop
  | .go s, .go t => R s t
  | .ended s, .ended t => R s t
  | .fault r, .fault r' => r = r'
  | .go _, .ended _ => False
  | .go _, .fault _ => False
  | .ended _, .go _ => False
  | .ended _, .fault _ => False
  | .fault _, .go _ => False
  | .fault _, .ended _ => False

theorem Flow.Rel.bind {R : State → State → Prop} {x y : Flow} {f g : State → Flow} (h : Flow.Rel R x y)
    (hf : ∀ s t, R s t → Flow.Rel R (f s) (g t)) : Flow.Rel R (x.bind f) (y.bind g) := by
  cases x <;> cases y <;> first | exact h | exact hf _ _ h | exact h.elim

theorem Flow.Rel.each {α : Type} {R : State → State → Prop} {f : α → State → Flow}
    (hf : ∀ x s t, R s t → Flow.Rel R (f x s) (f x t)) (xs : List α) (s t : State) (h : R s t) :
    Flow.Rel R (Flow.each f xs s) (Flow.each f xs t) := by
  induction xs generalizing s t with
  | nil => exact h
  | cons x xs ih => exact (hf x s t h).bind ih

/-- Commands that end with a last `Respond(OK, 0)` end alike when their flows do. -/
theorem Flow.Rel.respondOk {R : State → State → Prop} {x y : Flow} (h : Flow.Rel R x y)
    (hr : ∀ s t, R s t → R (s.respond .ok 0) (t.respond .ok 0)) :
    (∃ s t, x.respondOk = .next s ∧ y.respondOk = .next t ∧ R s t)
      ∨ ∃ r, x.respondOk = .fault r ∧ y.respondOk = .fault r := by
  cases x <;> cases y <;> first
    | exact .inl ⟨_, _, rfl, rfl, hr _ _ h⟩
    | exact .inl ⟨_, _, rfl, rfl, h⟩
    | exact .inr ⟨_, rfl, by rw [show _ = _ from h]; rfl⟩
    | exact h.elim

/-! ## The port -/

@[simp] theorem State.withPort_withPort (s : State) (p q : List PortEvent) :
    (s.withPort p).withPort q = s.withPort q := rfl
@[simp] theorem State.withPort_self (s : State) : s.withPort s.env.port = s := rfl

/-- Two states that differ in the port only. -/
abbrev PortTo (p : List PortEvent) (s t : State) : Prop := t = s.withPort p

theorem offerEnc_port (b : Byte) (p : List PortEvent) (s t : State) (h : PortTo p s t) :
    Flow.Rel (PortTo p) (offerEnc b s) (offerEnc b t) := by
  subst h
  unfold offerEnc
  simp only [State.withPort]
  rcases s.env.encOut.answer with _ | a
  · rfl
  · cases a <;> rfl

theorem offerDec_port (b : Byte) (p : List PortEvent) (s t : State) (h : PortTo p s t) :
    Flow.Rel (PortTo p) (offerDec b s) (offerDec b t) := by
  subst h
  unfold offerDec
  simp only [State.withPort]
  rcases s.env.decOut.answer with _ | a
  · rfl
  · cases a <;> rfl

theorem putBit_port (p : List PortEvent) (b : Bool) (s t : State) (h : PortTo p s t) :
    Flow.Rel (PortTo p) (putBit b s) (putBit b t) := by
  subst h
  unfold putBit
  by_cases h7 : s.enc.accN = 7#3
  · simp only [State.withPort, h7, if_true]
    exact offerEnc_port _ _ _ _ rfl
  · simp only [State.withPort, h7, if_false]
    rfl

theorem walkBit_port (p : List PortEvent) (b : Bool) (s t : State) (h : PortTo p s t) :
    Flow.Rel (PortTo p) (walkBit b s) (walkBit b t) := by
  subst h
  unfold walkBit
  simp only [State.withPort]
  cases s.dec.node s.dec.cur with
  | none => rfl
  | some n =>
    cases n with
    | leaf sym => rfl
    | int l r =>
      by_cases hc : childOn b l r = Config.nil
      · simp only [hc, if_true]; rfl
      · simp only [hc, if_false, arrive]
        rw [show ∀ i, ({ s.dec with bits := s.dec.bits + 1, cur := childOn b l r } : Dec).node i
          = s.dec.node i from fun i => rfl]
        cases s.dec.node (childOn b l r) with
        | none => rfl
        | some n =>
          cases n with
          | int l' r' => rfl
          | leaf sym =>
            refine (offerDec_port sym p _ _ ?_).bind fun u v huv => ?_
            · rfl
            · subst huv; rfl

theorem flushAcc_port (p : List PortEvent) (s t : State) (h : PortTo p s t) :
    Flow.Rel (PortTo p) (flushAcc s) (flushAcc t) := by
  subst h
  unfold flushAcc
  by_cases h0 : s.enc.accN = 0#3
  · simp only [State.withPort, h0, if_true]; rfl
  · simp only [State.withPort, h0, if_false]
    exact offerEnc_port _ _ _ _ rfl

/-- What an instruction answers, the port put in place afterwards. -/
def outcomeWithPort (p : List PortEvent) :
    Host.Outcome State Fault Refusal → Host.Outcome State Fault Refusal
  | .next s => .next (s.withPort p)
  | .fault r => .fault r
  | .refused r => .refused r

theorem Flow.Rel.respondOk_port {p : List PortEvent} {x y : Flow} (h : Flow.Rel (PortTo p) x y) :
    y.respondOk = outcomeWithPort p x.respondOk := by
  rcases h.respondOk (fun s t hst => by subst hst; rfl) with ⟨s, t, hs, ht, hr⟩ | ⟨r, hs, ht⟩
  · rw [hs, ht, hr]; rfl
  · rw [hs, ht]; rfl

theorem guarded_port (i : Instr) (s : State) (p : List PortEvent)
    (x y : Host.Outcome State Fault Refusal) (h : y = outcomeWithPort p x) :
    guarded i (s.withPort p) y = outcomeWithPort p (guarded i s x) := by
  unfold guarded
  cases rangeFault i with
  | none => exact h
  | some why => rfl

/-- A command neither reads nor writes the port. -/
theorem exec_withPort (i : Instr) (s : State) (p : List PortEvent) :
    exec i (s.withPort p) = outcomeWithPort p (exec i s) := by
  cases i with
  | nop => rfl
  | srst => rfl
  | rdreg r =>
    simp only [exec, execRdreg]
    cases regOf r with
    | none => rfl
    | some reg => cases reg <;> rfl
  | wrreg r v =>
    simp only [exec, execWrreg]
    refine guarded_port _ _ _ _ _ ?_
    by_cases h : r = 1#5
    · simp only [h, if_true]; rfl
    · by_cases hi : s.dec.state = .idle <;> simp [h, hi, State.withPort] <;> rfl
  | encInit => rfl
  | ctClr =>
    by_cases hi : s.enc.state = .idle <;> simp [exec, execCtClr, hi, State.withPort] <;> rfl
  | ctOpen sym =>
    by_cases hi : s.enc.state = .idle <;> simp [exec, execCtOpen, hi, State.withPort] <;> rfl
  | ctPush b =>
    simp only [exec, execCtPush, State.withPort]
    by_cases hc : s.enc.state ≠ .idle ∨ s.enc.selV = false
    · simp only [hc, if_true]; rfl
    · by_cases hl : s.enc.len s.enc.selSym = Config.codeMax
      · simp only [hc, hl, if_true, if_false]; rfl
      · simp only [hc, hl, if_false]; rfl
  | encPut sym =>
    simp only [exec, execEncPut, State.withPort]
    by_cases ho : s.enc.state.isOpen = true
    swap
    · simp only [ho]; rfl
    · by_cases hl : s.enc.len sym = 0
      · simp only [ho, hl, if_true]; rfl
      · simp only [ho, hl, if_true, if_false]
        refine Flow.Rel.respondOk_port (Flow.Rel.each (putBit_port p) _ _ _ ?_)
        rfl
  | encEnd =>
    simp only [exec, execEncEnd, State.withPort]
    by_cases ho : s.enc.state.isOpen = true
    swap
    · simp only [ho]; rfl
    · simp only [ho, if_true]
      refine Flow.Rel.respondOk_port ((flushAcc_port p _ _ ?_).bind fun u v huv => ?_)
      · rfl
      · subst huv; rfl
  | encAbort =>
    simp only [exec, execEncAbort, State.withPort]
    by_cases ho : s.enc.state.isOpen = true <;> simp only [ho] <;> rfl
  | decInit => rfl
  | tLeaf idx sym =>
    simp only [exec, execTLeaf]
    refine guarded_port _ _ _ _ _ ?_
    by_cases hi : s.dec.state = .idle <;> simp [hi, State.withPort] <;> rfl
  | tInt idx l r =>
    simp only [exec, execTInt]
    refine guarded_port _ _ _ _ _ ?_
    by_cases hi : s.dec.state = .idle <;> simp [hi, State.withPort] <;> rfl
  | decPut byte n =>
    simp only [exec, execDecPut]
    refine guarded_port _ _ _ _ _ ?_
    simp only [State.withPort]
    by_cases ho : s.dec.state.isOpen = true
    swap
    · simp only [ho]; rfl
    · simp only [ho, if_true]
      refine Flow.Rel.respondOk_port (Flow.Rel.each (walkBit_port p) _ _ _ ?_)
      rfl
  | decEnd =>
    simp only [exec, execDecEnd, State.withPort]
    by_cases ho : s.dec.state.isOpen = true <;> simp only [ho] <;> rfl
  | decAbort =>
    simp only [exec, execDecAbort, State.withPort]
    by_cases ho : s.dec.state.isOpen = true <;> simp only [ho] <;> rfl

theorem exec_withPort_next {i : Instr} {s t : State} (h : exec i s = .next t) (p : List PortEvent) :
    exec i (s.withPort p) = .next (t.withPort p) := by
  rw [exec_withPort, h]; rfl

/-- A command leaves the port as it is. -/
theorem exec_keeps_port {i : Instr} {s t : State} (h : exec i s = .next t) : t.env.port = s.env.port := by
  have hp := exec_withPort i s s.env.port
  rw [State.withPort_self, h] at hp
  exact congrArg (fun o => match o with
    | Host.Outcome.next u => u.env.port
    | _ => s.env.port) hp

/-! ## Steps -/

/-- The step of a word that decodes to a command. -/
theorem step_cmd {s : State} {w : Word} {rest : List PortEvent} {i : Instr}
    (hp : s.env.port = .cmd w :: rest) (hs : s.env.stalled = false) (hd : decode w = .instr i) :
    step s = exec i (s.withPort rest) := by
  simp [step, serve, hp, hs, runWord, hd]

/-- The step of an illegal word. -/
theorem step_illegal {s : State} {w : Word} {rest : List PortEvent} {why : Illegal}
    (hp : s.env.port = .cmd w :: rest) (hs : s.env.stalled = false) (hd : decode w = .illegal why) :
    step s = .next ((s.withPort rest).refuse .illegal) := by
  simp [step, serve, hp, hs, runWord, hd]

/-- What a step can be. -/
theorem step_cases (s : State) :
    step s = .next s
      ∨ (∃ w rest, s.env.port = .cmd w :: rest ∧ s.env.stalled = false
          ∧ ((∃ i, decode w = .instr i ∧ step s = exec i (s.withPort rest))
            ∨ ∃ why, decode w = .illegal why ∧ step s = .next ((s.withPort rest).refuse .illegal)))
      ∨ (∃ rest, s.env.port = .rst :: rest ∧ step s = .next (s.withPort rest).hardReset)
      ∨ ∃ w n rest, s.env.port = .rstDuring w n :: rest ∧ s.env.stalled = false
          ∧ step s = abandon w n (s.withPort rest) := by
  rcases hp : s.env.port with _ | ⟨e, rest⟩
  · exact .inl (by simp [step, serve, hp])
  · cases e with
    | rst => exact .inr (.inr (.inl ⟨rest, rfl, by simp [step, serve, hp]⟩))
    | cmd w =>
      cases hs : s.env.stalled
      · refine .inr (.inl ⟨w, rest, rfl, rfl, ?_⟩)
        cases hd : decode w with
        | instr i => exact .inl ⟨i, rfl, step_cmd hp hs hd⟩
        | illegal why => exact .inr ⟨why, rfl, step_illegal hp hs hd⟩
      · exact .inl (by simp [step, serve, hp, hs])
    | rstDuring w n =>
      cases hs : s.env.stalled
      · exact .inr (.inr (.inr ⟨w, n, rest, rfl, rfl, by simp [step, serve, hp, hs]⟩))
      · exact .inl (by simp [step, serve, hp, hs])

/-- Whether a command is answered by the abandoned form of it at all depends on its walk only; when it is,
the block is in its reset state and the responses are as before. -/
theorem abandon_cases (w : Word) (n : Nat) (s : State) :
    (∃ r, abandon w n s = .fault r) ∨ (∃ r, abandon w n s = .refused r)
      ∨ ∃ t, abandon w n s = .next t ∧ t.glob = Global.reset ∧ t.enc = Enc.reset ∧ t.dec = Dec.reset
        ∧ t.env.port = s.env.port ∧ t.env.rsps = s.env.rsps ∧ t.env.stalled = s.env.stalled := by
  unfold abandon
  split
  · exact .inr (.inr ⟨_, rfl, rfl, rfl, rfl, rfl, rfl, rfl⟩)
  · exact .inl ⟨_, rfl⟩
  · exact .inr (.inl ⟨_, rfl⟩)

/-! ## Runs of commands -/

/-- A run whose first step answers a next state goes on from there. -/
theorem core_run_next (M : Host.Core) (k : Nat) {s u : M.State} (h : M.step s = .next u) :
    M.run (k + 1) s = M.run k u := by
  simp [Host.Core.run, h]

theorem run_next (k : Nat) {s u : State} (h : step s = .next u) :
    Host.Core.run Sys2Proof.core (k + 1) s = Host.Core.run Sys2Proof.core k u :=
  core_run_next Sys2Proof.core k h

theorem Issued.nil (s : State) : Issued s [] (s.withPort []) := rfl

/-- One command, then the others from where it ends. -/
theorem Issued.cons {s t u : State} {i : Instr} {is : List Instr} (hd : decode (encode i) = .instr i)
    (hs : s.env.stalled = false) (hx : exec i s = .next u) (ht : Issued u is t) : Issued s (i :: is) t := by
  have hstep : step (s.withPort ((i :: is).map fun i => .cmd (encode i)))
      = .next (u.withPort (is.map fun i => .cmd (encode i))) := by
    rw [step_cmd (s := s.withPort ((i :: is).map fun i => .cmd (encode i))) (i := i) rfl hs hd,
      State.withPort_withPort]
    exact exec_withPort_next hx _
  exact (run_next is.length hstep).trans ht

/-- The port a run begins with does not matter. -/
theorem Issued.withPort {s t : State} {is : List Instr} (p : List PortEvent) :
    Issued (s.withPort p) is t ↔ Issued s is t := Iff.rfl

end Sys2Proof.Machine
end

