-- ==== Sys2Proof/Laws/Exec.lean ====
section
/-! SUPPORT. What `exec` is for each command under the checks it makes: the refusals, and the body that runs
when the checks pass. -/

namespace Sys2Proof.Machine

theorem refuse_refusedWith (s : State) (c : Code) : RefusedWith s (s.refuse c) c := ⟨rfl, rfl, rfl, rfl⟩

theorem respond_answersOnly (s : State) (c : Code) (d : Word) : AnswersOnly s (s.respond c d) c d := rfl

theorem isOpen_iff {u : UnitState} : u.isOpen = true ↔ u = .idle ∨ u = .run := by cases u <;> decide

theorem isOpen_false_iff {u : UnitState} : u.isOpen = false ↔ u = .done ∨ u = .fail := by
  cases u <;> decide

theorem Enc.len_eq_zero {e : Enc} {x : Byte} : e.len x = 0 ↔ e.code x = [] := by simp [Enc.len]

theorem guarded_legal {i : Instr} (h : rangeFault i = none) (s : State)
    (body : Host.Outcome State Fault Refusal) : guarded i s body = body := by simp [guarded, h]

theorem guarded_illegal {i : Instr} (h : rangeFault i ≠ none) (s : State)
    (body : Host.Outcome State Fault Refusal) : guarded i s body = .next (s.refuse .illegal) := by
  unfold guarded
  cases hr : rangeFault i with
  | none => exact absurd hr h
  | some why => rfl

/-! ## The encoder -/

/-- An accepted ENC.PUT before its first bit. -/
def State.startPut (s : State) : State :=
  { s with enc := { s.enc with state := .run, syms := s.enc.syms + 1 } }

/-- An accepted ENC.END before its flush. -/
def State.startEnd (s : State) : State := { s with enc := { s.enc with lastN := s.enc.accN } }

/-- An ENC.END after its flush. -/
def State.finishEnd (s : State) : State := { s with enc := { s.enc with state := .done } }

theorem exec_encPut_run {s : State} {sym : Byte} (ho : s.enc.state.isOpen = true)
    (hc : s.enc.code sym ≠ []) :
    exec (.encPut sym) s = (Flow.each putBit (s.enc.code sym) s.startPut).respondOk := by
  have hl : s.enc.len sym ≠ 0 := fun h => hc (Enc.len_eq_zero.1 h)
  simp only [exec, execEncPut, ho, if_true, hl, if_false, State.startPut]

theorem exec_encPut_absent {s : State} {sym : Byte} (ho : s.enc.state.isOpen = true)
    (hc : s.enc.code sym = []) : exec (.encPut sym) s = .next (s.raiseEnc .unencodable sym false) := by
  have hl : s.enc.len sym = 0 := Enc.len_eq_zero.2 hc
  simp only [exec, execEncPut, ho, if_true, hl]

theorem exec_encPut_closed {s : State} {sym : Byte} (ho : s.enc.state.isOpen = false) :
    exec (.encPut sym) s = .next (s.refuse .seq) := by
  simp [exec, execEncPut, ho]

/-- ENC.PUT when the sink accepts every byte the code completes. -/
theorem exec_encPut_ok {s : State} {sym : Byte} (ho : s.enc.state.isOpen = true)
    (hc : s.enc.code sym ≠ []) (hcl : s.enc.accClean)
    (ha : s.env.encOut.acceptsNext ((s.enc.held ++ s.enc.code sym).length / 8)) :
    ∃ acc, exec (.encPut sym) s = .next ((afterBits s.startPut (s.enc.code sym) acc).respond .ok 0)
      ∧ (afterBits s.startPut (s.enc.code sym) acc).enc.held
          = (s.enc.held ++ s.enc.code sym).drop (8 * ((s.enc.held ++ s.enc.code sym).length / 8))
      ∧ (afterBits s.startPut (s.enc.code sym) acc).enc.accClean := by
  obtain ⟨acc, h1, h2, h3⟩ := putBits_ok (s.enc.code sym) s.startPut hcl ha
  exact ⟨acc, by rw [exec_encPut_run ho hc, h1, Flow.respondOk_go], h2, h3⟩

/-- ENC.PUT when the sink does not accept byte `j`: it ends as that offer ends. -/
theorem exec_encPut_stop {s : State} {sym : Byte} {j : Nat} (ho : s.enc.state.isOpen = true)
    (hc : s.enc.code sym ≠ []) (hj : j < (s.enc.held ++ s.enc.code sym).length / 8)
    (ha : s.env.encOut.acceptsNext j) (hn : s.env.encOut.answerAt j ≠ some .ok) :
    ∃ byte, exec (.encPut sym) s
      = (offerEnc byte (beforeByte s.startPut (s.enc.code sym) j)).respondOk := by
  obtain ⟨byte, h⟩ := putBits_stop (s.enc.code sym) s.startPut j hj ha hn
  exact ⟨byte, by rw [exec_encPut_run ho hc, h]⟩

/-- The sink as byte `j` is offered. -/
theorem beforeByte_answer (s : State) (bs : List Bool) {j : Nat} (hj : j < (s.enc.held ++ bs).length / 8) :
    (beforeByte s bs j).env.encOut.answer = s.env.encOut.answerAt j := by
  show (s.env.encOut.acceptedAll _).answer = _
  rw [Sink.answer_acceptedAll, List.length_take, pack_length, Nat.min_eq_left (by omega)]

theorem exec_encEnd_open {s : State} (ho : s.enc.state.isOpen = true) :
    exec .encEnd s = ((flushAcc s.startEnd).bind fun t => .go t.finishEnd).respondOk := by
  simp only [exec, execEncEnd, ho, if_true, State.startEnd, State.finishEnd]

theorem exec_encEnd_closed {s : State} (ho : s.enc.state.isOpen = false) :
    exec .encEnd s = .next (s.refuse .seq) := by
  simp [exec, execEncEnd, ho]

/-- ENC.END with an empty accumulator writes nothing. -/
theorem exec_encEnd_empty {s : State} (ho : s.enc.state.isOpen = true) (h : s.enc.accN = 0) :
    exec .encEnd s = .next (s.startEnd.finishEnd.respond .ok 0) := by
  rw [exec_encEnd_open ho, flushAcc_empty (s := s.startEnd) h, Flow.bind_go, Flow.respondOk_go]

/-- An ENC.END that holds bits, as its byte is offered. -/
def State.flushing (s : State) : State :=
  { s with enc := { s.enc with lastN := s.enc.accN, acc := 0, accN := 0 } }

/-- ENC.END with bits held offers their padded byte. -/
theorem exec_encEnd_flush {s : State} (ho : s.enc.state.isOpen = true) (h : s.enc.accN ≠ 0)
    (hc : s.enc.accClean) : ∃ byte, pack s.enc.held s.glob.fill = [byte]
      ∧ exec .encEnd s = ((offerEnc byte s.flushing).bind fun t => .go t.finishEnd).respondOk := by
  obtain ⟨byte, h1, h2⟩ := flushAcc_eq (s := s.startEnd) hc h
  exact ⟨byte, h1, by rw [exec_encEnd_open ho, h2]; rfl⟩

/-- ENC.END with bits held and a sink that never answers. -/
theorem exec_encEnd_silent {s : State} (ho : s.enc.state.isOpen = true) (h : s.enc.accN ≠ 0)
    (ha : s.env.encOut.answer = none) : exec .encEnd s = .next s.flushing.stall := by
  have hf : flushAcc s.startEnd = offerEnc (s.enc.acc ||| padMask s.glob.fill s.enc.accN) s.flushing :=
    if_neg h
  rw [exec_encEnd_open ho, hf, offerEnc_silent (s := s.flushing) ha]
  rfl

/-! ## The decoder -/

/-- An accepted DEC.PUT before its first bit. -/
def State.startWalk (s : State) : State := { s with dec := s.dec.startRun }

theorem rangeFault_decPut {byte : Byte} {n : BitVec 4} (h : n.toNat ≤ 8) :
    rangeFault (.decPut byte n) = none := by
  simpa [rangeFault] using h

theorem exec_decPut_run {s : State} {byte : Byte} {n : BitVec 4} (hn : n.toNat ≤ 8)
    (ho : s.dec.state.isOpen = true) : exec (.decPut byte n) s
      = (Flow.each walkBit (if s.dec.present then validBits byte n else []) s.startWalk).respondOk := by
  simp only [exec, execDecPut, guarded_legal (rangeFault_decPut hn), ho, if_true, State.startWalk]

theorem exec_decPut_closed {s : State} {byte : Byte} {n : BitVec 4} (hn : n.toNat ≤ 8)
    (ho : s.dec.state.isOpen = false) : exec (.decPut byte n) s = .next (s.refuse .seq) := by
  simp [exec, execDecPut, guarded_legal (rangeFault_decPut hn), ho]

theorem startWalk_cur {s : State} (hp : s.dec.present = true) : s.startWalk.dec.cur = s.dec.walkStart := by
  unfold State.startWalk Dec.startRun Dec.walkStart
  by_cases h : s.dec.state = .idle <;> simp [h, hp]

theorem startWalk_spells (s : State) (bits : List Bool) (i : Idx) :
    s.startWalk.dec.spells bits i = s.dec.spells bits i := by
  apply Dec.spells_congr <;> unfold State.startWalk Dec.startRun <;> split <;> rfl

theorem startWalk_follow (s : State) (bits : List Bool) (i : Idx) :
    s.startWalk.dec.follow bits i = s.dec.follow bits i := by
  apply Dec.follow_congr; unfold State.startWalk Dec.startRun; split <;> rfl

theorem startWalk_node (s : State) (i : Idx) : s.startWalk.dec.node i = s.dec.node i := by
  apply Dec.node_congr; unfold State.startWalk Dec.startRun; split <;> rfl

/-- An accepted DEC.PUT before its first bit, field by field. -/
theorem startWalk_dec {s : State} (ho : s.dec.state.isOpen = true) :
    s.startWalk.dec = { s.dec with state := .run, cur := s.startWalk.dec.cur } := by
  unfold State.startWalk Dec.startRun
  rcases isOpen_iff.1 ho with h | h
  · simp [h]
  · simp [h]
    rw [← h]

/-- The state after the first `n` bits of an accepted DEC.PUT, which spelled `xs` and left the cursor at
`cur`. -/
def State.walked (s : State) (n : Nat) (xs : List Byte) (cur : Idx) : State :=
  { s with
    dec := { s.dec with
      state := .run, cur := cur, bits := s.dec.bits + BitVec.ofNat 32 n
      syms := s.dec.syms + BitVec.ofNat 32 xs.length }
    env := { s.env with decOut := s.env.decOut.acceptedAll xs } }

theorem afterWalk_startWalk {s : State} (ho : s.dec.state.isOpen = true) (n : Nat) (xs : List Byte)
    (cur : Idx) : afterWalk s.startWalk n xs cur = s.walked n xs cur := by
  unfold afterWalk State.walked
  rw [startWalk_dec ho]
  rfl

@[simp] theorem walked_node (s : State) (n : Nat) (xs : List Byte) (cur i : Idx) :
    (s.walked n xs cur).dec.node i = s.dec.node i := Dec.node_congr rfl i

@[simp] theorem walked_follow (s : State) (n : Nat) (xs : List Byte) (cur i : Idx) (bits : List Bool) :
    (s.walked n xs cur).dec.follow bits i = s.dec.follow bits i :=
  Dec.follow_congr (d := s.dec) (d' := (s.walked n xs cur).dec) rfl bits i

@[simp] theorem walked_cur (s : State) (n : Nat) (xs : List Byte) (cur : Idx) :
    (s.walked n xs cur).dec.cur = cur := rfl

@[simp] theorem walked_answer (s : State) (n : Nat) (xs : List Byte) (cur : Idx) :
    (s.walked n xs cur).env.decOut.answer = s.env.decOut.answerAt xs.length :=
  Sink.answer_acceptedAll _ _

/-- DEC.PUT of bits that spell symbols the sink accepts. -/
theorem exec_decPut_ok {s : State} {byte : Byte} {n : BitVec 4} {xs : List Byte} {cur : Idx}
    (hn : n.toNat ≤ 8) (ho : s.dec.state.isOpen = true) (hp : s.dec.present = true)
    (h : s.dec.spells (validBits byte n) s.dec.walkStart = some (xs, cur))
    (ha : s.env.decOut.acceptsNext xs.length) :
    exec (.decPut byte n) s = .next ((s.walked (validBits byte n).length xs cur).respond .ok 0) := by
  rw [exec_decPut_run hn ho, hp, if_pos rfl, walkBits_ok _ s.startWalk _ ha, Flow.respondOk_go,
    afterWalk_startWalk ho]
  rw [startWalk_spells, startWalk_cur hp, h]

/-- DEC.PUT up to a bit that stops it. -/
theorem exec_decPut_until {s : State} {byte : Byte} {n : BitVec 4} {pre post : List Bool} {b : Bool}
    {xs : List Byte} {cur : Idx} (hn : n.toNat ≤ 8) (ho : s.dec.state.isOpen = true)
    (hp : s.dec.present = true) (hb : validBits byte n = pre ++ b :: post)
    (h : s.dec.spells pre s.dec.walkStart = some (xs, cur))
    (ha : s.env.decOut.acceptsNext xs.length) :
    exec (.decPut byte n) s
      = ((walkBit b (s.walked pre.length xs cur)).bind (Flow.each walkBit post)).respondOk := by
  rw [exec_decPut_run hn ho, hp, if_pos rfl, hb, walkBits_until s.startWalk _ ha, afterWalk_startWalk ho]
  rw [startWalk_spells, startWalk_cur hp, h]

theorem validBits_length {byte : Byte} {n : BitVec 4} (hn : n.toNat ≤ 8) :
    (validBits byte n).length = n.toNat := by
  simp [validBits]; omega

end Sys2Proof.Machine
end

