-- ==== Sys2Proof/Laws/Frames.lean ====
section
/-! SUPPORT. What the loops of ENC.PUT and DEC.PUT change and leave alone, whatever their sink
answers; every next state of every command that has more than one. -/

namespace Sys2Proof.Machine

/-! ## The encoder's loop -/

/-- `t` differs from `s` at most in the accumulator, the counters ENC_BITS and ENC_BYTES and ENC_OUT. -/
structure EncGoes (s t : State) : Prop where
  glob : t.glob = s.glob
  dec : t.dec = s.dec
  enc : t.enc = { s.enc with acc := t.enc.acc, accN := t.enc.accN, bits := t.enc.bits, bytes := t.enc.bytes }
  env : t.env = { s.env with encOut := t.env.encOut }

/-- The command ended at an offer to ENC_OUT: the accumulator is empty, and either the sink failed and ENC
is in FAIL with the response (IOERR, 0), or the sink never answers again and the block is stalled. -/
structure EncStops (s t : State) : Prop where
  glob : t.glob = s.glob
  dec : t.dec = s.dec
  how :
    (t.enc = { s.enc with
        state := .fail, cause := .ioerr, errSym := 0, errSrc := false
        acc := 0, accN := 0, bits := t.enc.bits, bytes := t.enc.bytes }
      ∧ t.env = { s.env with encOut := t.env.encOut, rsps := s.env.rsps ++ [⟨.ioerr, 0⟩] })
    ∨ (t.enc = { s.enc with acc := 0, accN := 0, bits := t.enc.bits, bytes := t.enc.bytes }
      ∧ t.env = { s.env with encOut := t.env.encOut, stalled := true } ∧ t.env.encOut.answer = none)

theorem EncGoes.refl (s : State) : EncGoes s s := ⟨rfl, rfl, rfl, rfl⟩

theorem EncGoes.trans {s t u : State} (h : EncGoes s t) (h' : EncGoes t u) : EncGoes s u := by
  refine ⟨h'.glob.trans h.glob, h'.dec.trans h.dec, ?_, ?_⟩
  · rw [h'.enc, h.enc]
  · rw [h'.env, h.env]

theorem EncGoes.stops {s t u : State} (h : EncGoes s t) (h' : EncStops t u) : EncStops s u := by
  refine ⟨h'.glob.trans h.glob, h'.dec.trans h.dec, ?_⟩
  rcases h'.how with ⟨he, hv⟩ | ⟨he, hv, hk⟩
  · exact .inl ⟨by rw [he, h.enc], by rw [hv, h.env]⟩
  · exact .inr ⟨by rw [he, h.enc], by rw [hv, h.env], hk⟩

/-- An offer made with the accumulator emptied. -/
theorem offerEnc_leaves (b : Byte) (s : State) (ha : s.enc.acc = 0) (hn : s.enc.accN = 0) :
    (offerEnc b s).Leaves (fun t => EncGoes s t ∧ t.enc.acc = 0 ∧ t.enc.accN = 0) (EncStops s) := by
  rcases offerEnc_cases b s with ⟨-, h⟩ | ⟨-, h⟩ | ⟨hk, h⟩ <;> rw [h]
  · exact ⟨⟨rfl, rfl, rfl, rfl⟩, ha, hn⟩
  · refine ⟨rfl, rfl, .inl ⟨?_, rfl⟩⟩
    simp [State.raiseEnc, State.respond, Enc.enterFail, ha, hn]
  · refine ⟨rfl, rfl, .inr ⟨?_, rfl, hk⟩⟩
    simp [State.stall, ← ha, ← hn]

theorem EncGoes.emptied (s : State) (bits : Word) :
    EncGoes s { s with enc := { s.enc with acc := 0, accN := 0, bits := bits } } := ⟨rfl, rfl, rfl, rfl⟩

/-- One bit: what is changed, and the bits of ACC below those gathered stay 0. -/
theorem putBit_leaves (b : Bool) (s : State) :
    (putBit b s).Leaves (fun t => EncGoes s t ∧ (s.enc.accClean → t.enc.accClean)) (EncStops s) := by
  by_cases h7 : s.enc.accN = 7#3
  · rw [putBit_full h7]
    refine (offerEnc_leaves _ { s with enc := { s.enc with acc := 0, accN := 0, bits := s.enc.bits + 1 } }
      rfl rfl).mono (fun t ht => ⟨(EncGoes.emptied s _).trans ht.1, fun _ i _ => ?_⟩)
      fun t ht => (EncGoes.emptied s _).stops ht
    rw [ht.2.1]; simp
  · rw [putBit_partial h7]
    exact ⟨⟨rfl, rfl, rfl, rfl⟩, fun hc => Enc.clean_put hc h7 rfl rfl⟩

/-- The loop over the bits of a code. -/
theorem putBits_leaves (bs : List Bool) (s : State) :
    (Flow.each putBit bs s).Leaves (fun t => EncGoes s t ∧ (s.enc.accClean → t.enc.accClean))
      (EncStops s) := by
  refine Flow.Leaves.each (fun b t ht => (putBit_leaves b t).mono (fun u hu => ?_) fun u hu => ?_) bs s
    ⟨EncGoes.refl s, id⟩
  · exact ⟨ht.1.trans hu.1, fun hc => hu.2 (ht.2 hc)⟩
  · exact ht.1.stops hu

/-! ## The ways ENC.PUT can end -/

/-- ENC.PUT: refused with SEQ; UNENCODABLE; or the bits went through the packer, and it is answered OK, or
stopped at an offer. -/
theorem encPut_cases {sym : Byte} {s t : State} (h : exec (.encPut sym) s = .next t) :
    (s.enc.state.isOpen = false ∧ t = s.refuse .seq)
    ∨ (s.enc.state.isOpen = true ∧ s.enc.code sym = [] ∧ t = s.raiseEnc .unencodable sym false)
    ∨ (s.enc.state.isOpen = true ∧ s.enc.code sym ≠ [] ∧
        ((∃ u, EncGoes s.startPut u ∧ (s.enc.accClean → u.enc.accClean) ∧ t = u.respond .ok 0)
          ∨ EncStops s.startPut t)) := by
  cases ho : s.enc.state.isOpen
  · rw [exec_encPut_closed ho] at h
    cases h; exact .inl ⟨rfl, rfl⟩
  · by_cases hc : s.enc.code sym = []
    · rw [exec_encPut_absent ho hc] at h
      cases h; exact .inr (.inl ⟨rfl, hc, rfl⟩)
    · rw [exec_encPut_run ho hc] at h
      refine .inr (.inr ⟨rfl, hc, ?_⟩)
      exact ((putBits_leaves (s.enc.code sym) s.startPut).mono (fun u hu => hu) fun u hu =>
        (.inr hu : (∃ v, EncGoes s.startPut v ∧ (s.enc.accClean → v.enc.accClean) ∧ u = v.respond .ok 0)
          ∨ EncStops s.startPut u)).respondOk (fun u hu => .inl ⟨u, hu.1, hu.2, rfl⟩) h

/-! ## The decoder's loop -/

/-- `t` differs from `s` at most in the cursor, the counters DEC_BITS and DEC_SYMS and DEC_OUT. -/
structure DecGoes (s t : State) : Prop where
  glob : t.glob = s.glob
  enc : t.enc = s.enc
  dec : t.dec = { s.dec with cur := t.dec.cur, bits := t.dec.bits, syms := t.dec.syms }
  env : t.env = { s.env with decOut := t.env.decOut }

/-- The command ended in the walk: MALFORMED at a node, or at an offer to DEC_OUT, where the sink failed
or never answers. -/
structure DecStops (s t : State) : Prop where
  glob : t.glob = s.glob
  enc : t.enc = s.enc
  how :
    (∃ b, t.dec = { s.dec with
        state := .fail, cause := .malformed, errNode := t.dec.cur, errBit := b, errSrc := false
        cur := t.dec.cur, bits := t.dec.bits, syms := t.dec.syms }
      ∧ t.env = { s.env with
          decOut := t.env.decOut, rsps := s.env.rsps ++ [⟨.malformed, decErrinfo t.dec.cur b false⟩] })
    ∨ (t.dec = { s.dec with
        state := .fail, cause := .ioerr, errNode := 0, errBit := false, errSrc := false
        cur := t.dec.cur, bits := t.dec.bits, syms := t.dec.syms }
      ∧ t.env = { s.env with decOut := t.env.decOut, rsps := s.env.rsps ++ [⟨.ioerr, 0⟩] })
    ∨ (t.dec = { s.dec with cur := t.dec.cur, bits := t.dec.bits, syms := t.dec.syms }
      ∧ t.env = { s.env with decOut := t.env.decOut, stalled := true } ∧ t.env.decOut.answer = none)

theorem DecGoes.refl (s : State) : DecGoes s s := ⟨rfl, rfl, rfl, rfl⟩

theorem DecGoes.trans {s t u : State} (h : DecGoes s t) (h' : DecGoes t u) : DecGoes s u := by
  refine ⟨h'.glob.trans h.glob, h'.enc.trans h.enc, ?_, ?_⟩
  · rw [h'.dec, h.dec]
  · rw [h'.env, h.env]

theorem DecGoes.stops {s t u : State} (h : DecGoes s t) (h' : DecStops t u) : DecStops s u := by
  refine ⟨h'.glob.trans h.glob, h'.enc.trans h.enc, ?_⟩
  rcases h'.how with ⟨b, he, hv⟩ | ⟨he, hv⟩ | ⟨he, hv, hk⟩
  · exact .inl ⟨b, by rw [he, h.dec], by rw [hv, h.env]⟩
  · exact .inr (.inl ⟨by rw [he, h.dec], by rw [hv, h.env]⟩)
  · exact .inr (.inr ⟨by rw [he, h.dec], by rw [hv, h.env], hk⟩)

theorem DecGoes.moved (s : State) (c : Idx) (bits : Word) :
    DecGoes s { s with dec := { s.dec with bits := bits, cur := c } } := ⟨rfl, rfl, rfl, rfl⟩

/-- What a DEC.PUT keeps of the cursor: it is not NIL, when neither it nor the root was. -/
abbrev CurKept (s t : State) : Prop :=
  s.dec.rootIdx ≠ Config.nil → s.dec.cur ≠ Config.nil → t.dec.cur ≠ Config.nil

theorem offerDec_leaves (b : Byte) (s : State) :
    (offerDec b s).Leaves (fun t => DecGoes s t ∧ t.dec.cur = s.dec.cur)
      (fun t => DecStops s t ∧ t.dec.cur = s.dec.cur) := by
  rcases offerDec_cases b s with ⟨-, h⟩ | ⟨-, h⟩ | ⟨hk, h⟩ <;> rw [h]
  · exact ⟨⟨rfl, rfl, rfl, rfl⟩, rfl⟩
  · exact ⟨⟨rfl, rfl, .inr (.inl ⟨rfl, rfl⟩)⟩, rfl⟩
  · exact ⟨⟨rfl, rfl, .inr (.inr ⟨rfl, rfl, hk⟩)⟩, rfl⟩

/-- One bit of the walk: what is changed, and the cursor stays off NIL. -/
theorem walkBit_leaves (b : Bool) (s : State) :
    (walkBit b s).Leaves (fun t => DecGoes s t ∧ CurKept s t) (fun t => DecStops s t ∧ CurKept s t) := by
  rcases walkBit_cases b s with h | h | ⟨c, h, hc⟩
  · rw [walkBit_unwritten h]; trivial
  · rw [walkBit_noChild h]
    exact ⟨⟨rfl, rfl, .inl ⟨b, rfl, rfl⟩⟩, fun _ h => h⟩
  · cases hn : s.dec.node c with
    | none =>
      rw [walkBit_child h, arrive_unwritten (by exact hn)]; trivial
    | some n =>
      cases n with
      | int l r =>
        rw [walkBit_inner h hn]
        exact ⟨DecGoes.moved s _ _, fun _ _ => hc⟩
      | leaf sym =>
        rw [walkBit_leaf h hn]
        refine ((offerDec_leaves sym
          { s with dec := { s.dec with bits := s.dec.bits + 1, cur := c } }).mono
          (fun t ht => ht) fun t ht => ⟨(DecGoes.moved s c _).stops ht.1, fun _ _ => by
            rw [ht.2]; exact hc⟩).bind fun t ht => ?_
        have hg := (DecGoes.moved s c (s.dec.bits + 1)).trans ht.1
        have hr : t.dec.rootIdx = s.dec.rootIdx := by rw [hg.dec]
        refine ⟨⟨hg.glob, hg.enc, ?_, hg.env⟩, fun h1 _ => ?_⟩
        · show ({ t.dec with cur := t.dec.rootIdx } : Dec) = _
          rw [hg.dec]
        · show t.dec.rootIdx ≠ _
          rw [hr]; exact h1

/-- The loop over the bits of a DEC.PUT. -/
theorem walkBits_leaves (bs : List Bool) (s : State) :
    (Flow.each walkBit bs s).Leaves (fun t => DecGoes s t ∧ CurKept s t)
      (fun t => DecStops s t ∧ CurKept s t) := by
  have hk : ∀ {t u : State}, DecGoes s t ∧ CurKept s t → CurKept t u → CurKept s u :=
    fun ht hu h1 h2 => hu (by rw [ht.1.dec]; exact h1) (ht.2 h1 h2)
  refine Flow.Leaves.each (fun b t ht => (walkBit_leaves b t).mono (fun u hu => ?_) fun u hu => ?_) bs s
    ⟨DecGoes.refl s, fun _ h => h⟩
  · exact ⟨ht.1.trans hu.1, hk ht hu.2⟩
  · exact ⟨ht.1.stops hu.1, hk ht hu.2⟩

/-- DEC.PUT: refused with ILLEGAL or SEQ; answered OK; or ended in the walk. -/
theorem decPut_cases {byte : Byte} {n : BitVec 4} {s t : State} (h : exec (.decPut byte n) s = .next t) :
    (8 < n.toNat ∧ t = s.refuse .illegal)
    ∨ (n.toNat ≤ 8 ∧ s.dec.state.isOpen = false ∧ t = s.refuse .seq)
    ∨ (n.toNat ≤ 8 ∧ s.dec.state.isOpen = true ∧
        ((∃ u, DecGoes s.startWalk u ∧ CurKept s.startWalk u ∧ t = u.respond .ok 0)
          ∨ (s.dec.present = true ∧ DecStops s.startWalk t ∧ CurKept s.startWalk t))) := by
  by_cases hn : n.toNat ≤ 8
  · cases ho : s.dec.state.isOpen
    · rw [exec_decPut_closed hn ho] at h
      cases h; exact .inr (.inl ⟨hn, rfl, rfl⟩)
    · refine .inr (.inr ⟨hn, rfl, ?_⟩)
      rw [exec_decPut_run hn ho] at h
      cases hp : s.dec.present
      · rw [hp] at h
        cases h
        exact .inl ⟨_, DecGoes.refl _, fun _ h => h, rfl⟩
      · rw [hp, if_pos rfl] at h
        exact ((walkBits_leaves (validBits byte n) s.startWalk).mono (fun u hu => hu) fun u hu =>
          (.inr ⟨rfl, hu.1, hu.2⟩ :
            (∃ v, DecGoes s.startWalk v ∧ CurKept s.startWalk v ∧ u = v.respond .ok 0)
              ∨ (true = true ∧ DecStops s.startWalk u ∧ CurKept s.startWalk u))).respondOk
          (fun u hu => .inl ⟨u, hu.1, hu.2, rfl⟩) h
  · have hr : rangeFault (.decPut byte n) ≠ none := by simpa [rangeFault] using hn
    have he : exec (.decPut byte n) s = .next (s.refuse .illegal) := by
      simp only [exec, execDecPut]; rw [guarded_illegal hr]
    rw [he] at h
    cases h; exact .inl ⟨by omega, rfl⟩

/-! ## The next states of the three commands, written out -/

/-- A state from its four parts. -/
theorem State.parts {t : State} {g : Global} {e : Enc} {d : Dec} {v : Env} (hg : t.glob = g)
    (he : t.enc = e) (hd : t.dec = d) (hv : t.env = v) : t = ⟨g, e, d, v⟩ := by
  cases t; subst hg he hd hv; rfl

/-- Every next state of an ENC.PUT: refused; absent symbol; answered OK; sink failure; sink silent. -/
theorem encPut_forms {sym : Byte} {s t : State} (h : exec (.encPut sym) s = .next t) :
    (s.enc.state.isOpen = false ∧ t = s.refuse .seq)
    ∨ (s.enc.state.isOpen = true ∧ s.enc.code sym = [] ∧ t = s.raiseEnc .unencodable sym false)
    ∨ (s.enc.state.isOpen = true ∧ s.enc.code sym ≠ [] ∧ ∃ bits bytes k,
        (∃ acc n, (s.enc.accClean → ({ s.enc with acc := acc, accN := n } : Enc).accClean)
          ∧ t = ⟨s.glob, { s.enc with state := .run, syms := s.enc.syms + 1, acc := acc, accN := n,
                                      bits := bits, bytes := bytes }, s.dec,
                 { s.env with encOut := k, rsps := s.env.rsps ++ [⟨.ok, 0⟩] }⟩)
        ∨ t = ⟨s.glob, { s.enc with state := .fail, cause := .ioerr, errSym := 0, errSrc := false,
                                    syms := s.enc.syms + 1, acc := 0, accN := 0, bits := bits,
                                    bytes := bytes }, s.dec,
               { s.env with encOut := k, rsps := s.env.rsps ++ [⟨.ioerr, 0⟩] }⟩
        ∨ (k.answer = none
          ∧ t = ⟨s.glob, { s.enc with state := .run, syms := s.enc.syms + 1, acc := 0, accN := 0,
                                      bits := bits, bytes := bytes }, s.dec,
                 { s.env with encOut := k, stalled := true }⟩)) := by
  rcases encPut_cases h with h | h | ⟨ho, hc, ⟨u, hg, hcl, rfl⟩ | hg⟩
  · exact .inl h
  · exact .inr (.inl h)
  · refine .inr (.inr ⟨ho, hc, u.enc.bits, u.enc.bytes, u.env.encOut, .inl ⟨u.enc.acc, u.enc.accN, hcl, ?_⟩⟩)
    refine State.parts hg.glob hg.enc hg.dec ?_
    show ({ u.env with rsps := u.env.rsps ++ [⟨.ok, 0⟩] } : Env) = _
    rw [hg.env]; rfl
  · refine .inr (.inr ⟨ho, hc, t.enc.bits, t.enc.bytes, t.env.encOut, .inr ?_⟩)
    rcases hg.how with ⟨he, hv⟩ | ⟨he, hv, hk⟩
    · exact .inl (State.parts hg.glob he hg.dec hv)
    · exact .inr ⟨hk, State.parts hg.glob he hg.dec hv⟩

/-- Every next state of an ENC.END: refused; answered OK; sink failure; sink silent. -/
theorem encEnd_forms {s t : State} (h : exec .encEnd s = .next t) :
    (s.enc.state.isOpen = false ∧ t = s.refuse .seq)
    ∨ (s.enc.state.isOpen = true ∧ ∃ bytes k,
        (∃ acc, (s.enc.accClean → acc = 0)
          ∧ t = ⟨s.glob, { s.enc with state := .done, lastN := s.enc.accN, acc := acc, accN := 0,
                                      bytes := bytes }, s.dec,
                 { s.env with encOut := k, rsps := s.env.rsps ++ [⟨.ok, 0⟩] }⟩)
        ∨ t = ⟨s.glob, { s.enc with state := .fail, cause := .ioerr, errSym := 0, errSrc := false,
                                    lastN := s.enc.accN, acc := 0, accN := 0, bytes := bytes }, s.dec,
               { s.env with encOut := k, rsps := s.env.rsps ++ [⟨.ioerr, 0⟩] }⟩
        ∨ (k.answer = none
          ∧ t = ⟨s.glob, { s.enc with lastN := s.enc.accN, acc := 0, accN := 0, bytes := bytes }, s.dec,
                 { s.env with encOut := k, stalled := true }⟩)) := by
  cases ho : s.enc.state.isOpen
  · rw [exec_encEnd_closed ho] at h
    cases h; exact .inl ⟨rfl, rfl⟩
  · refine .inr ⟨rfl, ?_⟩
    by_cases h0 : s.enc.accN = 0
    · rw [exec_encEnd_empty ho h0] at h
      cases h
      refine ⟨s.enc.bytes, s.env.encOut, .inl ⟨s.enc.acc, fun hc => ?_, ?_⟩⟩
      · refine BitVec.eq_of_getLsbD_eq fun i hi => ?_
        rw [hc ⟨i, hi⟩ (by rw [h0]; exact hi)]; simp
      · simp [State.respond, State.finishEnd, State.startEnd, h0]
    · have hne : s.enc.accN ≠ 0#3 := h0
      simp only [exec, execEncEnd, ho, if_true, flushAcc, if_neg hne] at h
      rcases offerEnc_cases (s.enc.acc ||| padMask s.glob.fill s.enc.accN) s.flushing
        with ⟨-, hf⟩ | ⟨-, hf⟩ | ⟨hk, hf⟩ <;> simp only [State.flushing] at hf <;> rw [hf] at h <;> cases h
      · exact ⟨_, _, .inl ⟨0, fun _ => rfl, rfl⟩⟩
      · exact ⟨_, _, .inr (.inl rfl)⟩
      · exact ⟨_, _, .inr (.inr ⟨hk, rfl⟩)⟩

/-- Every next state of a DEC.PUT: illegal operand; refused; answered OK; malformed; sink failure; sink
silent. -/
theorem decPut_forms {byte : Byte} {n : BitVec 4} {s t : State} (h : exec (.decPut byte n) s = .next t) :
    (8 < n.toNat ∧ t = s.refuse .illegal)
    ∨ (n.toNat ≤ 8 ∧ s.dec.state.isOpen = false ∧ t = s.refuse .seq)
    ∨ (n.toNat ≤ 8 ∧ s.dec.state.isOpen = true ∧ ∃ cur bits syms k,
        (s.dec.rootIdx ≠ Config.nil → s.dec.cur ≠ Config.nil → cur ≠ Config.nil)
        ∧ (t = ⟨s.glob, s.enc, { s.dec with state := .run, cur := cur, bits := bits, syms := syms },
                { s.env with decOut := k, rsps := s.env.rsps ++ [⟨.ok, 0⟩] }⟩
          ∨ (∃ b, t = ⟨s.glob, s.enc, { s.dec with state := .fail, cause := .malformed, errNode := cur,
                                                   errBit := b, errSrc := false, cur := cur,
                                                   bits := bits, syms := syms },
                       { s.env with decOut := k,
                                    rsps := s.env.rsps ++ [⟨.malformed, decErrinfo cur b false⟩] }⟩)
          ∨ t = ⟨s.glob, s.enc, { s.dec with state := .fail, cause := .ioerr, errNode := 0,
                                             errBit := false, errSrc := false, cur := cur,
                                             bits := bits, syms := syms },
                 { s.env with decOut := k, rsps := s.env.rsps ++ [⟨.ioerr, 0⟩] }⟩
          ∨ (k.answer = none
            ∧ t = ⟨s.glob, s.enc, { s.dec with state := .run, cur := cur, bits := bits, syms := syms },
                   { s.env with decOut := k, stalled := true }⟩))) := by
  have hcur : s.dec.rootIdx ≠ Config.nil → s.dec.cur ≠ Config.nil → s.startWalk.dec.cur ≠ Config.nil := by
    intro h1 h2
    unfold State.startWalk Dec.startRun
    split
    · show (if s.dec.present then s.dec.rootIdx else s.dec.cur) ≠ _
      split
      · exact h1
      · exact h2
    · exact h2
  have hroot : s.startWalk.dec.rootIdx = s.dec.rootIdx := by
    unfold State.startWalk Dec.startRun; split <;> rfl
  rcases decPut_cases h with h | h | ⟨hn, ho, ⟨u, hg, hk, rfl⟩ | ⟨-, hg, hk⟩⟩
  · exact .inl h
  · exact .inr (.inl h)
  · refine .inr (.inr ⟨hn, ho, u.dec.cur, u.dec.bits, u.dec.syms, u.env.decOut, fun h1 h2 =>
      hk (by rw [hroot]; exact h1) (hcur h1 h2), .inl ?_⟩)
    refine State.parts hg.glob hg.enc ?_ ?_
    · exact hg.dec.trans (by rw [startWalk_dec ho])
    · show ({ u.env with rsps := u.env.rsps ++ [⟨.ok, 0⟩] } : Env) = _
      rw [hg.env]; rfl
  · refine .inr (.inr ⟨hn, ho, t.dec.cur, t.dec.bits, t.dec.syms, t.env.decOut, fun h1 h2 =>
      hk (by rw [hroot]; exact h1) (hcur h1 h2), .inr ?_⟩)
    rcases hg.how with ⟨b, he, hv⟩ | ⟨he, hv⟩ | ⟨he, hv, ha⟩
    · exact .inl ⟨b, State.parts hg.glob hg.enc (he.trans (by rw [startWalk_dec ho])) hv⟩
    · exact .inr (.inl (State.parts hg.glob hg.enc (he.trans (by rw [startWalk_dec ho])) hv))
    · exact .inr (.inr ⟨ha, State.parts hg.glob hg.enc (he.trans (by rw [startWalk_dec ho])) hv⟩)

/-! ## The commands that can stall -/

/-- Whenever a command stalls the block, no response is given and the sink of its unit never answers
again. -/
theorem exec_stalls {i : Instr} {s t : State} (hs : s.env.stalled = false) (h : exec i s = .next t)
    (ht : t.env.stalled = true) :
    t.env.rsps = s.env.rsps ∧ ((i.isEnc = true ∧ t.env.encOut.answer = none)
      ∨ (i.isDec = true ∧ t.env.decOut.answer = none)) := by
  cases i
  case encPut sym =>
    rcases encPut_forms h with ⟨-, rfl⟩ | ⟨-, -, rfl⟩ | ⟨-, -, _, _, _, ⟨_, _, -, rfl⟩ | rfl | ⟨hk, rfl⟩⟩
    case inr.inr.inr.inr => exact ⟨rfl, .inl ⟨rfl, hk⟩⟩
    all_goals simp_all [State.refuse, State.raiseEnc, State.respond]
  case encEnd =>
    rcases encEnd_forms h with ⟨-, rfl⟩ | ⟨-, _, _, ⟨_, -, rfl⟩ | rfl | ⟨hk, rfl⟩⟩
    case inr.inr.inr => exact ⟨rfl, .inl ⟨rfl, hk⟩⟩
    all_goals simp_all [State.refuse, State.respond]
  case decPut byte n =>
    rcases decPut_forms h with ⟨-, rfl⟩ | ⟨-, -, rfl⟩
      | ⟨-, -, _, _, _, _, -, rfl | ⟨_, rfl⟩ | rfl | ⟨hk, rfl⟩⟩
    case inr.inr.inr.inr.inr => exact ⟨rfl, .inr ⟨rfl, hk⟩⟩
    all_goals simp_all [State.refuse, State.respond]
  all_goals
    simp only [exec, execNop, execSrst, execRdreg, execWrreg, execEncInit, execCtClr, execCtOpen,
      execCtPush, execEncAbort, execDecInit, execTLeaf, execTInt, execDecEnd, execDecAbort, guarded] at h
    (repeat' split at h) <;> cases h <;> simp_all [State.refuse, State.respond, State.resetBlock]

/-! ## The next states of the other commands -/

theorem guarded_cases (i : Instr) (s : State) (body : Host.Outcome State Fault Refusal) :
    (i.WellFormed ∧ guarded i s body = body)
      ∨ (¬ i.WellFormed ∧ guarded i s body = .next (s.refuse .illegal)) := by
  by_cases h : rangeFault i = none
  · exact .inl ⟨(rangeFault_none_iff i).1 h, guarded_legal h s body⟩
  · exact .inr ⟨fun hw => h ((rangeFault_none_iff i).2 hw), guarded_illegal h s body⟩

theorem rdreg_forms {r : RegNum} {s t : State} (h : exec (.rdreg r) s = .next t) :
    (∃ reg, regOf r = some reg ∧ t = s.respond .ok (s.regValue reg))
      ∨ (regOf r = none ∧ t = s.refuse .illegal) := by
  simp only [exec, execRdreg] at h
  cases hr : regOf r with
  | none => rw [hr] at h; cases h; exact .inr ⟨rfl, rfl⟩
  | some reg => rw [hr] at h; cases h; exact .inl ⟨reg, rfl, rfl⟩

theorem wrreg_forms {r : RegNum} {v : BitVec 16} {s t : State} (h : exec (.wrreg r v) s = .next t) :
    (¬ (Instr.wrreg r v).WellFormed ∧ t = s.refuse .illegal)
    ∨ (r = 1#5 ∧ v.toNat < 8 ∧ t = { s with glob := s.glob.writeCtrl v }.respond .ok 0)
    ∨ (r = 3#5 ∧ v.toNat < 1024 ∧ v.toNat % 512 ≠ 511 ∧
        ((s.dec.state ≠ .idle ∧ t = s.refuse .seq)
          ∨ (s.dec.state = .idle ∧ t = { s with dec := s.dec.writeTroot v }.respond .ok 0))) := by
  simp only [exec, execWrreg] at h
  rcases guarded_cases (.wrreg r v) s _ with ⟨hw, hg⟩ | ⟨hw, hg⟩ <;> rw [hg] at h
  · simp only [Instr.WellFormed, Instr.wellFormed, decide_eq_true_eq] at hw
    rcases hw with ⟨hr, hv⟩ | ⟨hr, hv, hv'⟩
    · rw [if_pos hr] at h
      cases h; exact .inr (.inl ⟨hr, hv, rfl⟩)
    · rw [if_neg (by rw [hr]; decide)] at h
      refine .inr (.inr ⟨hr, hv, hv', ?_⟩)
      by_cases hi : s.dec.state = .idle
      · rw [if_neg (by simpa using hi)] at h
        cases h; exact .inr ⟨hi, rfl⟩
      · rw [if_pos hi] at h
        cases h; exact .inl ⟨hi, rfl⟩
  · cases h; exact .inl ⟨hw, rfl⟩

theorem ctClr_forms {s t : State} (h : exec .ctClr s = .next t) :
    (s.enc.state ≠ .idle ∧ t = s.refuse .seq)
      ∨ (s.enc.state = .idle ∧ t = { s with enc := { s.enc with ct := [], selV := false } }.respond .ok 0) := by
  simp only [exec, execCtClr] at h
  split at h <;> cases h
  · exact .inl ⟨‹_›, rfl⟩
  · exact .inr ⟨not_not.1 ‹_›, rfl⟩

theorem ctOpen_forms {sym : Byte} {s t : State} (h : exec (.ctOpen sym) s = .next t) :
    (s.enc.state ≠ .idle ∧ t = s.refuse .seq)
      ∨ (s.enc.state = .idle
        ∧ t = { s with enc := { s.enc.setCode sym [] with selSym := sym, selV := true } }.respond .ok 0) := by
  simp only [exec, execCtOpen] at h
  split at h <;> cases h
  · exact .inl ⟨‹_›, rfl⟩
  · exact .inr ⟨not_not.1 ‹_›, rfl⟩

theorem ctPush_forms {b : Bool} {s t : State} (h : exec (.ctPush b) s = .next t) :
    ((s.enc.state ≠ .idle ∨ s.enc.selV = false) ∧ t = s.refuse .seq)
    ∨ (s.enc.state = .idle ∧ s.enc.selV = true ∧
        ((s.enc.len s.enc.selSym = 255 ∧ t = s.refuse .overflow)
          ∨ (s.enc.len s.enc.selSym ≠ 255 ∧ t = { s with
              enc := s.enc.setCode s.enc.selSym (s.enc.code s.enc.selSym ++ [b]) }.respond .ok 0))) := by
  simp only [exec, execCtPush] at h
  split at h
  · cases h; exact .inl ⟨‹_›, rfl⟩
  · next hn =>
    rw [not_or] at hn
    refine .inr ⟨by simpa using hn.1, by simpa using hn.2, ?_⟩
    split at h <;> cases h
    · exact .inl ⟨‹_›, rfl⟩
    · exact .inr ⟨‹_›, rfl⟩

theorem encAbort_forms {s t : State} (h : exec .encAbort s = .next t) :
    (s.enc.state.isOpen = false ∧ t = s.refuse .seq)
      ∨ (s.enc.state.isOpen = true ∧ t = { s with enc := s.enc.enterFail .ioerr 0 true }.respond .ok 0) := by
  simp only [exec, execEncAbort] at h
  split at h <;> cases h
  · exact .inr ⟨‹_›, rfl⟩
  · exact .inl ⟨Bool.eq_false_iff.2 ‹_›, rfl⟩

theorem tLeaf_forms {idx : Idx} {sym : Byte} {s t : State} (h : exec (.tLeaf idx sym) s = .next t) :
    (idx = Config.nil ∧ t = s.refuse .illegal)
    ∨ (idx ≠ Config.nil ∧
        ((s.dec.state ≠ .idle ∧ t = s.refuse .seq)
          ∨ (s.dec.state = .idle ∧ t = { s with dec := s.dec.setNode idx (.leaf sym) }.respond .ok 0))) := by
  simp only [exec, execTLeaf] at h
  by_cases hn : idx = Config.nil
  · rw [guarded_illegal (by simp [rangeFault, hn])] at h
    cases h; exact .inl ⟨hn, rfl⟩
  · rw [guarded_legal (by simp [rangeFault, hn])] at h
    refine .inr ⟨hn, ?_⟩
    split at h <;> cases h
    · exact .inl ⟨‹_›, rfl⟩
    · exact .inr ⟨not_not.1 ‹_›, rfl⟩

theorem tInt_forms {idx l r : Idx} {s t : State} (h : exec (.tInt idx l r) s = .next t) :
    (idx = Config.nil ∧ t = s.refuse .illegal)
    ∨ (idx ≠ Config.nil ∧
        ((s.dec.state ≠ .idle ∧ t = s.refuse .seq)
          ∨ (s.dec.state = .idle ∧ t = { s with dec := s.dec.setNode idx (.int l r) }.respond .ok 0))) := by
  simp only [exec, execTInt] at h
  by_cases hn : idx = Config.nil
  · rw [guarded_illegal (by simp [rangeFault, hn])] at h
    cases h; exact .inl ⟨hn, rfl⟩
  · rw [guarded_legal (by simp [rangeFault, hn])] at h
    refine .inr ⟨hn, ?_⟩
    split at h <;> cases h
    · exact .inl ⟨‹_›, rfl⟩
    · exact .inr ⟨not_not.1 ‹_›, rfl⟩

theorem decEnd_forms {s t : State} (h : exec .decEnd s = .next t) :
    (s.dec.state.isOpen = false ∧ t = s.refuse .seq)
      ∨ (s.dec.state.isOpen = true
        ∧ t = { s with dec := { s.dec with trunc := s.dec.midCode, state := .done } }.respond .ok 0) := by
  simp only [exec, execDecEnd] at h
  split at h <;> cases h
  · exact .inr ⟨‹_›, rfl⟩
  · exact .inl ⟨Bool.eq_false_iff.2 ‹_›, rfl⟩

theorem decAbort_forms {s t : State} (h : exec .decAbort s = .next t) :
    (s.dec.state.isOpen = false ∧ t = s.refuse .seq)
      ∨ (s.dec.state.isOpen = true ∧ t = { s with dec := s.dec.enterFail .ioerr 0 false true }.respond .ok 0) := by
  simp only [exec, execDecAbort] at h
  split at h <;> cases h
  · exact .inr ⟨‹_›, rfl⟩
  · exact .inl ⟨Bool.eq_false_iff.2 ‹_›, rfl⟩

/-- The commands with one next state. -/
theorem nop_form {s t : State} (h : exec .nop s = .next t) : t = s.respond .ok 0 := by cases h; rfl
theorem srst_form {s t : State} (h : exec .srst s = .next t) : t = s.resetBlock.respond .ok 0 := by
  cases h; rfl
theorem encInit_form {s t : State} (h : exec .encInit s = .next t) :
    t = { s with enc := s.enc.restart }.respond .ok 0 := by cases h; rfl
theorem decInit_form {s t : State} (h : exec .decInit s = .next t) :
    t = { s with dec := s.dec.restart }.respond .ok 0 := by cases h; rfl

/-! ## Faults -/

theorem walkBit_fault {b : Bool} {s : State} {r : Fault} (h : walkBit b s = .fault r) :
    ∃ j, r = .unwrittenNode j ∧ s.dec.node j = none := by
  rcases walkBit_cases b s with hn | hn | ⟨c, hf, -⟩
  · rw [walkBit_unwritten hn] at h
    cases h; exact ⟨_, rfl, hn⟩
  · rw [walkBit_noChild hn] at h; cases h
  · cases hn : s.dec.node c with
    | none =>
      rw [walkBit_child hf, arrive_unwritten (by exact hn)] at h
      cases h; exact ⟨_, rfl, hn⟩
    | some n =>
      cases n with
      | int l r' => rw [walkBit_inner hf hn] at h; cases h
      | leaf sym =>
        rw [walkBit_leaf hf hn] at h
        rcases offerDec_cases sym { s with dec := { s.dec with bits := s.dec.bits + 1, cur := c } }
          with ⟨-, ho⟩ | ⟨-, ho⟩ | ⟨-, ho⟩ <;> rw [ho] at h <;> cases h

theorem walkBits_fault {bs : List Bool} {s : State} {r : Fault} (h : Flow.each walkBit bs s = .fault r) :
    ∃ j, r = .unwrittenNode j ∧ s.dec.node j = none := by
  induction bs generalizing s with
  | nil => cases h
  | cons b bs ih =>
    rw [Flow.each_cons] at h
    have hl := walkBit_leaves b s
    cases hw : walkBit b s with
    | ended t => rw [hw] at h; cases h
    | fault r' =>
      rw [hw] at h
      cases h
      exact walkBit_fault hw
    | go t =>
      rw [hw] at h hl
      obtain ⟨j, hj, hn⟩ := ih h
      refine ⟨j, hj, ?_⟩
      rw [← hn]
      exact (Dec.node_congr (by rw [hl.1.dec]) j).symm

theorem putBits_noFault (bs : List Bool) (s : State) (r : Fault) : Flow.each putBit bs s ≠ .fault r := by
  induction bs generalizing s with
  | nil => intro h; cases h
  | cons b bs ih =>
    intro h
    rw [Flow.each_cons] at h
    cases hw : putBit b s with
    | ended t => rw [hw] at h; cases h
    | go t => rw [hw] at h; exact ih t h
    | fault r' =>
      by_cases h7 : s.enc.accN = 7#3
      · rw [putBit_full h7] at hw
        rcases offerEnc_cases (setBit s.enc.acc 0 b)
          { s with enc := { s.enc with acc := 0, accN := 0, bits := s.enc.bits + 1 } }
          with ⟨-, ho⟩ | ⟨-, ho⟩ | ⟨-, ho⟩ <;> rw [ho] at hw <;> cases hw
      · rw [putBit_partial h7] at hw; cases hw

end Sys2Proof.Machine
end

