-- ==== Sys2Proof/Laws/PerInstr.lean ====
section
/-! SUPPORT. Statements made for each command: its word decodes to it (spec/30_encoding.md R81 to R87). -/

namespace Sys2Proof.Laws.WordDecodes

/-- The word of a well-formed command decodes to that command. -/
def Statement (i : Instr) : Prop := i.WellFormed → decode (encode i) = .instr i

/-- A command of format Z is accepted: its payload is 0. -/
theorem zeros_formatZ (op : BitVec 5) : zeros (formatZ op) 0 27 = true := by
  rw [zeros_iff, formatZ_toNat]; omega

theorem op_formatZ (op : BitVec 5) : (field (formatZ op) 27 5).toNat = op.toNat := by
  have := op.isLt
  rw [field_toNat, formatZ_toNat]; omega

theorem op_formatS (op : BitVec 5) (sym : Byte) : (field (formatS op sym) 27 5).toNat = op.toNat := by
  have h1 := op.isLt
  have h2 := sym.isLt
  rw [field_toNat, formatS_toNat]; omega

theorem zeros_formatS (op : BitVec 5) (sym : Byte) : zeros (formatS op sym) 8 19 = true := by
  have h2 := sym.isLt
  rw [zeros_iff, formatS_toNat]; omega

theorem sym_formatS (op : BitVec 5) (sym : Byte) : field (formatS op sym) 0 8 = sym := by
  have h2 := sym.isLt
  rw [field_eq_iff, formatS_toNat]; omega

theorem nop : Statement .nop := fun _ => by decide
theorem srst : Statement .srst := fun _ => by decide
theorem encInit : Statement .encInit := fun _ => by decide
theorem ctClr : Statement .ctClr := fun _ => by decide
theorem encEnd : Statement .encEnd := fun _ => by decide
theorem encAbort : Statement .encAbort := fun _ => by decide
theorem decInit : Statement .decInit := fun _ => by decide
theorem decEnd : Statement .decEnd := fun _ => by decide
theorem decAbort : Statement .decAbort := fun _ => by decide
theorem ctPush (b : Bool) : Statement (.ctPush b) := fun _ => by cases b <;> decide

theorem rdreg (r : RegNum) : Statement (.rdreg r) := fun h => by
  have hr := r.isLt
  have hop : (field (encode (.rdreg r)) 27 5).toNat = 0x02 := by
    rw [field_toNat, encode_rdreg_toNat]; omega
  unfold decode
  rw [hop]
  refine accept_eq_instr.2 ⟨?_, (rangeFault_none_iff _).2 ?_, ?_⟩
  · simp only [Bool.and_eq_true, zeros_iff, encode_rdreg_toNat]; omega
  all_goals
    rw [show field (encode (.rdreg r)) 16 5 = r by rw [field_eq_iff, encode_rdreg_toNat]; omega]
  exact h

theorem wrreg (r : RegNum) (v : BitVec 16) : Statement (.wrreg r v) := fun h => by
  have hr := r.isLt
  have hv := v.isLt
  have hop : (field (encode (.wrreg r v)) 27 5).toNat = 0x03 := by
    rw [field_toNat, encode_wrreg_toNat]; omega
  have h1 : field (encode (.wrreg r v)) 16 5 = r := by
    rw [field_eq_iff, encode_wrreg_toNat]; omega
  have h2 : field (encode (.wrreg r v)) 0 16 = v := by
    rw [field_eq_iff, encode_wrreg_toNat]; omega
  unfold decode
  rw [hop]
  refine accept_eq_instr.2 ⟨?_, (rangeFault_none_iff _).2 ?_, ?_⟩
  · rw [zeros_iff, encode_wrreg_toNat]; omega
  all_goals rw [h1, h2]
  exact h

theorem ctOpen (sym : Byte) : Statement (.ctOpen sym) := fun _ => by
  show decode (formatS 0x06#5 sym) = _
  have hop := op_formatS 0x06#5 sym
  unfold decode
  rw [hop]
  exact accept_eq_instr.2 ⟨zeros_formatS _ _, rfl, by rw [sym_formatS]⟩

theorem encPut (sym : Byte) : Statement (.encPut sym) := fun _ => by
  show decode (formatS 0x08#5 sym) = _
  have hop := op_formatS 0x08#5 sym
  unfold decode
  rw [hop]
  exact accept_eq_instr.2 ⟨zeros_formatS _ _, rfl, by rw [sym_formatS]⟩

theorem tLeaf (idx : Idx) (sym : Byte) : Statement (.tLeaf idx sym) := fun h => by
  have hi := idx.isLt
  have hs := sym.isLt
  have hop : (field (encode (.tLeaf idx sym)) 27 5).toNat = 0x11 := by
    rw [field_toNat, encode_tLeaf_toNat]; omega
  have h1 : field (encode (.tLeaf idx sym)) 18 9 = idx := by
    rw [field_eq_iff, encode_tLeaf_toNat]; omega
  have h2 : field (encode (.tLeaf idx sym)) 0 8 = sym := by
    rw [field_eq_iff, encode_tLeaf_toNat]; omega
  unfold decode
  rw [hop]
  refine accept_eq_instr.2 ⟨?_, (rangeFault_none_iff _).2 ?_, ?_⟩
  · rw [zeros_iff, encode_tLeaf_toNat]; omega
  all_goals rw [h1, h2]
  exact h

theorem tInt (idx left right : Idx) : Statement (.tInt idx left right) := fun h => by
  have hi := idx.isLt
  have hl := left.isLt
  have hr := right.isLt
  have hop : (field (encode (.tInt idx left right)) 27 5).toNat = 0x12 := by
    rw [field_toNat, encode_tInt_toNat]; omega
  have h1 : field (encode (.tInt idx left right)) 18 9 = idx := by
    rw [field_eq_iff, encode_tInt_toNat]; omega
  have h2 : field (encode (.tInt idx left right)) 9 9 = left := by
    rw [field_eq_iff, encode_tInt_toNat]; omega
  have h3 : field (encode (.tInt idx left right)) 0 9 = right := by
    rw [field_eq_iff, encode_tInt_toNat]; omega
  unfold decode
  rw [hop]
  refine accept_eq_instr.2 ⟨rfl, (rangeFault_none_iff _).2 ?_, ?_⟩
  all_goals rw [h1, h2, h3]
  exact h

theorem decPut (byte : Byte) (n : BitVec 4) : Statement (.decPut byte n) := fun h => by
  have hb := byte.isLt
  have hn := n.isLt
  have hop : (field (encode (.decPut byte n)) 27 5).toNat = 0x13 := by
    rw [field_toNat, encode_decPut_toNat]; omega
  have h1 : field (encode (.decPut byte n)) 0 8 = byte := by
    rw [field_eq_iff, encode_decPut_toNat]; omega
  have h2 : field (encode (.decPut byte n)) 8 4 = n := by
    rw [field_eq_iff, encode_decPut_toNat]; omega
  unfold decode
  rw [hop]
  refine accept_eq_instr.2 ⟨?_, (rangeFault_none_iff _).2 ?_, ?_⟩
  · rw [zeros_iff, encode_decPut_toNat]; omega
  all_goals rw [h1, h2]
  exact h

end Sys2Proof.Laws.WordDecodes
end

