-- ==== Sys2Proof/Laws/Runs.lean ====
section
/-! SUPPORT. Runs of commands: their composition, a sequence of ENC.PUTs as one sequence of bits through the
packer, a sequence of DEC.PUTs as one walk over all their bits. -/

namespace Sys2Proof.Machine

/-! ## Packing in pieces -/

/-- Whole bytes in front are packed on their own. -/
theorem pack_append {as : List Bool} (h : as.length % 8 = 0) (bs : List Bool) (f : Bool) :
    pack (as ++ bs) f = pack as f ++ pack bs f := by
  induction as using chunk_induction with
  | short as h8 =>
    have : as = [] := List.length_eq_zero_iff.1 (by omega)
    subst this; rfl
  | chunk c as hc ih =>
    have h' : as.length % 8 = 0 := by rw [List.length_append] at h; omega
    rw [List.append_assoc, pack_chunk hc, pack_chunk hc, ih h', List.cons_append]

/-- The whole bytes of a sequence are the packing of its whole-byte part. -/
theorem pack_take (bs : List Bool) (f : Bool) :
    (pack bs f).take (bs.length / 8) = pack (bs.take (8 * (bs.length / 8))) f := by
  have hl : (bs.take (8 * (bs.length / 8))).length = 8 * (bs.length / 8) := by
    rw [List.length_take]; omega
  have h := pack_append (as := bs.take (8 * (bs.length / 8))) (by omega) (bs.drop (8 * (bs.length / 8))) f
  rw [List.take_append_drop] at h
  rw [h, List.take_left' (by rw [pack_length, hl]; omega)]

/-- The whole bytes of a longer sequence: those of a first part, then those of its rest and what follows. -/
theorem pack_take_append (as bs : List Bool) (f : Bool) :
    (pack (as ++ bs) f).take ((as ++ bs).length / 8)
      = (pack as f).take (as.length / 8)
        ++ (pack (as.drop (8 * (as.length / 8)) ++ bs) f).take
            ((as.drop (8 * (as.length / 8)) ++ bs).length / 8) := by
  have hl : (as.take (8 * (as.length / 8))).length = 8 * (as.length / 8) := by
    rw [List.length_take]; omega
  have hs : as ++ bs = as.take (8 * (as.length / 8)) ++ (as.drop (8 * (as.length / 8)) ++ bs) := by
    rw [← List.append_assoc, List.take_append_drop]
  have hp : (pack (as.take (8 * (as.length / 8))) f).length = as.length / 8 := by
    rw [pack_length, hl]; omega
  have hn : (as ++ bs).length / 8
      = as.length / 8 + (as.drop (8 * (as.length / 8)) ++ bs).length / 8 := by
    simp only [List.length_append, List.length_drop]; omega
  rw [hn, hs, pack_append (by omega), pack_take]
  rw [List.take_append, List.take_of_length_le (by omega), hp, Nat.add_sub_cancel_left]

/-! ## A sequence of ENC.PUTs -/

theorem Enc.bitsOf_congr {e e' : Enc} (h : e'.ct = e.ct) (xs : List Byte) : e'.bitsOf xs = e.bitsOf xs := by
  have hc : e'.code = e.code := funext fun x => by simp [Enc.code, h]
  simp [Enc.bitsOf, hc]

theorem Enc.bitsOf_cons (e : Enc) (x : Byte) (xs : List Byte) :
    e.bitsOf (x :: xs) = e.code x ++ e.bitsOf xs := rfl

/-- The state after ENC.PUTs of `xs`, answered OK. -/
def State.afterPuts (s : State) (xs : List Byte) (acc : Byte) : State :=
  let B := s.enc.held ++ s.enc.bitsOf xs
  { s with
    enc := { s.enc with
      state := if xs = [] then s.enc.state else .run
      acc := acc, accN := BitVec.ofNat 3 B.length
      syms := s.enc.syms + BitVec.ofNat 32 xs.length
      bits := s.enc.bits + BitVec.ofNat 32 (s.enc.bitsOf xs).length
      bytes := s.enc.bytes + BitVec.ofNat 32 (B.length / 8) }
    env := { s.env with
      encOut := s.env.encOut.acceptedAll ((pack B false).take (B.length / 8))
      rsps := s.env.rsps ++ List.replicate xs.length ⟨.ok, 0⟩ } }

theorem count_add (x : Word) {a b c : Nat} (h : c = a + b) :
    x + BitVec.ofNat 32 a + BitVec.ofNat 32 b = x + BitVec.ofNat 32 c := by
  rw [h, BitVec.ofNat_add, BitVec.add_assoc]

/-- ENC.PUTs of symbols that have codes, one after another: all their bits go through the packer in order.
What the host issues next goes on from there. -/
theorem encPuts_run (xs : List Byte) (s : State) (hs : s.env.stalled = false)
    (hk : s.env.encOut.neverFails) (ho : s.enc.state.isOpen = true) (hcl : s.enc.accClean)
    (hx : ∀ x ∈ xs, s.enc.code x ≠ []) :
    ∃ acc, (s.afterPuts xs acc).enc.held
        = (s.enc.held ++ s.enc.bitsOf xs).drop (8 * ((s.enc.held ++ s.enc.bitsOf xs).length / 8))
      ∧ (s.afterPuts xs acc).enc.accClean
      ∧ ∀ js v, Issued (s.afterPuts xs acc) js v → Issued s (xs.map .encPut ++ js) v := by
  induction xs generalizing s with
  | nil =>
    have hlt := s.enc.accN.isLt
    have h0 : s.enc.accN.toNat / 8 = 0 := by omega
    have hst : s.afterPuts [] s.enc.acc = s := by
      simp [State.afterPuts, Enc.bitsOf, h0]
    refine ⟨s.enc.acc, ?_, ?_, ?_⟩
    · rw [hst]; simp [Enc.bitsOf, h0]
    · rw [hst]; exact hcl
    · rw [hst]; exact fun js v h => h
  | cons x xs ih =>
    have hcx := hx x (by simp)
    obtain ⟨a, h1, h2, h3⟩ := exec_encPut_ok ho hcx hcl (Sink.neverFails_accepts hk _)
    obtain ⟨acc, k1, k2, k3⟩ := ih ((afterBits s.startPut (s.enc.code x) a).respond .ok 0) hs
      (Sink.neverFails_acceptedAll hk _) rfl h3 (fun y hy => hx y (by simp [hy]))
    have hbits : ((afterBits s.startPut (s.enc.code x) a).respond .ok 0).enc.bitsOf xs = s.enc.bitsOf xs :=
      Enc.bitsOf_congr rfl xs
    have hheld : ((afterBits s.startPut (s.enc.code x) a).respond .ok 0).enc.held
        = (s.enc.held ++ s.enc.code x).drop (8 * ((s.enc.held ++ s.enc.code x).length / 8)) := h2
    have hsplit : s.enc.held ++ s.enc.bitsOf (x :: xs) = (s.enc.held ++ s.enc.code x) ++ s.enc.bitsOf xs := by
      rw [Enc.bitsOf_cons, List.append_assoc]
    have hlen : (s.enc.held ++ s.enc.bitsOf (x :: xs)).length
        = 8 * ((s.enc.held ++ s.enc.code x).length / 8)
          + ((s.enc.held ++ s.enc.code x).drop (8 * ((s.enc.held ++ s.enc.code x).length / 8))
            ++ s.enc.bitsOf xs).length := by
      rw [hsplit]; simp only [List.length_append, List.length_drop]; omega
    have hdiv : (s.enc.held ++ s.enc.bitsOf (x :: xs)).length / 8
        = (s.enc.held ++ s.enc.code x).length / 8
          + ((s.enc.held ++ s.enc.code x).drop (8 * ((s.enc.held ++ s.enc.code x).length / 8))
            ++ s.enc.bitsOf xs).length / 8 := by omega
    have hst : ((afterBits s.startPut (s.enc.code x) a).respond .ok 0).afterPuts xs acc
        = s.afterPuts (x :: xs) acc := by
      have e1 : BitVec.ofNat 3 ((s.enc.held ++ s.enc.code x).drop
            (8 * ((s.enc.held ++ s.enc.code x).length / 8)) ++ s.enc.bitsOf xs).length
          = BitVec.ofNat 3 (s.enc.held ++ s.enc.bitsOf (x :: xs)).length := by
        apply BitVec.eq_of_toNat_eq
        rw [BitVec.toNat_ofNat, BitVec.toNat_ofNat, hlen]; omega
      have e2 : (pack (s.enc.held ++ s.enc.bitsOf (x :: xs)) false).take
            ((s.enc.held ++ s.enc.bitsOf (x :: xs)).length / 8)
          = (pack (s.enc.held ++ s.enc.code x) false).take ((s.enc.held ++ s.enc.code x).length / 8)
            ++ (pack ((s.enc.held ++ s.enc.code x).drop (8 * ((s.enc.held ++ s.enc.code x).length / 8))
                ++ s.enc.bitsOf xs) false).take
              (((s.enc.held ++ s.enc.code x).drop (8 * ((s.enc.held ++ s.enc.code x).length / 8))
                ++ s.enc.bitsOf xs).length / 8) := by
        rw [hsplit]; exact pack_take_append _ _ _
      have e3 := count_add s.enc.bits (show (s.enc.bitsOf (x :: xs)).length
        = (s.enc.code x).length + (s.enc.bitsOf xs).length by
          rw [Enc.bitsOf_cons, List.length_append])
      have e4 := count_add s.enc.bytes hdiv
      have e5 := count_succ s.enc.syms (show (x :: xs).length = xs.length + 1 from rfl)
      have e6 : (if xs = [] then UnitState.run else UnitState.run) = UnitState.run := by simp
      unfold State.afterPuts
      simp only [hheld, hbits, e1]
      unfold afterBits
      simp only [show s.startPut.enc.held = s.enc.held from rfl]
      unfold State.startPut State.respond
      simp only [e5, e6, reduceCtorEq, if_false, Sink.acceptedAll_append]
      rw [e2, e3, e4]
      simp [List.replicate_succ]
    rw [hst] at k1 k2 k3
    refine ⟨acc, ?_, k2, fun js v h => ?_⟩
    · have hd : (s.enc.held ++ s.enc.code x).drop (8 * ((s.enc.held ++ s.enc.code x).length / 8))
            ++ s.enc.bitsOf xs
          = (s.enc.held ++ s.enc.bitsOf (x :: xs)).drop (8 * ((s.enc.held ++ s.enc.code x).length / 8)) := by
        rw [hsplit]
        exact (List.drop_append_of_le_length (by omega)).symm
      rw [k1, hheld, hbits, hdiv, Nat.mul_add, ← List.drop_drop, ← hd]
    · exact Issued.cons (Laws.WordDecodes.encPut x rfl) hs h1 (k3 js v h)

/-! ## A sequence of DEC.PUTs -/

theorem core_run_congr (M : Host.Core) (k : Nat) {a b : M.State} (h : M.step a = M.step b) :
    M.run (k + 1) a = M.run (k + 1) b := by
  simp [Host.Core.run, h]

theorem run_congr (k : Nat) {a b : State} (h : step a = step b) :
    Host.Core.run Sys2Proof.core (k + 1) a = Host.Core.run Sys2Proof.core (k + 1) b :=
  core_run_congr Sys2Proof.core k (a := a) (b := b) h

/-- Runs whose first commands answer alike are alike. -/
theorem Issued.congr_head {s s' v : State} {i : Instr} {is : List Instr}
    (hd : decode (encode i) = .instr i) (hs : s.env.stalled = false) (hs' : s'.env.stalled = false)
    (he : exec i s = exec i s') (h : Issued s' (i :: is) v) : Issued s (i :: is) v := by
  have h1 : step (s.withPort ((i :: is).map fun i => .cmd (encode i)))
      = step (s'.withPort ((i :: is).map fun i => .cmd (encode i))) := by
    rw [step_cmd (s := s.withPort ((i :: is).map fun i => .cmd (encode i))) (i := i) rfl hs hd,
      step_cmd (s := s'.withPort ((i :: is).map fun i => .cmd (encode i))) (i := i) rfl hs' hd,
      State.withPort_withPort, State.withPort_withPort, exec_withPort, exec_withPort, he]
  exact (run_congr is.length h1).trans h

/-- An accepted DEC.PUT of a present tree does in IDLE what it does once the run has started. -/
theorem exec_decPut_startWalk {s : State} {x : Byte} {n : BitVec 4} (hn : n.toNat ≤ 8)
    (ho : s.dec.state.isOpen = true) : exec (.decPut x n) s = exec (.decPut x n) s.startWalk := by
  have hr : s.startWalk.dec.state = .run := by rw [startWalk_dec ho]
  have hp : s.startWalk.dec.present = s.dec.present := by rw [startWalk_dec ho]
  have hs : s.startWalk.startWalk = s.startWalk := by
    show ({ s.startWalk with dec := s.startWalk.dec.startRun } : State) = _
    unfold Dec.startRun
    rw [if_neg (by rw [hr]; decide)]
  rw [exec_decPut_run hn ho, exec_decPut_run hn (by rw [hr]; rfl), hp, hs]

/-- The state after `m` DEC.PUTs of `n` bits in all, which spelled `xs` and left the cursor at `cur`. -/
def State.afterDecPuts (s : State) (m n : Nat) (xs : List Byte) (cur : Idx) : State :=
  { s with
    dec := { s.dec with
      cur := cur, bits := s.dec.bits + BitVec.ofNat 32 n
      syms := s.dec.syms + BitVec.ofNat 32 xs.length }
    env := { s.env with
      decOut := s.env.decOut.acceptedAll xs
      rsps := s.env.rsps ++ List.replicate m ⟨.ok, 0⟩ } }

/-- The bits of a sequence of DEC.PUTs. -/
def putsBits (ps : List (Byte × BitVec 4)) : List Bool := ps.flatMap fun p => validBits p.1 p.2

/-- DEC.PUTs in a run under way walk all their bits in order. What the host issues next goes on from
there. -/
theorem decPuts_run (ps : List (Byte × BitVec 4)) (s : State) {xs : List Byte} {cur : Idx}
    (hs : s.env.stalled = false) (hk : s.env.decOut.neverFails) (hr : s.dec.state = .run)
    (hp : s.dec.present = true) (hn : ∀ p ∈ ps, p.2.toNat ≤ 8)
    (h : s.dec.spells (putsBits ps) s.dec.cur = some (xs, cur)) (js : List Instr) (v : State)
    (hv : Issued (s.afterDecPuts ps.length (putsBits ps).length xs cur) js v) :
    Issued s (ps.map (fun p => Instr.decPut p.1 p.2) ++ js) v := by
  induction ps generalizing s xs with
  | nil =>
    simp only [putsBits, List.flatMap_nil, Dec.spells, Option.some.injEq, Prod.mk.injEq] at h
    obtain ⟨rfl, rfl⟩ := h
    simpa [State.afterDecPuts, putsBits] using hv
  | cons p ps ih =>
    have hbits : putsBits (p :: ps) = validBits p.1 p.2 ++ putsBits ps := rfl
    rw [hbits, Dec.spells_append] at h
    cases h1 : s.dec.spells (validBits p.1 p.2) s.dec.cur with
    | none => simp [h1] at h
    | some r =>
      obtain ⟨ys, c⟩ := r
      simp only [h1, Option.bind_some, Option.map_eq_some_iff, Prod.mk.injEq] at h
      obtain ⟨⟨zs, c'⟩, h2, rfl, rfl⟩ := h
      have hw : s.dec.walkStart = s.dec.cur := by simp [Dec.walkStart, hr]
      have hx := exec_decPut_ok (byte := p.1) (n := p.2) (hn p (by simp)) (by rw [hr]; rfl) hp
        (by rw [hw]; exact h1) (Sink.neverFails_accepts hk _)
      refine Issued.cons (Laws.WordDecodes.decPut p.1 p.2
        (by simpa [Instr.WellFormed, Instr.wellFormed] using hn p (by simp))) hs hx ?_
      refine ih ((s.walked (validBits p.1 p.2).length ys c).respond .ok 0) hs
        (Sink.neverFails_acceptedAll hk _) rfl hp (fun q hq => hn q (by simp [hq])) (xs := zs) ?_ ?_
      · refine Eq.trans (Dec.spells_congr (d := s.dec) ?_ ?_ _ _) h2 <;> rfl
      · have hst : ((s.walked (validBits p.1 p.2).length ys c).respond .ok 0).afterDecPuts ps.length
            (putsBits ps).length zs c'
            = s.afterDecPuts (p :: ps).length (putsBits (p :: ps)).length (ys ++ zs) c' := by
          unfold State.afterDecPuts State.walked State.respond
          have e1 := count_add s.dec.bits (show (putsBits (p :: ps)).length
            = (validBits p.1 p.2).length + (putsBits ps).length by rw [hbits, List.length_append])
          have e2 := count_add s.dec.syms (List.length_append (as := ys) (bs := zs))
          simp only [e1, e2, Sink.acceptedAll_append, ← hr]
          simp [List.replicate_succ]
        rw [hst]; exact hv

/-- The same from IDLE, for at least one DEC.PUT: the walk begins at the root. -/
theorem decPuts_first {ps : List (Byte × BitVec 4)} {s : State} {xs : List Byte} {cur : Idx}
    (hne : ps ≠ []) (hs : s.env.stalled = false) (hk : s.env.decOut.neverFails)
    (hi : s.dec.state = .idle) (hp : s.dec.present = true) (hn : ∀ p ∈ ps, p.2.toNat ≤ 8)
    (h : s.dec.spells (putsBits ps) s.dec.rootIdx = some (xs, cur)) (js : List Instr) (v : State)
    (hv : Issued (s.startWalk.afterDecPuts ps.length (putsBits ps).length xs cur) js v) :
    Issued s (ps.map (fun p => Instr.decPut p.1 p.2) ++ js) v := by
  have ho : s.dec.state.isOpen = true := by rw [hi]; rfl
  have hrun := decPuts_run ps s.startWalk hs hk (by rw [startWalk_dec ho]) (by rw [startWalk_dec ho]; exact hp)
    hn (by rw [startWalk_spells, startWalk_cur hp]; simpa [Dec.walkStart, hi] using h) js v hv
  cases ps with
  | nil => exact absurd rfl hne
  | cons p ps =>
    exact Issued.congr_head (s' := s.startWalk) (i := .decPut p.1 p.2) (Laws.WordDecodes.decPut p.1 p.2
      (by simpa [Instr.WellFormed, Instr.wellFormed] using hn p (by simp))) hs hs
      (exec_decPut_startWalk (hn p (by simp)) ho) hrun

/-! ## The bits of a compressed stream -/

/-- Codes that agree with the tree spell their symbols and come back to the root. -/
theorem spells_bitsOf {s : State} {xs : List Byte} (h : ∀ x ∈ xs, Agrees s x) :
    s.dec.spells (s.enc.bitsOf xs) s.dec.rootIdx = some (xs, s.dec.rootIdx) := by
  induction xs with
  | nil => rfl
  | cons x xs ih =>
    obtain ⟨-, h0, j, hf, hj⟩ := h x (by simp)
    rw [Enc.bitsOf_cons, Dec.spells_append, Dec.spells_path h0 hf hj, Option.bind_some,
      ih fun y hy => h y (by simp [hy])]
    rfl

theorem validBits_eight (x : Byte) : validBits x 8 = byteBits x := rfl

/-- The DEC.PUTs of `putBytes`, as a list of operands. -/
theorem putBytes_eq (ps : List Byte) (n : BitVec 3) : ∃ qs : List (Byte × BitVec 4),
    putBytes ps n = qs.map (fun q => Instr.decPut q.1 q.2) ∧ qs.length = ps.length
      ∧ (∀ q ∈ qs, q.2.toNat ≤ 8)
      ∧ putsBits qs = (ps.flatMap byteBits).take (8 * ps.length - (8 - n.toNat) % 8) := by
  have hn := n.isLt
  induction ps with
  | nil => exact ⟨[], rfl, rfl, by simp, by simp [putsBits]⟩
  | cons p ps ih =>
    cases ps with
    | nil =>
      by_cases h0 : n = 0
      · subst h0
        refine ⟨[(p, 8)], by simp [putBytes], rfl, by simp, ?_⟩
        simp [putsBits]
        rfl
      · have hn0 : n.toNat ≠ 0 := fun he => h0 (BitVec.eq_of_toNat_eq (by simpa using he))
        refine ⟨[(p, n.zeroExtend 4)], by simpa [putBytes] using fun h => absurd h h0, rfl, ?_, ?_⟩
        · simp; omega
        · have h1 : n.toNat % 16 = n.toNat := by omega
          have h2 : 8 - (8 - n.toNat) % 8 = n.toNat := by omega
          simp [putsBits, validBits, h1, h2]
    | cons q ps =>
      obtain ⟨qs, h1, h2, h3, h4⟩ := ih
      refine ⟨(p, 8) :: qs, by simp [putBytes, h1], by simp [h2], ?_, ?_⟩
      · intro r hr
        rcases List.mem_cons.1 hr with rfl | hr
        · simp
        · exact h3 r hr
      · have hl : 8 * (p :: q :: ps).length - (8 - n.toNat) % 8
            = (byteBits p).length + (8 * (q :: ps).length - (8 - n.toNat) % 8) := by
          simp only [List.length_cons, byteBits_length]; omega
        show validBits p 8 ++ putsBits qs = _
        rw [h4, validBits_eight, hl]
        show _ = List.take _ (byteBits p ++ (q :: ps).flatMap byteBits)
        rw [List.take_length_add_append]

/-- The bits of a packed sequence, all but its filler. -/
theorem pack_meaningful (bs : List Bool) (f : Bool) :
    ((pack bs f).flatMap byteBits).take (8 * (pack bs f).length - (8 - bs.length % 8) % 8) = bs := by
  rw [pack_bits, pack_length, List.take_left' (by omega)]

end Sys2Proof.Machine
end

