-- ==== Sys2Proof/Tests/Slice0.lean ====
section
/-! SUPPORT. The model's own tests. Expected values come from spec/95_test_vectors.md and the rules named;
the second half shows, for each statement with hypotheses, operands and a state that meet them. -/

namespace Sys2Proof.Tests

open Sys2Proof Sys2Proof.Machine

/-! ## Well-formedness: one ill-formed term for each check of R86, refused -/

theorem test_wf_rdreg : (Instr.rdreg 11#5).wellFormed = false ∧ (Instr.rdreg 21#5).wellFormed = false
    ∧ (Instr.rdreg 20#5).wellFormed = true := by decide
theorem test_wf_wrreg_readOnly :
    (Instr.wrreg 0#5 0#16).wellFormed = false ∧ (Instr.wrreg 4#5 0#16).wellFormed = false := by decide
theorem test_wf_wrreg_ctrl :
    (Instr.wrreg 1#5 8#16).wellFormed = false ∧ (Instr.wrreg 1#5 7#16).wellFormed = true := by decide
theorem test_wf_wrreg_troot : (Instr.wrreg 3#5 0x400#16).wellFormed = false
    ∧ (Instr.wrreg 3#5 0x1FF#16).wellFormed = false
    ∧ (Instr.wrreg 3#5 0x3FE#16).wellFormed = true := by decide
theorem test_wf_tLeaf : (Instr.tLeaf 0x1FF#9 0#8).wellFormed = false
    ∧ (Instr.tLeaf 0x1FE#9 0#8).wellFormed = true := by decide
theorem test_wf_tInt : (Instr.tInt 0x1FF#9 0#9 0#9).wellFormed = false
    ∧ (Instr.tInt 0#9 0x1FF#9 0x1FF#9).wellFormed = true := by decide
theorem test_wf_decPut : (Instr.decPut 0#8 9#4).wellFormed = false
    ∧ (Instr.decPut 0#8 8#4).wellFormed = true := by decide

/-! ## Decoding: words of 95_test_vectors.md 2.1 -/

theorem test_decode_global : decode 0x00000000#32 = .instr .nop ∧ decode 0x08000000#32 = .instr .srst
    ∧ decode 0x10040000#32 = .instr (.rdreg 4#5) ∧ decode 0x18030005#32 = .instr (.wrreg 3#5 5#16) := by
  decide
theorem test_decode_encoder : decode 0x20000000#32 = .instr .encInit ∧ decode 0x28000000#32 = .instr .ctClr
    ∧ decode 0x30000061#32 = .instr (.ctOpen 0x61#8) ∧ decode 0x38000000#32 = .instr (.ctPush false)
    ∧ decode 0x40000061#32 = .instr (.encPut 0x61#8) ∧ decode 0x48000000#32 = .instr .encEnd
    ∧ decode 0x50000000#32 = .instr .encAbort := by decide
theorem test_decode_decoder : decode 0x80000000#32 = .instr .decInit
    ∧ decode 0x88040061#32 = .instr (.tLeaf 1#9 0x61#8)
    ∧ decode 0x9003FE01#32 = .instr (.tInt 0#9 0x1FF#9 1#9)
    ∧ decode 0x93FC0000#32 = .instr (.tInt 255#9 0#9 0#9)
    ∧ decode 0x98000100#32 = .instr (.decPut 0#8 1#4)
    ∧ decode 0xA0000000#32 = .instr .decEnd ∧ decode 0xA8000000#32 = .instr .decAbort := by decide
theorem test_decode_illegal_bits : ∀ p ∈ [(0x00000001#32, Illegal.reservedBits),
    (0xFFFFFFFF#32, .reservedOpcode), (0x58000000#32, .reservedOpcode), (0xB0000000#32, .reservedOpcode),
    (0x10040001#32, .reservedBits), (0x88000100#32, .reservedBits), (0x98001000#32, .reservedBits),
    (0x38000002#32, .reservedBits), (0x40000100#32, .reservedBits)], decode p.1 = .illegal p.2 := by decide
theorem test_decode_illegal_operands : ∀ p ∈ [(0x100B0000#32, Illegal.reservedRegister),
    (0x18000000#32, .readOnlyRegister), (0x18040000#32, .readOnlyRegister), (0x18010008#32, .ctrlReserved),
    (0x180301FF#32, .nilRoot), (0x180303FF#32, .nilRoot), (0x18030400#32, .trootReserved),
    (0x8FFC0000#32, .nilIndex), (0x97FC0000#32, .nilIndex), (0x98000900#32, .bitCount),
    (0x98000F00#32, .bitCount)], decode p.1 = .illegal p.2 := by decide
theorem test_decodeTableWord : decodeTableWord 32 0x40000061 = some (.encPut 0x61#8)
    ∧ decodeTableWord 32 0x40000100 = none := by decide

/-! ## States the tests start from -/

/-- The code table of P1: a = "0", b = "11", c = "10". -/
def p1Table : List (Nat × List Bool) := [(0x61, [false]), (0x62, [true, true]), (0x63, [true, false])]

/-- The tree T1. -/
def t1 : List (Nat × Node) :=
  [(0, .int 1#9 2#9), (1, .leaf 0x61#8), (2, .int 3#9 4#9), (3, .leaf 0x63#8), (4, .leaf 0x62#8)]

/-- The tree T2, one symbol with the code "1". -/
def t2 : List (Nat × Node) := [(0, .int 0x1FF#9 1#9), (1, .leaf 0x61#8)]

/-- A sink that fails the next byte, and one that never answers. -/
def failing : Sink := ⟨[], [.fail], some .ok⟩
def mute : Sink := ⟨[], [], none⟩

/-- ENC in `u` with the table of P1 and the given accumulator, ENC_OUT as given. -/
def encAt (u : UnitState) (acc : Byte) (n : BitVec 3) (k : Sink) : State :=
  { State.reset with
    enc := { Enc.reset with state := u, acc := acc, accN := n, ct := p1Table }
    env := { Env.fresh with encOut := k } }

/-- DEC in `u` with a tree, its root at 0, the cursor at `c`, DEC_OUT as given. -/
def decAt (u : UnitState) (tm : List (Nat × Node)) (c : Idx) (k : Sink) : State :=
  { State.reset with
    dec := { Dec.reset with state := u, tm := tm, cur := c, present := true }
    env := { Env.fresh with decOut := k } }

/-- The state after a command, and the response it gave; `none` when it did not answer a next state. -/
def after (i : Instr) (s : State) : Option State :=
  match exec i s with
  | .next t => some t
  | .fault _ => none
  | .refused _ => none

def said (i : Instr) (s : State) : Option Response := (after i s).bind fun t => t.env.rsps.getLast?

/-! ## One command -/

-- 2.2
theorem test_nop_keeps_refused :
    (after .nop { State.reset with glob := { Global.reset with refused := true } }).map (·.glob.refused)
      = some true := by decide
theorem test_srst : (after .srst (encAt .fail 0 0 failing)).map (fun t => (t.enc, t.env.encOut))
    = some (Enc.reset, failing) := by decide
theorem test_rdreg_id : said (.rdreg 0#5) State.reset = some ⟨.ok, 0x48424331#32⟩ := by decide
theorem test_rdreg_acc : said (.rdreg 6#5) (encAt .run 0x1E#8 7#3 Sink.fresh) = some ⟨.ok, 0x071E#32⟩ := by
  decide
theorem test_wrreg_ctrl : (after (.wrreg 1#5 7#16) State.reset).map (fun t => t.regValue .ctrl)
    = some 7#32 := by decide
theorem test_wrreg_troot_run : said (.wrreg 3#5 0#16) (decAt .run t1 0 Sink.fresh) = some ⟨.seq, 0⟩ := by
  decide
-- 2.3
theorem test_encInit_keeps_table :
    (after .encInit { State.reset with
        enc := { Enc.reset with ct := p1Table, selSym := 0x62#8, selV := true } }).map
      (fun t => (t.enc.ct, t.regValue .encCtsel)) = some (p1Table, 0x62#32) := by decide
theorem test_ctClr_run : said .ctClr (encAt .run 0 0 Sink.fresh) = some ⟨.seq, 0⟩ := by decide
theorem test_ctOpen_deletes : (after (.ctOpen 0x62#8) (encAt .idle 0 0 Sink.fresh)).map
    (fun t => (t.enc.len 0x62#8, t.enc.code 0x63#8, t.regValue .encCtsel))
      = some (0, [true, false], 0x162#32) := by decide
theorem test_ctPush_closed : said (.ctPush true) State.reset = some ⟨.seq, 0⟩ := by decide
set_option maxRecDepth 8000 in
theorem test_ctPush_256th :
    said (.ctPush true) { State.reset with
      enc := { Enc.reset with selV := true, ct := [(0, List.replicate 255 true)] } }
        = some ⟨.overflow, 0⟩ := by decide
-- 2.4
theorem test_encPut_b : (after (.encPut 0x62#8) (encAt .idle 0 0 Sink.fresh)).map
    (fun t => (t.regValue .encAcc, t.enc.syms, t.enc.bits, t.env.encOut.out))
      = some (0x02C0#32, 1, 2, []) := by decide
theorem test_encPut_completes_byte : (after (.encPut 0x63#8) (encAt .run 0x1E#8 7#3 Sink.fresh)).map
    (fun t => (t.regValue .encAcc, t.enc.bytes, t.env.encOut.out)) = some (0x0100#32, 1, [0x1F#8]) := by
  decide
theorem test_encEnd_fill_one :
    (after .encEnd { encAt .run 0 1#3 Sink.fresh with glob := { Global.reset with fill := true } }).map
      (fun t => (t.regValue .encAcc, t.env.encOut.out)) = some (0x1000#32, [0x7F#8]) := by decide
theorem test_encEnd_failing_sink : (after .encEnd (encAt .run 0 1#3 failing)).map
    (fun t => (t.regValue .encStatus, t.regValue .encAcc, t.env.encOut.out))
      = some (0x0F#32, 0x1000#32, []) := by decide
theorem test_encAbort : (after .encAbort (encAt .run 0 1#3 Sink.fresh)).map
    (fun t => (t.regValue .encStatus, t.regValue .encErrinfo)) = some (0x0F#32, 0x100#32) := by decide
-- 2.5
theorem test_decInit_keeps_tree : (after .decInit (decAt .fail t1 2#9 Sink.fresh)).map
    (fun t => (t.dec.tm, t.regValue .troot, t.dec.cur)) = some (t1, 0x200#32, 0) := by decide
theorem test_tLeaf_run : said (.tLeaf 5#9 0#8) (decAt .run t1 0 Sink.fresh) = some ⟨.seq, 0⟩ := by decide
theorem test_tInt_nil_children : (after (.tInt 3#9 0x1FF#9 4#9) State.reset).map (fun t => t.dec.node 3#9)
    = some (some (.int 0x1FF#9 4#9)) := by decide
theorem test_decPut_1F : (after (.decPut 0x1F#8 8#4) (decAt .idle t1 0 Sink.fresh)).map
    (fun t => (t.env.decOut.out, t.dec.cur, t.dec.bits))
      = some ([0x61#8, 0x61#8, 0x61#8, 0x62#8, 0x62#8], 2#9, 8) := by decide
theorem test_decPut_malformed : (after (.decPut 0xE0#8 8#4) (decAt .idle t2 0 Sink.fresh)).map
    (fun t => (t.env.decOut.out, t.regValue .decStatus, t.dec.bits))
      = some ([0x61#8, 0x61#8, 0x61#8], 0x0B#32, 3) := by decide
theorem test_decEnd_trunc : (after .decEnd (decAt .run t1 2#9 Sink.fresh)).map
    (fun t => (t.regValue .decStatus, t.dec.cur)) = some (0x42#32, 2#9) := by decide
theorem test_decAbort : (after .decAbort (decAt .run t1 2#9 Sink.fresh)).map
    (fun t => (t.regValue .decStatus, t.regValue .decErrinfo)) = some (0x0F#32, 0x400#32) := by decide
-- R67
theorem test_unwritten_node :
    exec (.decPut 0#8 1#4) (decAt .run [] 7#9 Sink.fresh) = .fault (.unwrittenNode 7#9) := by rfl
-- R12: what the port brings is what runs
theorem test_withFetchWord : ∃ t, step (State.reset.withFetchWord 32 0x18010007) = .next t
    ∧ t.regValue .ctrl = 7#32 ∧ t.env.rsps = [⟨.ok, 0⟩] := ⟨_, rfl, by decide, by decide⟩

/-! ## Witnesses: the hypotheses of the statements can be met, clause by clause -/

/-- The port of a state that brings the word `w` next. -/
def bringing (w : Word) : State := State.reset.withPort [.cmd w]

theorem ok_accepts (n : Nat) : Sink.fresh.acceptsNext n :=
  Sink.neverFails_accepts (by decide) n

theorem witness_OpcodeMapAgrees :
    decode 0x40000061#32 = .instr (.encPut 0x61#8)
      ∧ (⟨"RDREG", 0x10000000#32, 0xFFE0FFFF#32⟩ : OpRow) ∈ opTable
      ∧ 0x100B0000#32 &&& 0xFFE0FFFF#32 = 0x10000000#32
      ∧ 0x10140000#32 &&& 0xFFE0FFFF#32 = 0x10000000#32 := by decide
/-- The port part of the hypotheses of every statement about one word on the port. -/
theorem witness_word_on_port (w : Word) :
    (bringing w).env.port = [.cmd w] ∧ (bringing w).env.stalled = false := ⟨rfl, rfl⟩
theorem witness_ReservedOpcodeRefused :
    (0x58000000#32).toNat / 2 ^ 27 = 0x0B ∧ (0x7FFFFFFF#32).toNat / 2 ^ 27 = 0x0F
      ∧ (0xB0000000#32).toNat / 2 ^ 27 = 0x16 ∧ (0xFFFFFFFF#32).toNat / 2 ^ 27 = 0x1F := by decide
/-- The lowest and the highest payload bit of NOP, bit 8 of T.LEAF, bit 12 of DEC.PUT. -/
theorem witness_ReservedBitRefused :
    ((0x00000001#32).toNat / 2 ^ 27 = 0 ∧ 0x00000001#32 &&& 0xFFFFFFFF#32 &&& 0x07FFFFFF#32 ≠ 0#32)
      ∧ ((0x04000000#32).toNat / 2 ^ 27 = 0 ∧ 0x04000000#32 &&& 0xFFFFFFFF#32 &&& 0x07FFFFFF#32 ≠ 0#32)
      ∧ ((0x88000100#32).toNat / 2 ^ 27 = 0x11 ∧ 0x88000100#32 &&& 0xF803FF00#32 &&& 0x07FFFFFF#32 ≠ 0#32)
      ∧ ((0x98001000#32).toNat / 2 ^ 27 = 0x13
        ∧ 0x98001000#32 &&& 0xFFFFF000#32 &&& 0x07FFFFFF#32 ≠ 0#32)
      ∧ (⟨"NOP", 0x00000000#32, 0xFFFFFFFF#32⟩ : OpRow) ∈ opTable
      ∧ (⟨"T.LEAF", 0x88000000#32, 0xF803FF00#32⟩ : OpRow) ∈ opTable
      ∧ (⟨"DEC.PUT", 0x98000000#32, 0xFFFFF000#32⟩ : OpRow) ∈ opTable := by decide
theorem witness_OperandRangesRefused :
    (∀ i ∈ [Instr.rdreg 11#5, .rdreg 15#5, .rdreg 21#5, .rdreg 31#5, .wrreg 11#5 0#16, .wrreg 31#5 0#16],
        ∃ r ∈ [11#5, 15#5, 21#5, 31#5], (i = .rdreg r ∨ i = .wrreg r 0#16)
          ∧ ((11 ≤ r.toNat ∧ r.toNat ≤ 15) ∨ (21 ≤ r.toNat ∧ r.toNat ≤ 31)))
      ∧ (regOf 0#5 ≠ none ∧ regOf 20#5 ≠ none)
      ∧ (8#16).toNat / 2 ^ 3 ≠ 0 ∧ (0xFFFF#16).toNat / 2 ^ 3 ≠ 0
      ∧ (0x400#16).toNat / 2 ^ 10 ≠ 0 ∧ (0x1FF#16).toNat % 2 ^ 9 = 0x1FF
      ∧ 9 ≤ (9#4).toNat ∧ 9 ≤ (15#4).toNat
      ∧ ((10#5).toNat ≤ 10 ∧ 16 ≤ (16#5).toNat ∧ (20#5).toNat ≤ 20)
      ∧ (7#16).toNat / 2 ^ 3 = 0
      ∧ ((0x3FE#16).toNat / 2 ^ 10 = 0 ∧ (0x3FE#16).toNat % 2 ^ 9 ≠ 0x1FF)
      ∧ 510#9 ≠ 0x1FF#9 ∧ (8#4).toNat ≤ 8 := by decide
theorem witness_StepRunsDecodedCommand :
    (bringing 0x48000000#32).env.port = [.cmd 0x48000000#32]
      ∧ (bringing 0x48000000#32).env.stalled = false
      ∧ decode 0x48000000#32 = .instr .encEnd ∧ decode 0x58000000#32 = .illegal .reservedOpcode := by decide
theorem witness_WaitsWithoutCommand : State.reset.env.port = []
    ∧ (bringing 0#32).stall.env.port = [.cmd 0#32] ∧ (bringing 0#32).stall.env.stalled = true := by decide
theorem witness_EveryCommandAnsweredOnce :
    (∃ t, step (bringing 0x10000000#32) = .next t) ∧ decode 0x10000000#32 = .instr (.rdreg 0#5)
      ∧ (∃ t, step (bringing 0x4000007A#32) = .next t ∧ t.env.rsps = [⟨.unencodable, 0x7A#32⟩])
      ∧ (∃ t, step ((encAt .run 0x1E#8 7#3 mute).withPort [.cmd 0x40000062#32]) = .next t
          ∧ t.env.stalled = true)
      ∧ (∃ t, step (State.reset.withPort [.rst]) = .next t) :=
  ⟨⟨_, rfl⟩, by decide, ⟨_, rfl, by decide⟩, ⟨_, rfl, by decide⟩, ⟨_, rfl⟩⟩
theorem witness_HardwareReset : ((encAt .run 0x1E#8 7#3 mute).stall.withPort [.rst]).env.port = [.rst] := by
  decide
theorem witness_ResetDuringCommand :
    (∃ t, step ((encAt .run 0x1E#8 7#3 Sink.fresh).withPort [.rstDuring 0x40000062#32 0]) = .next t
        ∧ t.env.encOut.out = [])
      ∧ (∃ u, step ((encAt .run 0x1E#8 7#3 Sink.fresh).withPort [.cmd 0x40000062#32]) = .next u
        ∧ u.env.encOut.out = [0x1F#8])
      ∧ ∃ j, step ((decAt .run [] 7#9 Sink.fresh).withPort [.rstDuring 0x98000100#32 1])
          = .fault (.unwrittenNode j) :=
  ⟨⟨_, rfl, by decide⟩, ⟨_, rfl, by decide⟩, ⟨_, rfl⟩⟩
theorem witness_SrstResetsBlock :
    ∃ t, exec .encInit { State.reset with glob := { Global.reset with refused := true } } = .next t :=
  ⟨_, rfl⟩
theorem witness_RdregReturnsValue : regOf 20#5 = some .decSyms ∧ (11 ≤ (11#5).toNat ∧ (15#5).toNat ≤ 15)
    ∧ 21 ≤ (21#5).toNat ∧ (0#5).toNat ≤ 10 ∧ (16 ≤ (16#5).toNat ∧ (20#5).toNat ≤ 20) := by decide
theorem witness_WrregWritesCtrlAndTroot : (7#16).toNat < 8
    ∧ ((0x3FE#16).toNat < 1024 ∧ (0x3FE#16).toNat % 512 ≠ 511) ∧ State.reset.dec.state = .idle
    ∧ (decAt .fail t1 0 Sink.fresh).dec.state ≠ .idle ∧ ¬ (Instr.wrreg 3#5 0x1FF#16).WellFormed := by decide

/-- What a cell of a state table speaks about exists: the command answers a next state, not stalled. -/
def completes (i : Instr) (s : State) : Bool :=
  match exec i s with
  | .next t => !t.env.stalled
  | .fault _ => false
  | .refused _ => false

theorem witness_EncStateTable :
    encTable .encInit .fail = .leaves .idle ∧ completes .encInit (encAt .fail 0 0 Sink.fresh) = true
      ∧ encTable (.encPut 0x61#8) .idle = .leavesOrFails .run
      ∧ completes (.encPut 0x61#8) (encAt .idle 0 0 Sink.fresh) = true
      ∧ encTable .ctClr .run = .seq ∧ completes .ctClr (encAt .run 0 0 Sink.fresh) = true
      ∧ encTable .nop .done = .keeps ∧ completes .nop (encAt .done 0 0 Sink.fresh) = true := by decide
theorem witness_PutBitFillsFromBitSeven :
    (encAt .run 0 0 Sink.fresh).enc.accN ≠ 7#3 ∧ (encAt .run 0x1E#8 7#3 Sink.fresh).enc.accN = 7#3
      ∧ (0x1F#8).getLsbD 0 = true ∧ (∀ j < 8, j ≠ 0 → (0x1F#8).getLsbD j = (0x1E#8).getLsbD j)
      ∧ Sink.fresh.answerAt 0 = some .ok ∧ failing.answerAt 0 = some .fail ∧ mute.answerAt 0 = none := by
  decide
theorem witness_ct_commands : (encAt .idle 0 0 Sink.fresh).enc.state = .idle
    ∧ (encAt .done 0 0 Sink.fresh).enc.state ≠ .idle := by decide
set_option maxRecDepth 8000 in
theorem witness_CtPushAppendsBit :
    (let e : Enc := { Enc.reset with selV := true, ct := [(0, List.replicate 254 true)] }
     e.state = .idle ∧ e.selV = true ∧ e.len e.selSym ≠ 255)
      ∧ (let e : Enc := { Enc.reset with selV := true, ct := [(0, List.replicate 255 true)] }
         e.state = .idle ∧ e.selV = true ∧ e.len e.selSym = 255)
      ∧ Enc.reset.selV = false := by decide
theorem witness_EncPutEncodesSymbol :
    (∃ s : State, s.enc.state = .run ∧ s.enc.code 0x62#8 ≠ [] ∧ s.enc.accClean
        ∧ (s.enc.held ++ s.enc.code 0x62#8).length / 8 = 1
        ∧ s.env.encOut.acceptsNext ((s.enc.held ++ s.enc.code 0x62#8).length / 8))
      ∧ ∃ s : State, s.enc.state = .done :=
  ⟨⟨encAt .run 0x1E#8 7#3 Sink.fresh, by decide, by decide, by decide, by decide, ok_accepts _⟩,
    encAt .done 0 0 Sink.fresh, by decide⟩
theorem witness_EncPutAbsentSymbol :
    (encAt .idle 0 0 Sink.fresh).enc.state = .idle ∧ (encAt .idle 0 0 Sink.fresh).enc.len 0x7A#8 = 0 := by
  decide
theorem witness_EncPutSinkFailure :
    ∃ s : State, s.enc.state = .run ∧ s.enc.code 0x62#8 ≠ []
      ∧ 0 < (s.enc.held ++ s.enc.code 0x62#8).length / 8 ∧ s.env.encOut.acceptsNext 0
      ∧ s.env.encOut.answerAt 0 = some .fail :=
  ⟨encAt .run 0x1E#8 7#3 failing, by decide, by decide, by decide, Sink.acceptsNext_zero _, by decide⟩
theorem witness_EncEndPadsAndCloses :
    (encAt .idle 0 0 Sink.fresh).enc.accN = 0
      ∧ (encAt .run 0xFE#8 7#3 Sink.fresh).enc.accN ≠ 0 ∧ (encAt .run 0xFE#8 7#3 Sink.fresh).enc.accClean
      ∧ Sink.fresh.answerAt 0 = some .ok ∧ failing.answerAt 0 = some .fail
      ∧ (encAt .fail 0 0 Sink.fresh).enc.state = .fail := by decide
theorem witness_EncAbortFails : (encAt .run 0 0 Sink.fresh).enc.state = .run
    ∧ (encAt .done 0 0 Sink.fresh).enc.state = .done := by decide
theorem witness_DecStateTable :
    decTable .decAbort .run = .leaves .fail ∧ completes .decAbort (decAt .run t1 0 Sink.fresh) = true
      ∧ decTable (.decPut 0#8 8#4) .idle = .leavesOrFails .run
      ∧ completes (.decPut 0#8 8#4) (decAt .idle t1 0 Sink.fresh) = true
      ∧ decTable (.wrreg 3#5 0#16) .done = .seq
      ∧ completes (.wrreg 3#5 0#16) (decAt .done t1 0 Sink.fresh) = true
      ∧ decTable (.wrreg 1#5 0#16) .done = .keeps
      ∧ completes (.wrreg 1#5 0#16) (decAt .done t1 0 Sink.fresh) = true := by decide
theorem witness_WalkBitMovesCursor :
    Dec.noChild (decAt .run t2 0 Sink.fresh).dec false 0#9 ∧ Dec.noChild (decAt .run t2 1#9 Sink.fresh).dec true 1#9
      ∧ (decAt .run t1 0 Sink.fresh).dec.node 0#9 = some (.int 1#9 2#9)
      ∧ (decAt .run t1 0 Sink.fresh).dec.node 2#9 = some (.int 3#9 4#9)
      ∧ (decAt .run t1 0 Sink.fresh).dec.node 1#9 = some (.leaf 0x61#8)
      ∧ Sink.fresh.answerAt 0 = some .ok ∧ failing.answerAt 0 = some .fail :=
  ⟨.inr ⟨_, _, rfl, rfl⟩, .inl ⟨_, rfl⟩, by decide⟩
theorem witness_tree_commands : 510#9 ≠ 0x1FF#9 ∧ (decAt .idle t1 0 Sink.fresh).dec.state = .idle
    ∧ (decAt .run t1 0 Sink.fresh).dec.state ≠ .idle := by decide

/-- The hypotheses of the statements about a DEC.PUT that walks: `0x1F` with 8 bits on T1. -/
theorem witness_DecPutDecodesBits :
    (8#4).toNat ≤ 8 ∧ (decAt .idle t1 0 Sink.fresh).dec.present = true
      ∧ (decAt .idle t1 0 Sink.fresh).dec.spells ((byteBits 0x1F#8).take (8#4).toNat)
          (decAt .idle t1 0 Sink.fresh).dec.walkStart
        = some ([0x61#8, 0x61#8, 0x61#8, 0x62#8, 0x62#8], 2#9)
      ∧ (decAt .idle t1 0 Sink.fresh).env.decOut.acceptsNext 5
      ∧ State.reset.dec.present = false ∧ (decAt .done t1 0 Sink.fresh).dec.state = .done
      ∧ 9 ≤ (9#4).toNat :=
  ⟨by decide, by decide, by decide, ok_accepts 5, by decide, by decide, by decide⟩
theorem witness_DecPutMalformed :
    (byteBits 0xE0#8).take (8#4).toNat = [true, true, true] ++ false :: [false, false, false, false]
      ∧ (decAt .idle t2 0 Sink.fresh).dec.spells [true, true, true] (decAt .idle t2 0 Sink.fresh).dec.walkStart
        = some ([0x61#8, 0x61#8, 0x61#8], 0#9)
      ∧ (decAt .idle t2 0 Sink.fresh).dec.noChild false 0#9
      ∧ (decAt .idle t2 0 Sink.fresh).env.decOut.acceptsNext 3 :=
  ⟨by decide, by decide, .inr ⟨_, _, rfl, rfl⟩, ok_accepts 3⟩
theorem witness_DecPutSinkFailure :
    (byteBits 0#8).take (1#4).toNat = [] ++ false :: []
      ∧ (decAt .idle t1 0 failing).dec.spells [] (decAt .idle t1 0 failing).dec.walkStart = some ([], 0#9)
      ∧ (decAt .idle t1 0 failing).dec.follow [false] 0#9 = some 1#9
      ∧ (decAt .idle t1 0 failing).dec.node 1#9 = some (.leaf 0x61#8)
      ∧ (decAt .idle t1 0 failing).env.decOut.acceptsNext 0
      ∧ (decAt .idle t1 0 failing).env.decOut.answerAt 0 = some .fail :=
  ⟨by decide, by decide, by decide, by decide, Sink.acceptsNext_zero _, by decide⟩
theorem witness_OnlyUnwrittenNodeFaults :
    (decAt .run [] 7#9 Sink.fresh).dec.spells [] (decAt .run [] 7#9 Sink.fresh).dec.walkStart = some ([], 7#9)
      ∧ (decAt .run [] 7#9 Sink.fresh).dec.node 7#9 = none
      ∧ (decAt .run [(0, .int 1#9 2#9)] 0 Sink.fresh).dec.follow [false] 0#9 = some 1#9
      ∧ (decAt .run [(0, .int 1#9 2#9)] 0 Sink.fresh).dec.node 1#9 = none
      ∧ exec (.decPut 0#8 1#4) (decAt .run [(0, .int 1#9 2#9)] 0 Sink.fresh)
          = .fault (.unwrittenNode 1#9) :=
  ⟨by decide, by decide, by decide, by decide, rfl⟩
theorem witness_DecEndRecordsTrunc : (decAt .run t1 2#9 Sink.fresh).dec.state = .run
    ∧ (decAt .run t1 2#9 Sink.fresh).dec.cur ≠ (decAt .run t1 2#9 Sink.fresh).dec.rootIdx
    ∧ (decAt .fail t1 0 Sink.fresh).dec.state = .fail := by decide
theorem witness_invariants : StateInv State.reset ∧ StatusInv State.reset
    ∧ (∃ t, step (bringing 0x50000000#32) = .next t) ∧ StateInv (encAt .run 0xFE#8 7#3 Sink.fresh) :=
  ⟨by decide, by decide, ⟨_, rfl⟩, by decide⟩
theorem witness_TablesFixedDuringRun : (∃ t, exec .ctClr (encAt .run 0 0 Sink.fresh) = .next t)
    ∧ (encAt .run 0 0 Sink.fresh).enc.state ≠ .idle
    ∧ (∃ t, exec (.tLeaf 0#9 0#8) (decAt .run t1 0 Sink.fresh) = .next t)
    ∧ (decAt .run t1 0 Sink.fresh).dec.state ≠ .idle :=
  ⟨⟨_, rfl⟩, by decide, ⟨_, rfl⟩, by decide⟩
theorem witness_OnlyWritersWrite :
    (∃ t, exec .encAbort (encAt .run 0 0 Sink.fresh) = .next t)
      ∧ ∃ t, exec .encEnd (encAt .done 0 0 Sink.fresh) = .next t
        ∧ t.glob.refused ≠ (encAt .done 0 0 Sink.fresh).glob.refused :=
  ⟨⟨_, rfl⟩, ⟨_, rfl, by decide⟩⟩
theorem witness_UnitsIndependent :
    Instr.isEnc .encEnd = true ∧ Instr.isDec .decEnd = true
      ∧ (∃ t, exec .encEnd (encAt .run 0 1#3 Sink.fresh) = .next t)
      ∧ (∃ t, exec .decEnd (decAt .run t1 2#9 Sink.fresh) = .next t)
      ∧ ({ decAt .run t1 2#9 Sink.fresh with enc := (encAt .run 0 1#3 Sink.fresh).enc } : State).enc
          = (encAt .run 0 1#3 Sink.fresh).enc :=
  ⟨rfl, rfl, ⟨_, rfl⟩, ⟨_, rfl⟩, rfl⟩
theorem witness_FirstFatalErrorStands :
    (encAt .fail 0 0 Sink.fresh).enc.state = .fail ∧ (decAt .fail t1 0 Sink.fresh).dec.state = .fail
      ∧ (∃ t, exec .encAbort (encAt .fail 0 0 Sink.fresh) = .next t)
      ∧ ∃ t, exec .decAbort (decAt .fail t1 0 Sink.fresh) = .next t :=
  ⟨by decide, by decide, ⟨_, rfl⟩, ⟨_, rfl⟩⟩
theorem witness_RefusalChangesNothingElse :
    (∃ t, step (bringing 0x58000000#32) = .next t ∧ t.env.rsps = [] ++ [⟨.illegal, 0⟩])
      ∧ (∃ t, step (bringing 0x38000001#32) = .next t ∧ t.env.rsps = [] ++ [⟨.seq, 0⟩]
        ∧ t.glob.refused = true ∧ ∃ u, step t = .next u) :=
  ⟨⟨_, rfl, by decide⟩, ⟨_, rfl, by decide, by decide, ⟨_, rfl⟩⟩⟩
theorem witness_HowEachCommandEnds : (Instr.encPut 0x7A#8).WellFormed
    ∧ ∃ t, exec (.encPut 0x7A#8) State.reset = .next t ∧ t.env.rsps = [] ++ [⟨.unencodable, 0x7A#32⟩] :=
  ⟨by decide, ⟨_, rfl, by decide⟩⟩
set_option maxRecDepth 8000 in
theorem witness_OrderOfChecks : decode 0x40000161#32 = .illegal .reservedBits
    ∧ (bringing 0x40000161#32).env.stalled = false
    ∧ (encAt .done 0 0 Sink.fresh).enc.len 0x7A#8 = 0 ∧ (encAt .done 0 0 Sink.fresh).enc.state = .done
    ∧ (let e : Enc := { Enc.reset with ct := [(0, List.replicate 255 true)] }
       e.len e.selSym = 255 ∧ e.selV = false) := by decide
theorem witness_IrqLevel :
    (let s : State := { encAt .fail 0 0 Sink.fresh with glob := { Global.reset with eie := true } }
     s.irq = true ∧ (∃ t, exec .encInit s = .next t) ∧ (∃ t, exec .decInit s = .next t)
      ∧ (∃ t, exec .srst s = .next t) ∧ ∃ t, exec (.wrreg 1#5 0#16) s = .next t) :=
  ⟨by decide, ⟨_, rfl⟩, ⟨_, rfl⟩, ⟨_, rfl⟩, ⟨_, rfl⟩⟩
theorem witness_RepeatedCommandChangesNothing :
    ∀ i ∈ [Instr.ctOpen 0x62#8, .wrreg 3#5 0x3FE#16, .tLeaf 510#9 0xFF#8, .ctClr], i.isIdempotent = true
      ∧ (after i (encAt .idle 0 0 Sink.fresh)).isSome = true := by decide
theorem witness_SilentSinkStallsBlock :
    (∃ s : State, s.enc.state = .run ∧ s.enc.code 0x62#8 ≠ []
        ∧ 0 < (s.enc.held ++ s.enc.code 0x62#8).length / 8 ∧ s.env.encOut.acceptsNext 0
        ∧ s.env.encOut.answerAt 0 = none)
      ∧ (∃ s : State, s.enc.state = .run ∧ s.enc.accN ≠ 0 ∧ s.env.encOut.answerAt 0 = none)
      ∧ (∃ s : State, s.dec.present = true ∧ (byteBits 0#8).take (1#4).toNat = [] ++ false :: []
        ∧ s.dec.spells [] s.dec.walkStart = some ([], 0#9) ∧ s.dec.follow [false] 0#9 = some 1#9
        ∧ s.dec.node 1#9 = some (.leaf 0x61#8) ∧ s.env.decOut.acceptsNext 0
        ∧ s.env.decOut.answerAt 0 = none)
      ∧ State.reset.stall.env.stalled = true :=
  ⟨⟨encAt .run 0x1E#8 7#3 mute, by decide, by decide, by decide, Sink.acceptsNext_zero _, by decide⟩,
    ⟨encAt .run 0xFE#8 7#3 mute, by decide, by decide, by decide⟩,
    ⟨decAt .idle t1 0 mute, by decide, by decide, by decide, by decide, by decide, Sink.acceptsNext_zero _,
      by decide⟩, rfl⟩
/-- An absent tree is written; so is the tree of one leaf and its root, with the cursor on the root. -/
theorem witness_WrittenTreeNeverFaults : State.reset.dec.treeWritten ∧ State.reset.dec.cursorOnTree
    ∧ (decAt .run [(0, .leaf 0x61#8)] 0 Sink.fresh).dec.treeWritten
    ∧ (decAt .run [(0, .leaf 0x61#8)] 0 Sink.fresh).dec.cursorOnTree
    ∧ (decAt .run [(0, .leaf 0x61#8)] 0 Sink.fresh).dec.state = .run := by
  refine ⟨fun h => absurd h (by decide), fun h => absurd h (by decide), fun _ bits j h => ?_,
    fun _ _ => ⟨[], rfl⟩, rfl⟩
  cases bits with
  | nil => cases h; decide
  | cons b bs => rw [Dec.follow_leaf (sym := 0x61#8) (by decide)] at h; cases h

/-- P1's table and P2's tree agree on 'a', 'b' and 'c', and the sinks never fail. -/
def codec : State :=
  { State.reset with
    enc := { Enc.reset with ct := p1Table }
    dec := { Dec.reset with tm := t1, present := true } }

theorem agrees_abc : ∀ x ∈ [0x61#8, 0x62#8, 0x63#8], Agrees codec x := by
  intro x hx
  simp only [List.mem_cons, List.not_mem_nil, or_false] at hx
  rcases hx with rfl | rfl | rfl
  · exact ⟨rfl, by decide, 1#9, by decide, by decide⟩
  · exact ⟨rfl, by decide, 4#9, by decide, by decide⟩
  · exact ⟨rfl, by decide, 3#9, by decide, by decide⟩
set_option maxRecDepth 8000 in
theorem witness_codec_laws : codec.env.stalled = false ∧ codec.env.encOut.neverFails
    ∧ codec.env.decOut.neverFails ∧ codec.dec.present = true
    ∧ (∀ x ∈ [0x61#8, 0x62#8, 0x63#8], codec.enc.code x ≠ []) := by decide
theorem witness_EmptyInput : State.reset.env.stalled = false ∧ State.reset.dec.present = false
    ∧ (8#4).toNat ≤ 8 := by decide
theorem witness_SingleSymbolOutput :
    ({ State.reset with enc := { Enc.reset with ct := [(0x61, [true])] } } : State).enc.code 0x61#8
      = [true] := by decide
theorem witness_AgreementIsPrefixFree : Agrees codec 0x61#8 ∧ Agrees codec 0x62#8 ∧ 0x61#8 ≠ 0x62#8 :=
  ⟨agrees_abc _ (by decide), agrees_abc _ (by decide), by decide⟩
/-- Clauses (b) and (c) of R186: T1 with filler 0 (d = 1) and 1 (d = 2); T2 with filler 0 (j = 0); a tree
whose all-0 path meets the absent child at depth j = 1. -/
theorem witness_WholeByteDecoding :
    codec.dec.follow (List.replicate 1 false) codec.dec.rootIdx = some 1#9
      ∧ codec.dec.node 1#9 = some (.leaf 0x61#8)
      ∧ codec.dec.follow (List.replicate 2 true) codec.dec.rootIdx = some 4#9
      ∧ codec.dec.node 4#9 = some (.leaf 0x62#8)
      ∧ (decAt .idle t2 0 Sink.fresh).dec.follow (List.replicate 0 false) 0#9 = some 0#9
      ∧ (decAt .idle t2 0 Sink.fresh).dec.node 0#9 = some (.int 0x1FF#9 1#9)
      ∧ childOn false 0x1FF#9 1#9 = 0x1FF#9
      ∧ (let d := (decAt .idle [(0, .int 1#9 2#9), (1, .int 0x1FF#9 3#9)] 0 Sink.fresh).dec
         d.follow (List.replicate 1 false) d.rootIdx = some 1#9
          ∧ d.node 1#9 = some (.int 0x1FF#9 3#9)) := by decide

/-- The code "1" for 'a', the tree `tm` with its root at 0, filler 0. -/
def oneSymbol (tm : List (Nat × Node)) : State :=
  { State.reset with
    enc := { Enc.reset with ct := [(0x61, [true])] }
    dec := { Dec.reset with tm := tm, present := true } }

/-- A tree whose all-0 path meets the absent child at depth 1. -/
def gapTree : List (Nat × Node) := [(0, .int 1#9 2#9), (1, .int 0x1FF#9 0x1FF#9), (2, .leaf 0x61#8)]

theorem agrees_oneSymbol : Agrees (oneSymbol t2) 0x61#8 ∧ Agrees (oneSymbol gapTree) 0x61#8 :=
  ⟨⟨rfl, by decide, 1#9, by decide, by decide⟩, ⟨rfl, by decide, 2#9, by decide, by decide⟩⟩

set_option maxRecDepth 8000 in
/-- Clause (c) whole, with agreement and the run's own `k`: T2 and one 'a' (k = 7 above j = 0), and
`gapTree` and seven 'a' (k = 1, j = 1). -/
theorem witness_WholeByteDecoding_gap :
    (∃ t, Issued (oneSymbol t2) (encRun [0x61#8] ++ [.encEnd]) t
        ∧ (oneSymbol t2).glob.fill = false ∧ 0 < (8 - t.enc.lastN.toNat) % 8
        ∧ (oneSymbol t2).dec.follow (List.replicate 0 false) (oneSymbol t2).dec.rootIdx = some 0#9
        ∧ (oneSymbol t2).dec.node 0#9 = some (.int 0x1FF#9 1#9))
      ∧ ∃ t, Issued (oneSymbol gapTree) (encRun (List.replicate 7 0x61#8) ++ [.encEnd]) t
        ∧ 1 ≤ (8 - t.enc.lastN.toNat) % 8 ∧ (8 - t.enc.lastN.toNat) % 8 ≤ 1
        ∧ (oneSymbol gapTree).dec.follow (List.replicate 1 false) (oneSymbol gapTree).dec.rootIdx = some 1#9
        ∧ (oneSymbol gapTree).dec.node 1#9 = some (.int 0x1FF#9 0x1FF#9) :=
  ⟨⟨_, rfl, by decide, by decide, by decide, by decide⟩, ⟨_, rfl, by decide, by decide, by decide, by decide⟩⟩

end Sys2Proof.Tests
end

section
/-! What one command can do to each unit, and what one step can do to both: the one case distinction from
which the invariants of the state follow. -/

namespace Sys2Proof.Machine

/-! ## One command as seen by ENC -/

/-- What a command can do to the encoder `e`. The index says whether the block is stalled after it: only a
stalled ENC.END leaves `e` between LASTN and DONE (R127, R68). -/
inductive EncChange (e : Enc) : Bool → Enc → Prop
  | keep {w} : EncChange e w e
  | reset {w} : EncChange e w Enc.reset
  | restart {w} : EncChange e w e.restart
  | clear {w} (hi : e.state = .idle) : EncChange e w { e with ct := [], selV := false }
  | openEntry {w} (hi : e.state = .idle) (sym : Byte) :
      EncChange e w { e.setCode sym [] with selSym := sym, selV := true }
  | push {w} (hi : e.state = .idle) (b : Bool) (hl : e.len e.selSym ≠ 255) :
      EncChange e w (e.setCode e.selSym (e.code e.selSym ++ [b]))
  /-- The bits of an ENC.PUT went through the packer (R126). -/
  | put {w} (ho : e.state.isOpen = true) (acc : Byte) (n : BitVec 3) (syms bits bytes : Word)
      (hc : e.accClean → ({ e with acc := acc, accN := n } : Enc).accClean) :
      EncChange e w { e with
        state := .run, syms := syms, acc := acc, accN := n, bits := bits, bytes := bytes }
  /-- ENC.END completed (R127). -/
  | finish {w} (ho : e.state.isOpen = true) (acc : Byte) (bytes : Word) (hc : e.accClean → acc = 0) :
      EncChange e w { e with state := .done, lastN := e.accN, acc := acc, accN := 0, bytes := bytes }
  /-- ENC.END while its padded byte is offered (R127). -/
  | flush (ho : e.state.isOpen = true) (bytes : Word) :
      EncChange e true { e with lastN := e.accN, acc := 0, accN := 0, bytes := bytes }
  /-- The command fails, or aborts, after what it had done (R204, R128). -/
  | fail {w w' : Bool} {e' : Enc} (h : EncChange e w e') (ho : e'.state.isOpen = true) {c : Cause}
      (hc : c = .unencodable ∨ c = .ioerr) (sym : Byte) (src : Bool) :
      EncChange e w' (e'.enterFail c sym src)

/-- Every next state of every command, as seen by ENC. -/
theorem exec_encChange {i : Instr} {s t : State} (h : exec i s = .next t) :
    EncChange s.enc t.env.stalled t.enc := by
  cases i with
  | nop => rw [nop_form h]; exact .keep
  | srst => rw [srst_form h]; exact .reset
  | rdreg r => rcases rdreg_forms h with ⟨_, -, rfl⟩ | ⟨-, rfl⟩ <;> exact .keep
  | wrreg r v =>
    rcases wrreg_forms h with ⟨-, rfl⟩ | ⟨-, -, rfl⟩ | ⟨-, -, -, ⟨-, rfl⟩ | ⟨-, rfl⟩⟩ <;> exact .keep
  | encInit => rw [encInit_form h]; exact .restart
  | ctClr =>
    rcases ctClr_forms h with ⟨-, rfl⟩ | ⟨hi, rfl⟩
    · exact .keep
    · exact .clear hi
  | ctOpen sym =>
    rcases ctOpen_forms h with ⟨-, rfl⟩ | ⟨hi, rfl⟩
    · exact .keep
    · exact .openEntry hi sym
  | ctPush b =>
    rcases ctPush_forms h with ⟨-, rfl⟩ | ⟨hi, -, ⟨-, rfl⟩ | ⟨hl, rfl⟩⟩
    · exact .keep
    · exact .keep
    · exact .push hi b hl
  | encPut sym =>
    rcases encPut_forms h with ⟨-, rfl⟩ | ⟨ho, -, rfl⟩
      | ⟨ho, -, bits, bytes, k, ⟨acc, n, hc, rfl⟩ | rfl | ⟨-, rfl⟩⟩
    · exact .keep
    · exact .fail (w := false) .keep ho (.inl rfl) sym false
    · exact .put ho acc n _ bits bytes hc
    · exact .fail (w := false) (.put ho 0 0 _ bits bytes fun _ _ _ => by simp) rfl (.inr rfl) 0 false
    · exact .put ho 0 0 _ bits bytes fun _ _ _ => by simp
  | encEnd =>
    rcases encEnd_forms h with ⟨-, rfl⟩ | ⟨ho, bytes, k, ⟨acc, hc, rfl⟩ | rfl | ⟨-, rfl⟩⟩
    · exact .keep
    · exact .finish ho acc bytes hc
    · exact .fail (.flush ho bytes) ho (.inr rfl) 0 false
    · exact .flush ho bytes
  | encAbort =>
    rcases encAbort_forms h with ⟨-, rfl⟩ | ⟨ho, rfl⟩
    · exact .keep
    · exact .fail (w := false) .keep ho (.inr rfl) 0 true
  | decInit => rw [decInit_form h]; exact .keep
  | tLeaf idx sym =>
    rcases tLeaf_forms h with ⟨-, rfl⟩ | ⟨-, ⟨-, rfl⟩ | ⟨-, rfl⟩⟩ <;> exact .keep
  | tInt idx l r =>
    rcases tInt_forms h with ⟨-, rfl⟩ | ⟨-, ⟨-, rfl⟩ | ⟨-, rfl⟩⟩ <;> exact .keep
  | decPut byte n =>
    rcases decPut_forms h with ⟨-, rfl⟩ | ⟨-, -, rfl⟩
      | ⟨-, -, _, _, _, _, -, rfl | ⟨_, rfl⟩ | rfl | ⟨-, rfl⟩⟩ <;> exact .keep
  | decEnd => rcases decEnd_forms h with ⟨-, rfl⟩ | ⟨-, rfl⟩ <;> exact .keep
  | decAbort => rcases decAbort_forms h with ⟨-, rfl⟩ | ⟨-, rfl⟩ <;> exact .keep

/-! ## One command as seen by DEC -/

/-- What a command can do to the decoder `d`. -/
inductive DecChange (d : Dec) : Dec → Prop
  | keep : DecChange d d
  | reset : DecChange d Dec.reset
  | restart : DecChange d d.restart
  | troot (hi : d.state = .idle) (v : BitVec 16) (hv : v.toNat % 512 ≠ 511) :
      DecChange d (d.writeTroot v)
  | node (hi : d.state = .idle) (i : Idx) (n : Node) (hn : i ≠ Config.nil) : DecChange d (d.setNode i n)
  /-- The bits of a DEC.PUT were walked (R155). -/
  | walk (ho : d.state.isOpen = true) (cur : Idx) (bits syms : Word)
      (hc : d.rootIdx ≠ Config.nil → d.cur ≠ Config.nil → cur ≠ Config.nil) :
      DecChange d { d with state := .run, cur := cur, bits := bits, syms := syms }
  /-- DEC.END completed (R156). -/
  | finish (ho : d.state.isOpen = true) : DecChange d { d with trunc := d.midCode, state := .done }
  /-- The command fails, or aborts, after what it had done (R204, R157). -/
  | fail {d' : Dec} (h : DecChange d d') (ho : d'.state.isOpen = true) {c : Cause}
      (hc : c = .malformed ∨ c = .ioerr) (node : Idx) (bit src : Bool) :
      DecChange d (d'.enterFail c node bit src)

/-- Every next state of every command, as seen by DEC. -/
theorem exec_decChange {i : Instr} {s t : State} (h : exec i s = .next t) : DecChange s.dec t.dec := by
  cases i with
  | nop => rw [nop_form h]; exact .keep
  | srst => rw [srst_form h]; exact .reset
  | rdreg r => rcases rdreg_forms h with ⟨_, -, rfl⟩ | ⟨-, rfl⟩ <;> exact .keep
  | wrreg r v =>
    rcases wrreg_forms h with ⟨-, rfl⟩ | ⟨-, -, rfl⟩ | ⟨-, -, hv, ⟨-, rfl⟩ | ⟨hi, rfl⟩⟩
    · exact .keep
    · exact .keep
    · exact .keep
    · exact .troot hi v hv
  | encInit => rw [encInit_form h]; exact .keep
  | ctClr => rcases ctClr_forms h with ⟨-, rfl⟩ | ⟨-, rfl⟩ <;> exact .keep
  | ctOpen sym => rcases ctOpen_forms h with ⟨-, rfl⟩ | ⟨-, rfl⟩ <;> exact .keep
  | ctPush b =>
    rcases ctPush_forms h with ⟨-, rfl⟩ | ⟨-, -, ⟨-, rfl⟩ | ⟨-, rfl⟩⟩ <;> exact .keep
  | encPut sym =>
    rcases encPut_forms h with ⟨-, rfl⟩ | ⟨-, -, rfl⟩
      | ⟨-, -, _, _, _, ⟨_, _, -, rfl⟩ | rfl | ⟨-, rfl⟩⟩ <;> exact .keep
  | encEnd =>
    rcases encEnd_forms h with ⟨-, rfl⟩ | ⟨-, _, _, ⟨_, -, rfl⟩ | rfl | ⟨-, rfl⟩⟩ <;> exact .keep
  | encAbort => rcases encAbort_forms h with ⟨-, rfl⟩ | ⟨-, rfl⟩ <;> exact .keep
  | decInit => rw [decInit_form h]; exact .restart
  | tLeaf idx sym =>
    rcases tLeaf_forms h with ⟨-, rfl⟩ | ⟨hn, ⟨-, rfl⟩ | ⟨hi, rfl⟩⟩
    · exact .keep
    · exact .keep
    · exact .node hi idx _ hn
  | tInt idx l r =>
    rcases tInt_forms h with ⟨-, rfl⟩ | ⟨hn, ⟨-, rfl⟩ | ⟨hi, rfl⟩⟩
    · exact .keep
    · exact .keep
    · exact .node hi idx _ hn
  | decPut byte n =>
    rcases decPut_forms h with ⟨-, rfl⟩ | ⟨-, -, rfl⟩
      | ⟨-, ho, cur, bits, syms, k, hc, rfl | ⟨b, rfl⟩ | rfl | ⟨-, rfl⟩⟩
    · exact .keep
    · exact .keep
    · exact .walk ho cur bits syms hc
    · exact .fail (.walk ho cur bits syms hc) rfl (.inl rfl) cur b false
    · exact .fail (.walk ho cur bits syms hc) rfl (.inr rfl) 0 false false
    · exact .walk ho cur bits syms hc
  | decEnd =>
    rcases decEnd_forms h with ⟨-, rfl⟩ | ⟨ho, rfl⟩
    · exact .keep
    · exact .finish ho
  | decAbort =>
    rcases decAbort_forms h with ⟨-, rfl⟩ | ⟨ho, rfl⟩
    · exact .keep
    · exact .fail .keep ho (.inr rfl) 0 false true

/-! ## One step -/

/-- A step that is answered leaves the state as it is, or changes both units as a command can, from a
state that is not stalled, or leaves both units in their reset state with the block not stalled. -/
theorem step_changes {s t : State} (h : step s = .next t) :
    t = s
      ∨ (s.env.stalled = false ∧ EncChange s.enc t.env.stalled t.enc ∧ DecChange s.dec t.dec)
      ∨ (t.enc = Enc.reset ∧ t.dec = Dec.reset ∧ t.env.stalled = false) := by
  rcases step_cases s with hw | ⟨w, rest, -, hs, ⟨i, -, hx⟩ | ⟨why, -, hx⟩⟩ | ⟨rest, -, hx⟩
    | ⟨w, n, rest, -, hs, hx⟩
  · rw [hw] at h; cases h; exact .inl rfl
  · rw [hx] at h
    exact .inr (.inl ⟨hs, exec_encChange (s := s.withPort rest) h,
      exec_decChange (s := s.withPort rest) h⟩)
  · rw [hx] at h; cases h
    exact .inr (.inl ⟨hs, .keep, .keep⟩)
  · rw [hx] at h; cases h
    exact .inr (.inr ⟨rfl, rfl, rfl⟩)
  · rw [hx] at h
    rcases abandon_cases w n (s.withPort rest) with ⟨r, ha⟩ | ⟨r, ha⟩ | ⟨u, ha, -, he, hd, -, -, hu⟩
      <;> rw [ha] at h <;> cases h
    exact .inr (.inr ⟨he, hd, hu.trans hs⟩)

end Sys2Proof.Machine
end

section
/-! The invariants of the state (spec/10_state.md R44) and of the status registers (R24, R25, R31, R32): they
hold of the reset units, and every change of a unit keeps its part of them. -/

namespace Sys2Proof.Machine

/-! ## R44: the invariants of the state -/

/-- What R44 says of ENC beside its table, `w` saying whether the block is stalled. -/
structure EncInv (e : Enc) (w : Bool) : Prop where
  clean : e.accClean
  lastN : w = false → e.lastN ≠ 0 → e.state = .done ∨ e.state = .fail
  cause : e.cause ≠ .none ↔ e.state = .fail
  done : e.state = .done → e.accN = 0 ∧ e.acc = 0

/-- What R44 says of DEC beside its tree memory. -/
structure DecInv (d : Dec) : Prop where
  cause : d.cause ≠ .none ↔ d.state = .fail
  root : d.rootIdx ≠ Config.nil
  cur : d.cur ≠ Config.nil

theorem stateInv_iff (s : State) :
    StateInv s ↔ EncInv s.enc s.env.stalled ∧ DecInv s.dec ∧ Memory.wf s = true :=
  ⟨fun ⟨hc, hl, he, hd, hm, hr, hu, hn⟩ => ⟨⟨hc, hl, he, hn⟩, ⟨hd, hr, hu⟩, hm⟩,
    fun ⟨⟨hc, hl, he, hn⟩, ⟨hd, hr, hu⟩, hm⟩ => ⟨hc, hl, he, hd, hm, hr, hu, hn⟩⟩

theorem accClean_of_acc_zero {e : Enc} (h : e.acc = 0) : e.accClean := fun i _ => by simp [h]

theorem EncInv.reset (w : Bool) : EncInv Enc.reset w :=
  ⟨by decide, by decide +revert, by decide, by decide⟩

theorem zero_ne_nil : (0 : Idx) ≠ Config.nil := by decide

theorem DecInv.reset : DecInv Dec.reset := ⟨by decide, zero_ne_nil, zero_ne_nil⟩

/-- A unit that accepts its data commands is neither in DONE nor in FAIL. -/
theorem UnitState.isOpen_ne {u : UnitState} (h : u.isOpen = true) : u ≠ .done ∧ u ≠ .fail := by
  cases u <;> simp_all [UnitState.isOpen]

/-- Between commands LASTN of a unit that accepts its data commands is 0 (R44, 2). -/
theorem EncInv.lastN_zero {e : Enc} (h : EncInv e false) (ho : e.state.isOpen = true) : e.lastN = 0 := by
  have hne := UnitState.isOpen_ne ho
  by_contra hl
  exact (h.lastN rfl hl).elim hne.1 hne.2

theorem EncInv.cause_none {e : Enc} {w : Bool} (h : EncInv e w) (ho : e.state.isOpen = true) :
    e.cause = .none := by
  by_contra hc
  exact (UnitState.isOpen_ne ho).2 (h.cause.1 hc)

theorem DecInv.cause_none {d : Dec} (h : DecInv d) (ho : d.state.isOpen = true) : d.cause = .none := by
  by_contra hc
  exact (UnitState.isOpen_ne ho).2 (h.cause.1 hc)

/-- R44 speaks of five fields of ENC; a change of the others keeps it. -/
theorem EncInv.congr {e e' : Enc} (h : EncInv e false) {w : Bool} (ha : e'.acc = e.acc)
    (hn : e'.accN = e.accN) (hl : e'.lastN = e.lastN) (hs : e'.state = e.state)
    (hc : e'.cause = e.cause) : EncInv e' w where
  clean i := by rw [ha, hn]; exact h.clean i
  lastN _ := by rw [hl, hs]; exact h.lastN rfl
  cause := by rw [hc, hs]; exact h.cause
  done := by rw [ha, hn, hs]; exact h.done

/-- Every command keeps what R44 says of ENC. -/
theorem EncChange.inv {e e' : Enc} {w : Bool} (hx : EncChange e w e') (h : EncInv e false) :
    EncInv e' w := by
  induction hx with
  | keep => exact h.congr rfl rfl rfl rfl rfl
  | reset => exact EncInv.reset _
  | restart => exact ⟨accClean_of_acc_zero rfl, by simp, by simp, by simp⟩
  | clear => exact h.congr rfl rfl rfl rfl rfl
  | openEntry => exact h.congr rfl rfl rfl rfl rfl
  | push => exact h.congr rfl rfl rfl rfl rfl
  | put ho acc n _ _ _ hc =>
    exact ⟨hc h.clean, fun _ hl => absurd (h.lastN_zero ho) hl, by simp [h.cause_none ho], by simp⟩
  | finish ho acc _ hc =>
    have h0 := hc h.clean
    exact ⟨accClean_of_acc_zero h0, by simp, by simp [h.cause_none ho], fun _ => ⟨rfl, h0⟩⟩
  | flush ho =>
    exact ⟨accClean_of_acc_zero rfl, by simp, h.cause, fun hd => absurd hd (UnitState.isOpen_ne ho).1⟩
  | fail _ _ hc _ _ ih =>
    exact ⟨ih.clean, fun _ _ => .inr rfl, by rcases hc with rfl | rfl <;> simp, by simp⟩

/-- The index WRREG writes to TROOT is not NIL (R86 d, R104). -/
theorem writeTroot_rootIdx_ne_nil {v : BitVec 16} (hv : v.toNat % 512 ≠ 511) :
    v.extractLsb' 0 9 ≠ Config.nil := fun h => hv (by simpa using congrArg BitVec.toNat h)

/-- Every command keeps what R44 says of DEC. -/
theorem DecChange.inv {d d' : Dec} (hx : DecChange d d') (h : DecInv d) : DecInv d' := by
  induction hx with
  | keep => exact h
  | reset => exact DecInv.reset
  | restart => exact ⟨by simp, h.root, zero_ne_nil⟩
  | troot _ v hv => exact ⟨h.cause, writeTroot_rootIdx_ne_nil hv, h.cur⟩
  | node => exact ⟨h.cause, h.root, h.cur⟩
  | walk ho _ _ _ hc => exact ⟨by simp [h.cause_none ho], h.root, hc h.root h.cur⟩
  | finish ho => exact ⟨by simp [h.cause_none ho], h.root, h.cur⟩
  | fail _ _ hc _ _ _ ih => exact ⟨by rcases hc with rfl | rfl <;> simp, ih.root, ih.cur⟩

/-- Every command keeps the canonical form of the code table. -/
theorem EncChange.wf {s : State} {e : Enc} {w : Bool} (hx : EncChange s.enc w e)
    (h : Memory.wf s = true) : Memory.wf { s with enc := e } = true := by
  induction hx with
  | keep => exact h
  | reset => exact Memory.wf_clear h rfl rfl
  | restart => exact h
  | clear => exact Memory.wf_clear h rfl rfl
  | openEntry _ sym => exact Memory.wf_setCode h sym [] (by simp) rfl rfl
  | push _ b hl =>
    refine Memory.wf_setCode h s.enc.selSym (s.enc.code s.enc.selSym ++ [b]) ?_ rfl rfl
    have hle : (s.enc.code s.enc.selSym).length ≤ 255 := Memory.len_le h s.enc.selSym
    have hne : (s.enc.code s.enc.selSym).length ≠ 255 := hl
    rw [List.length_append, List.length_singleton]
    omega
  | put => exact h
  | finish => exact h
  | flush => exact h
  | fail _ _ _ _ _ ih => exact ih

/-- An empty tree memory is in canonical form. -/
theorem Memory.wf_clearTree {s t : State} (h : Memory.wf s = true) (hc : t.enc.ct = s.enc.ct)
    (ht : t.dec.tm = []) : Memory.wf t = true := by
  obtain ⟨h1, h2, -, -⟩ := (Memory.wf_iff s).1 h
  exact (Memory.wf_iff t).2 ⟨by rwa [hc], by rwa [hc], by simp [ht, cellsSorted], by simp [ht]⟩

/-- Every command keeps the canonical form of the tree memory. -/
theorem DecChange.wf {s : State} {d : Dec} (hx : DecChange s.dec d) (h : Memory.wf s = true) :
    Memory.wf { s with dec := d } = true := by
  induction hx with
  | keep => exact h
  | reset => exact Memory.wf_clearTree h rfl rfl
  | restart => exact h
  | troot => exact h
  | node _ i n hn => exact Memory.wf_setNode h i n hn rfl rfl
  | walk => exact h
  | finish => exact h
  | fail _ _ _ _ _ _ ih => exact ih

/-- The canonical form depends on the two units only, which change one after the other. -/
theorem Memory.wf_changes {s t : State} {w : Bool} (he : EncChange s.enc w t.enc)
    (hd : DecChange s.dec t.dec) (h : Memory.wf s = true) : Memory.wf t = true :=
  DecChange.wf (s := { s with enc := t.enc }) hd (he.wf h)

/-- Settles O41: a step waits, changes the units as a command can, or resets them, and each keeps R44. -/
theorem invKeptByStep : Obligations.InvKeptByStep := by
  intro s t hs h
  rw [stateInv_iff] at hs ⊢
  obtain ⟨he, hd, hm⟩ := hs
  rcases step_changes h with rfl | ⟨hw, hxe, hxd⟩ | ⟨hte, htd, -⟩
  · exact ⟨he, hd, hm⟩
  · rw [hw] at he
    exact ⟨hxe.inv he, hxd.inv hd, Memory.wf_changes hxe hxd hm⟩
  · rw [hte, htd]
    exact ⟨EncInv.reset _, DecInv.reset, Memory.wf_changes (w := false) (hte ▸ .reset) (htd ▸ .reset) hm⟩

/-! ## R24, R25, R31, R32: causes, error information and TRUNC -/

/-- What R24 and R25 say of ENC beside R44. -/
structure EncStatusInv (e : Enc) : Prop where
  cause : e.cause ≠ .malformed
  info : e.cause = .none → e.errSym = 0 ∧ e.errSrc = false

/-- What R31 and R32 say of DEC beside R44. -/
structure DecStatusInv (d : Dec) : Prop where
  cause : d.cause ≠ .unencodable
  info : d.cause = .none → d.errNode = 0 ∧ d.errBit = false ∧ d.errSrc = false
  trunc : d.trunc = true → d.state = .done

theorem statusInv_iff (s : State) : StatusInv s ↔ EncStatusInv s.enc ∧ DecStatusInv s.dec :=
  ⟨fun ⟨he, hd, hei, hdi, ht⟩ => ⟨⟨he, hei⟩, ⟨hd, hdi, ht⟩⟩,
    fun ⟨⟨he, hei⟩, ⟨hd, hdi, ht⟩⟩ => ⟨he, hd, hei, hdi, ht⟩⟩

theorem EncStatusInv.reset : EncStatusInv Enc.reset := ⟨by decide, by decide⟩

theorem DecStatusInv.reset : DecStatusInv Dec.reset := ⟨by decide, by decide, by decide⟩

/-- TRUNC is 0 in a decoder that accepts its data commands. -/
theorem DecStatusInv.not_trunc {d : Dec} (h : DecStatusInv d) (ho : d.state.isOpen = true) :
    d.trunc ≠ true := fun ht => (UnitState.isOpen_ne ho).1 (h.trunc ht)

/-- Every command keeps what R24 and R25 say of ENC. -/
theorem EncChange.statusInv {e e' : Enc} {w : Bool} (hx : EncChange e w e') (h : EncStatusInv e) :
    EncStatusInv e' := by
  induction hx with
  | keep => exact h
  | reset => exact EncStatusInv.reset
  | restart => exact ⟨by simp, by simp⟩
  | clear => exact ⟨h.cause, h.info⟩
  | openEntry => exact ⟨h.cause, h.info⟩
  | push => exact ⟨h.cause, h.info⟩
  | put => exact ⟨h.cause, h.info⟩
  | finish => exact ⟨h.cause, h.info⟩
  | flush => exact ⟨h.cause, h.info⟩
  | fail _ _ hc => rcases hc with rfl | rfl <;> exact ⟨by simp, by simp⟩

/-- Every command keeps what R31 and R32 say of DEC. -/
theorem DecChange.statusInv {d d' : Dec} (hx : DecChange d d') (h : DecStatusInv d) :
    DecStatusInv d' := by
  induction hx with
  | keep => exact h
  | reset => exact DecStatusInv.reset
  | restart => exact ⟨by simp, by simp, by simp⟩
  | troot => exact ⟨h.cause, h.info, h.trunc⟩
  | node => exact ⟨h.cause, h.info, h.trunc⟩
  | walk ho => exact ⟨h.cause, h.info, fun ht => absurd ht (h.not_trunc ho)⟩
  | finish => exact ⟨h.cause, h.info, fun _ => rfl⟩
  | fail _ ho hc _ _ _ ih =>
    have ht := ih.not_trunc ho
    rcases hc with rfl | rfl <;> exact ⟨by simp, by simp, fun h' => absurd h' ht⟩

/-- Settles O42, by what a step can do to each unit. -/
theorem statusInvKeptByStep : Obligations.StatusInvKeptByStep := by
  intro s t hs h
  rw [statusInv_iff] at hs ⊢
  obtain ⟨he, hd⟩ := hs
  rcases step_changes h with rfl | ⟨-, hxe, hxd⟩ | ⟨hte, htd, -⟩
  · exact ⟨he, hd⟩
  · exact ⟨hxe.statusInv he, hxd.statusInv hd⟩
  · rw [hte, htd]
    exact ⟨EncStatusInv.reset, DecStatusInv.reset⟩

/-- Settles O40: every part of both invariants holds of the reset units. -/
theorem invAtReset : Obligations.InvAtReset :=
  ⟨(stateInv_iff _).2 ⟨EncInv.reset _, DecInv.reset, Memory.wf_reset⟩,
    (statusInv_iff _).2 ⟨EncStatusInv.reset, DecStatusInv.reset⟩⟩

end Sys2Proof.Machine
end

section
/-! The waiting step (spec/10_state.md R43, R217, R68) and the register words as numbers, field by field
(R14, R20 to R35). -/

namespace Sys2Proof.Machine

/-! ## The waiting step -/

/-- Settles O8: the two cases in which the port hands no word to the block. -/
theorem waitsWithoutCommand : Obligations.WaitsWithoutCommand := by
  intro s
  refine ⟨fun hp => ?_, fun w rest hp hs => ?_⟩
  · rw [step, serve, hp]
  · rw [step, serve, hp]
    exact if_pos hs

/-! ## The register words -/

/-- Two fields under bits that read 0. -/
theorem toNat_two_fields {k m n : Nat} (b : BitVec m) (a : BitVec n) :
    (0#k ++ b ++ a).toNat = a.toNat + 2 ^ n * b.toNat := by
  simp only [toNat_cat, BitVec.toNat_ofNat, Nat.zero_mod]
  ring

/-- Three fields under bits that read 0. -/
theorem toNat_three_fields {k l m n : Nat} (c : BitVec l) (b : BitVec m) (a : BitVec n) :
    (0#k ++ c ++ b ++ a).toNat = a.toNat + 2 ^ n * b.toNat + 2 ^ (n + m) * c.toNat := by
  rw [toNat_cat, toNat_two_fields]
  ring

theorem regValue_ctrl_toNat (s : State) : (s.regValue .ctrl).toNat
    = s.glob.fill.toNat + 2 * s.glob.eie.toNat + 4 * s.glob.die.toNat :=
  (toNat_three_fields (k := 29) (.ofBool s.glob.die) (.ofBool s.glob.eie) (.ofBool s.glob.fill)).trans
    (by simp)

theorem regValue_gstat_toNat (s : State) :
    (s.regValue .gstat).toNat = s.glob.refused.toNat + 2 * s.irq.toNat :=
  (toNat_two_fields (k := 30) (.ofBool s.irq) (.ofBool s.glob.refused)).trans (by simp)

theorem regValue_troot_toNat (s : State) :
    (s.regValue .troot).toNat = s.dec.rootIdx.toNat + 512 * s.dec.present.toNat :=
  (toNat_two_fields (k := 22) (.ofBool s.dec.present) s.dec.rootIdx).trans (by simp)

theorem regValue_encStatus_toNat (s : State) :
    (s.regValue .encStatus).toNat = s.enc.state.number.toNat + 4 * s.enc.cause.number.toNat :=
  toNat_two_fields (k := 26) s.enc.cause.number s.enc.state.number

theorem regValue_encErrinfo_toNat (s : State) :
    (s.regValue .encErrinfo).toNat = s.enc.errSym.toNat + 256 * s.enc.errSrc.toNat :=
  (toNat_two_fields (k := 23) (.ofBool s.enc.errSrc) s.enc.errSym).trans (by simp)

/-- ENC_ACC has one bit that reads 0 between ACC_N and LASTN (R26). -/
theorem regValue_encAcc_toNat (s : State) : (s.regValue .encAcc).toNat
    = s.enc.acc.toNat + 256 * s.enc.accN.toNat + 4096 * s.enc.lastN.toNat := by
  simp only [State.regValue, toNat_cat, BitVec.toNat_ofNat, Nat.zero_mod]
  ring

theorem regValue_encCtsel_toNat (s : State) :
    (s.regValue .encCtsel).toNat = s.enc.selSym.toNat + 256 * s.enc.selV.toNat :=
  (toNat_two_fields (k := 23) (.ofBool s.enc.selV) s.enc.selSym).trans (by simp)

theorem regValue_decStatus_toNat (s : State) : (s.regValue .decStatus).toNat
    = s.dec.state.number.toNat + 4 * s.dec.cause.number.toNat + 64 * s.dec.trunc.toNat :=
  (toNat_three_fields (k := 25) (.ofBool s.dec.trunc) s.dec.cause.number s.dec.state.number).trans
    (by simp)

theorem regValue_decErrinfo_toNat (s : State) : (s.regValue .decErrinfo).toNat
    = s.dec.errNode.toNat + 512 * s.dec.errBit.toNat + 1024 * s.dec.errSrc.toNat :=
  (toNat_three_fields (k := 21) (.ofBool s.dec.errSrc) (.ofBool s.dec.errBit) s.dec.errNode).trans
    (by simp)

theorem regValue_decCur_toNat (s : State) : (s.regValue .decCur).toNat = s.dec.cur.toNat :=
  (toNat_cat 0#23 s.dec.cur).trans (by simp)

/-- Settles O16, register by register: each word that packs fields by its own lemma, the rest by computing. -/
theorem registerFields : Obligations.RegisterFields :=
  ⟨rfl, rfl, rfl, rfl, rfl, rfl, rfl, rfl, rfl, rfl, rfl, rfl, rfl, rfl, rfl, rfl,
    rfl, rfl, rfl, rfl, rfl, rfl, rfl, rfl, fun s =>
      ⟨rfl, regValue_ctrl_toNat s, regValue_gstat_toNat s, regValue_troot_toNat s,
        regValue_encStatus_toNat s, regValue_encErrinfo_toNat s, regValue_encAcc_toNat s,
        regValue_encCtsel_toNat s, rfl, rfl, rfl,
        regValue_decStatus_toNat s, regValue_decErrinfo_toNat s, regValue_decCur_toNat s, rfl, rfl⟩⟩

end Sys2Proof.Machine
end

section
/-! Reads of the tree memory that fault the model (spec/20_memory.md R67), and sinks that never answer
(R68). -/

namespace Sys2Proof.Machine

/-! ## R67: a tree entry never written -/

/-- The next bit of a DEC.PUT faults when the entry under the cursor is unwritten. -/
theorem exec_decPut_unwritten {s : State} {byte : Byte} {n : BitVec 4} {pre post : List Bool} {b : Bool}
    {xs : List Byte} {cur : Idx} (hn : n.toNat ≤ 8) (ho : s.dec.state.isOpen = true)
    (hp : s.dec.present = true) (hb : validBits byte n = pre ++ b :: post)
    (h : s.dec.spells pre s.dec.walkStart = some (xs, cur)) (ha : s.env.decOut.acceptsNext xs.length)
    (hu : s.dec.node cur = none) : exec (.decPut byte n) s = .fault (.unwrittenNode cur) := by
  have hw := walkBit_unwritten (s := s.walked pre.length xs cur) (by rwa [walked_cur, walked_node]) b
  rw [exec_decPut_until hn ho hp hb h ha, hw, walked_cur, Flow.bind_fault, Flow.respondOk_fault]

/-- The next bit of a DEC.PUT faults when the child it moves to is unwritten. -/
theorem exec_decPut_unwritten_child {s : State} {byte : Byte} {n : BitVec 4} {pre post : List Bool}
    {b : Bool} {xs : List Byte} {cur child : Idx} (hn : n.toNat ≤ 8) (ho : s.dec.state.isOpen = true)
    (hp : s.dec.present = true) (hb : validBits byte n = pre ++ b :: post)
    (h : s.dec.spells pre s.dec.walkStart = some (xs, cur)) (ha : s.env.decOut.acceptsNext xs.length)
    (hf : s.dec.follow [b] cur = some child) (hu : s.dec.node child = none) :
    exec (.decPut byte n) s = .fault (.unwrittenNode child) := by
  have hw := walkBit_child (s := s.walked pre.length xs cur) (b := b) (c := child)
    (by rwa [walked_cur, walked_follow])
  rw [exec_decPut_until hn ho hp hb h ha, hw, arrive_unwritten, Flow.bind_fault, Flow.respondOk_fault]
  exact hu

/-- A command whose flow does not fault is answered with a next state. -/
theorem Flow.respondOk_next {x : Flow} (h : ∀ r, x ≠ .fault r) : ∃ t, x.respondOk = .next t := by
  cases x with
  | go t => exact ⟨_, rfl⟩
  | ended t => exact ⟨_, rfl⟩
  | fault r => exact absurd rfl (h r)

theorem guarded_next {i : Instr} {s t : State} {body : Host.Outcome State Fault Refusal}
    (h : body = .next t) : ∃ u, guarded i s body = .next u := by
  rcases guarded_cases i s body with ⟨-, hg⟩ | ⟨-, hg⟩
  · exact ⟨t, hg.trans h⟩
  · exact ⟨_, hg⟩

theorem exec_encPut_next (sym : Byte) (s : State) : ∃ t, exec (.encPut sym) s = .next t := by
  cases ho : s.enc.state.isOpen
  · exact ⟨_, exec_encPut_closed ho⟩
  · by_cases hc : s.enc.code sym = []
    · exact ⟨_, exec_encPut_absent ho hc⟩
    · rw [exec_encPut_run ho hc]
      exact Flow.respondOk_next (putBits_noFault _ _)

theorem exec_encEnd_next (s : State) : ∃ t, exec .encEnd s = .next t := by
  cases ho : s.enc.state.isOpen
  · exact ⟨_, exec_encEnd_closed ho⟩
  · by_cases h0 : s.enc.accN = 0
    · exact ⟨_, exec_encEnd_empty ho h0⟩
    · have hf : flushAcc s.startEnd = offerEnc (s.enc.acc ||| padMask s.glob.fill s.enc.accN) s.flushing :=
        if_neg h0
      rw [exec_encEnd_open ho, hf]
      rcases offerEnc_cases (s.enc.acc ||| padMask s.glob.fill s.enc.accN) s.flushing
        with ⟨-, hk⟩ | ⟨-, hk⟩ | ⟨-, hk⟩ <;> rw [hk] <;> exact ⟨_, rfl⟩

/-- Every command but DEC.PUT is answered with a next state: R67 is the only fault of the model. -/
theorem exec_next_of_ne_decPut {i : Instr} (hi : ∀ byte n, i ≠ .decPut byte n) (s : State) :
    ∃ t, exec i s = .next t := by
  cases i with
  | nop => exact ⟨_, rfl⟩
  | srst => exact ⟨_, rfl⟩
  | rdreg r => rw [exec, execRdreg]; split <;> exact ⟨_, rfl⟩
  | wrreg r v =>
    rw [exec, execWrreg]
    split
    · exact guarded_next rfl
    · split <;> exact guarded_next rfl
  | encInit => exact ⟨_, rfl⟩
  | ctClr => rw [exec, execCtClr]; split <;> exact ⟨_, rfl⟩
  | ctOpen sym => rw [exec, execCtOpen]; split <;> exact ⟨_, rfl⟩
  | ctPush b =>
    rw [exec, execCtPush]
    split
    · exact ⟨_, rfl⟩
    · split <;> exact ⟨_, rfl⟩
  | encPut sym => exact exec_encPut_next sym s
  | encEnd => exact exec_encEnd_next s
  | encAbort => rw [exec, execEncAbort]; split <;> exact ⟨_, rfl⟩
  | decInit => exact ⟨_, rfl⟩
  | tLeaf idx sym => rw [exec, execTLeaf]; split <;> exact guarded_next rfl
  | tInt idx l r => rw [exec, execTInt]; split <;> exact guarded_next rfl
  | decPut byte n => exact absurd rfl (hi byte n)
  | decEnd => rw [exec, execDecEnd]; split <;> exact ⟨_, rfl⟩
  | decAbort => rw [exec, execDecAbort]; split <;> exact ⟨_, rfl⟩

/-- A DEC.PUT that faults has read an entry never written: its walk faults. -/
theorem exec_decPut_fault {byte : Byte} {n : BitVec 4} {s : State} {r : Fault}
    (h : exec (.decPut byte n) s = .fault r) : ∃ j, r = .unwrittenNode j ∧ s.dec.node j = none := by
  rcases guarded_cases (.decPut byte n) s _ with ⟨hw, -⟩ | ⟨-, hg⟩
  · have hn : n.toNat ≤ 8 := of_decide_eq_true hw
    cases ho : s.dec.state.isOpen
    · rw [exec_decPut_closed hn ho] at h; cases h
    · rw [exec_decPut_run hn ho] at h
      cases hf : Flow.each walkBit (if s.dec.present then validBits byte n else []) s.startWalk with
      | go t => rw [hf] at h; cases h
      | ended t => rw [hf] at h; cases h
      | fault r' =>
        rw [hf] at h; cases h
        simpa only [startWalk_node] using walkBits_fault hf
  · rw [exec, execDecPut, hg] at h; cases h

/-- Settles O37: the bit at which the walk reads the entry faults, and no other command has a walk. -/
theorem onlyUnwrittenNodeFaults : Obligations.OnlyUnwrittenNodeFaults := by
  refine ⟨fun s byte n pre post b xs cur hn ho hp hb h ha => ?_, fun i s r hr => ?_⟩
  · rw [← isOpen_iff] at ho
    exact ⟨exec_decPut_unwritten hn ho hp hb h ha,
      fun child hf hu => exec_decPut_unwritten_child hn ho hp hb h ha hf hu⟩
  · by_cases hi : ∃ byte n, i = .decPut byte n
    · obtain ⟨byte, n, rfl⟩ := hi
      exact ⟨⟨byte, n, rfl⟩, exec_decPut_fault hr⟩
    · push Not at hi
      obtain ⟨t, ht⟩ := exec_next_of_ne_decPut hi s
      rw [ht] at hr; cases hr

/-! ## R68: a sink that never answers -/

/-- ENC.PUT whose sink is silent at byte `j`: stalled as that byte is offered. -/
theorem exec_encPut_silent {s : State} {sym : Byte} {j : Nat} (ho : s.enc.state.isOpen = true)
    (hc : s.enc.code sym ≠ []) (hj : j < (s.enc.held ++ s.enc.code sym).length / 8)
    (ha : s.env.encOut.acceptsNext j) (hn : s.env.encOut.answerAt j = none) :
    exec (.encPut sym) s = .next (beforeByte s.startPut (s.enc.code sym) j).stall := by
  obtain ⟨byte, h⟩ := exec_encPut_stop ho hc hj ha (by rw [hn]; exact nofun)
  have hs : (beforeByte s.startPut (s.enc.code sym) j).env.encOut.answer = none :=
    (beforeByte_answer s.startPut _ hj).trans hn
  rw [h, offerEnc_silent hs, Flow.respondOk_ended]

/-- DEC.PUT whose sink is silent at the symbol after `xs`: stalled with the cursor on that leaf. -/
theorem exec_decPut_silent {s : State} {byte : Byte} {n : BitVec 4} {pre post : List Bool} {b : Bool}
    {xs : List Byte} {cur child : Idx} {sym : Byte} (hn : n.toNat ≤ 8) (ho : s.dec.state.isOpen = true)
    (hp : s.dec.present = true) (hb : validBits byte n = pre ++ b :: post)
    (h : s.dec.spells pre s.dec.walkStart = some (xs, cur)) (hf : s.dec.follow [b] cur = some child)
    (hl : s.dec.node child = some (.leaf sym)) (ha : s.env.decOut.acceptsNext xs.length)
    (hk : s.env.decOut.answerAt xs.length = none) :
    exec (.decPut byte n) s = .next ({ s.walked pre.length xs cur with
      dec := { (s.walked pre.length xs cur).dec with
        bits := (s.walked pre.length xs cur).dec.bits + 1, cur := child } } : State).stall := by
  rw [exec_decPut_until hn ho hp hb h ha,
    walkBit_silent (c := child) (sym := sym) (by rwa [walked_cur, walked_follow]) (by rwa [walked_node])
      (by rwa [walked_answer]), Flow.bind_ended, Flow.respondOk_ended]

theorem step_stalled_cmd {s : State} (hs : s.env.stalled = true) {w : Word} {rest : List PortEvent}
    (hp : s.env.port = .cmd w :: rest) : step s = .next s := by
  rw [step, serve, hp]
  exact if_pos hs

theorem step_rst {s : State} {rest : List PortEvent} (hp : s.env.port = .rst :: rest) :
    step s = .next (s.withPort rest).hardReset := by
  rw [step, serve, hp]

/-- Settles O52: the stalled state of each of the three commands, and the two events a stalled block can
meet. -/
theorem silentSinkStallsBlock : Obligations.SilentSinkStallsBlock := by
  refine ⟨fun s sym j ho hc hj ha hn => ?_, fun s ho h0 ha => ?_,
    fun s byte n pre post b xs cur child sym hn ho hp hb h hf hl ha hk => ?_, fun s hs => ⟨?_, ?_⟩⟩
  · exact ⟨_, exec_encPut_silent (isOpen_iff.2 ho) hc hj ha hn, rfl, rfl, rfl⟩
  · rw [Sink.answerAt_zero] at ha
    exact ⟨_, exec_encEnd_silent (isOpen_iff.2 ho) h0 ha, rfl, rfl, rfl, rfl⟩
  · exact ⟨_, exec_decPut_silent hn (isOpen_iff.2 ho) hp hb h hf hl ha hk, rfl, rfl, rfl⟩
  · exact fun w rest hp => step_stalled_cmd hs hp
  · exact fun rest hp => ⟨_, step_rst hp, rfl⟩

end Sys2Proof.Machine
end

section
/-! What each command can write, the command named (spec/20_memory.md R53, R56, R66; spec/10_state.md R24 to
R35; spec/60_exceptions.md R206): the one case distinction from which every frame of a command follows. -/

namespace Sys2Proof.Machine

/-- What a command can do to the whole machine. A command that can end in several ways is given as the fields
it writes, their new values left open. -/
inductive Effect (s : State) : Instr → State → Prop
  | refuse {i : Instr} {c : Code} (hc : c = .illegal ∨ c = .seq ∨ c = .overflow) :
      Effect s i (s.refuse c)
  | nop : Effect s .nop (s.respond .ok 0)
  | srst : Effect s .srst (s.resetBlock.respond .ok 0)
  | rdreg (r : RegNum) (d : Word) : Effect s (.rdreg r) (s.respond .ok d)
  | ctrl (v : BitVec 16) :
      Effect s (.wrreg 1#5 v) ({ s with glob := s.glob.writeCtrl v }.respond .ok 0)
  | troot (v : BitVec 16) (hi : s.dec.state = .idle) :
      Effect s (.wrreg 3#5 v) ({ s with dec := s.dec.writeTroot v }.respond .ok 0)
  | encInit : Effect s .encInit ({ s with enc := s.enc.restart }.respond .ok 0)
  | ctClr (hi : s.enc.state = .idle) :
      Effect s .ctClr ({ s with enc := { s.enc with ct := [], selV := false } }.respond .ok 0)
  | ctOpen (sym : Byte) (hi : s.enc.state = .idle) : Effect s (.ctOpen sym)
      ({ s with enc := { s.enc.setCode sym [] with selSym := sym, selV := true } }.respond .ok 0)
  | ctPush (b : Bool) (hi : s.enc.state = .idle) : Effect s (.ctPush b)
      ({ s with enc := s.enc.setCode s.enc.selSym (s.enc.code s.enc.selSym ++ [b]) }.respond .ok 0)
  | encPut (sym : Byte) {st : UnitState} {cause : Cause} {errSym acc : Byte} {errSrc : Bool}
      {accN : BitVec 3} {syms bits bytes : Word} {k : Sink} {rs : List Response} {w : Bool} :
      Effect s (.encPut sym) ⟨s.glob,
        { s.enc with state := st, cause := cause, errSym := errSym, errSrc := errSrc, acc := acc,
                     accN := accN, syms := syms, bits := bits, bytes := bytes }, s.dec,
        { s.env with encOut := k, rsps := rs, stalled := w }⟩
  | encEnd {st : UnitState} {cause : Cause} {errSym acc : Byte} {errSrc : Bool}
      {accN lastN : BitVec 3} {bytes : Word} {k : Sink} {rs : List Response} {w : Bool} :
      Effect s .encEnd ⟨s.glob,
        { s.enc with state := st, cause := cause, errSym := errSym, errSrc := errSrc, acc := acc,
                     accN := accN, lastN := lastN, bytes := bytes }, s.dec,
        { s.env with encOut := k, rsps := rs, stalled := w }⟩
  | encAbort : Effect s .encAbort ({ s with enc := s.enc.enterFail .ioerr 0 true }.respond .ok 0)
  | decInit : Effect s .decInit ({ s with dec := s.dec.restart }.respond .ok 0)
  | tLeaf (idx : Idx) (sym : Byte) (hi : s.dec.state = .idle) :
      Effect s (.tLeaf idx sym) ({ s with dec := s.dec.setNode idx (.leaf sym) }.respond .ok 0)
  | tInt (idx l r : Idx) (hi : s.dec.state = .idle) :
      Effect s (.tInt idx l r) ({ s with dec := s.dec.setNode idx (.int l r) }.respond .ok 0)
  | decPut (byte : Byte) (n : BitVec 4) {st : UnitState} {cause : Cause} {errNode cur : Idx}
      {errBit errSrc : Bool} {bits syms : Word} {k : Sink} {rs : List Response} {w : Bool} :
      Effect s (.decPut byte n) ⟨s.glob, s.enc,
        { s.dec with state := st, cause := cause, errNode := errNode, errBit := errBit, errSrc := errSrc,
                     cur := cur, bits := bits, syms := syms },
        { s.env with decOut := k, rsps := rs, stalled := w }⟩
  | decEnd {trunc : Bool} :
      Effect s .decEnd ({ s with dec := { s.dec with trunc := trunc, state := .done } }.respond .ok 0)
  | decAbort : Effect s .decAbort ({ s with dec := s.dec.enterFail .ioerr 0 false true }.respond .ok 0)

/-- A refusal is answered ILLEGAL, SEQ or OVERFLOW (R206). -/
theorem Effect.illegal {s : State} {i : Instr} : Effect s i (s.refuse .illegal) := .refuse (.inl rfl)
theorem Effect.seq {s : State} {i : Instr} : Effect s i (s.refuse .seq) := .refuse (.inr (.inl rfl))
theorem Effect.overflow {s : State} {i : Instr} : Effect s i (s.refuse .overflow) :=
  .refuse (.inr (.inr rfl))

/-- Every next state of every command. -/
theorem exec_effect {i : Instr} {s t : State} (h : exec i s = .next t) : Effect s i t := by
  cases i with
  | nop => rw [nop_form h]; exact .nop
  | srst => rw [srst_form h]; exact .srst
  | rdreg r =>
    rcases rdreg_forms h with ⟨reg, -, rfl⟩ | ⟨-, rfl⟩
    · exact .rdreg r _
    · exact .illegal
  | wrreg r v =>
    rcases wrreg_forms h with ⟨-, rfl⟩ | ⟨rfl, -, rfl⟩ | ⟨rfl, -, -, ⟨-, rfl⟩ | ⟨hi, rfl⟩⟩
    · exact .illegal
    · exact .ctrl v
    · exact .seq
    · exact .troot v hi
  | encInit => rw [encInit_form h]; exact .encInit
  | ctClr =>
    rcases ctClr_forms h with ⟨-, rfl⟩ | ⟨hi, rfl⟩
    · exact .seq
    · exact .ctClr hi
  | ctOpen sym =>
    rcases ctOpen_forms h with ⟨-, rfl⟩ | ⟨hi, rfl⟩
    · exact .seq
    · exact .ctOpen sym hi
  | ctPush b =>
    rcases ctPush_forms h with ⟨-, rfl⟩ | ⟨hi, -, ⟨-, rfl⟩ | ⟨-, rfl⟩⟩
    · exact .seq
    · exact .overflow
    · exact .ctPush b hi
  | encPut sym =>
    rcases encPut_forms h with ⟨-, rfl⟩ | ⟨-, -, rfl⟩ | ⟨-, -, _, _, _, ⟨_, _, -, rfl⟩ | rfl | ⟨-, rfl⟩⟩
    · exact .seq
    all_goals exact .encPut sym
  | encEnd =>
    rcases encEnd_forms h with ⟨-, rfl⟩ | ⟨-, _, _, ⟨_, -, rfl⟩ | rfl | ⟨-, rfl⟩⟩
    · exact .seq
    all_goals exact .encEnd
  | encAbort =>
    rcases encAbort_forms h with ⟨-, rfl⟩ | ⟨-, rfl⟩
    · exact .seq
    · exact .encAbort
  | decInit => rw [decInit_form h]; exact .decInit
  | tLeaf idx sym =>
    rcases tLeaf_forms h with ⟨-, rfl⟩ | ⟨-, ⟨-, rfl⟩ | ⟨hi, rfl⟩⟩
    · exact .illegal
    · exact .seq
    · exact .tLeaf idx sym hi
  | tInt idx l r =>
    rcases tInt_forms h with ⟨-, rfl⟩ | ⟨-, ⟨-, rfl⟩ | ⟨hi, rfl⟩⟩
    · exact .illegal
    · exact .seq
    · exact .tInt idx l r hi
  | decPut byte n =>
    rcases decPut_forms h with ⟨-, rfl⟩ | ⟨-, -, rfl⟩
      | ⟨-, -, _, _, _, _, -, rfl | ⟨_, rfl⟩ | rfl | ⟨-, rfl⟩⟩
    · exact .illegal
    · exact .seq
    all_goals exact .decPut byte n
  | decEnd =>
    rcases decEnd_forms h with ⟨-, rfl⟩ | ⟨-, rfl⟩
    · exact .seq
    · exact .decEnd
  | decAbort =>
    rcases decAbort_forms h with ⟨-, rfl⟩ | ⟨-, rfl⟩
    · exact .seq
    · exact .decAbort

/-! ## The writers of each piece of state

Each lemma excludes the writers of the piece, case by case; every other command leaves it as it is. -/

section writers

variable {s t : State} {i : Instr} (h : Effect s i t) (hs : i ≠ .srst)
include h hs

/-- CT (R53). -/
theorem Effect.sameCT (hclr : i ≠ .ctClr) (hopen : ∀ x, i ≠ .ctOpen x) (hpush : ∀ b, i ≠ .ctPush b) :
    SameCT s t := by
  cases h with
  | srst => exact absurd rfl hs
  | ctClr => exact absurd rfl hclr
  | ctOpen x => exact absurd rfl (hopen x)
  | ctPush b => exact absurd rfl (hpush b)
  | _ => exact fun _ => rfl

/-- TM (R56). -/
theorem Effect.sameTM (hleaf : ∀ k x, i ≠ .tLeaf k x) (hint : ∀ k l r, i ≠ .tInt k l r) :
    SameTM s t := by
  cases h with
  | srst => exact absurd rfl hs
  | tLeaf k x => exact absurd rfl (hleaf k x)
  | tInt k l r => exact absurd rfl (hint k l r)
  | _ => exact fun _ => rfl

/-- CTRL (R104). -/
theorem Effect.ctrl_eq (hw : ∀ v, i ≠ .wrreg 1#5 v) :
    t.glob.fill = s.glob.fill ∧ t.glob.eie = s.glob.eie ∧ t.glob.die = s.glob.die := by
  cases h with
  | srst => exact absurd rfl hs
  | ctrl v => exact absurd rfl (hw v)
  | _ => exact ⟨rfl, rfl, rfl⟩

/-- TROOT (R104). -/
theorem Effect.troot_eq (hw : ∀ v, i ≠ .wrreg 3#5 v) :
    t.dec.rootIdx = s.dec.rootIdx ∧ t.dec.present = s.dec.present := by
  cases h with
  | srst => exact absurd rfl hs
  | troot v => exact absurd rfl (hw v)
  | _ => exact ⟨rfl, rfl⟩

omit hs in
/-- ENC_OUT (R50). -/
theorem Effect.encOut_eq (hput : ∀ x, i ≠ .encPut x) (hend : i ≠ .encEnd) :
    t.env.encOut = s.env.encOut := by
  cases h with
  | encPut x => exact absurd rfl (hput x)
  | encEnd => exact absurd rfl hend
  | _ => rfl

omit hs in
/-- DEC_OUT (R50). -/
theorem Effect.decOut_eq (hput : ∀ x n, i ≠ .decPut x n) : t.env.decOut = s.env.decOut := by
  cases h with
  | decPut x n => exact absurd rfl (hput x n)
  | _ => rfl

/-- The cursor and the counters of DEC (R158, R34, R35). -/
theorem Effect.cursor_eq (hinit : i ≠ .decInit) (hput : ∀ x n, i ≠ .decPut x n) :
    t.dec.cur = s.dec.cur ∧ t.dec.bits = s.dec.bits ∧ t.dec.syms = s.dec.syms := by
  cases h with
  | srst => exact absurd rfl hs
  | decInit => exact absurd rfl hinit
  | decPut x n => exact absurd rfl (hput x n)
  | _ => exact ⟨rfl, rfl, rfl⟩

/-- ACC, ACC_N and ENC_BYTES (R26, R30). -/
theorem Effect.acc_eq (hinit : i ≠ .encInit) (hend : i ≠ .encEnd) (hput : ∀ x, i ≠ .encPut x) :
    t.enc.acc = s.enc.acc ∧ t.enc.accN = s.enc.accN ∧ t.enc.bytes = s.enc.bytes := by
  cases h with
  | srst => exact absurd rfl hs
  | encInit => exact absurd rfl hinit
  | encEnd => exact absurd rfl hend
  | encPut x => exact absurd rfl (hput x)
  | _ => exact ⟨rfl, rfl, rfl⟩

/-- ENC_SYMS and ENC_BITS (R28, R29). -/
theorem Effect.encCounters_eq (hinit : i ≠ .encInit) (hput : ∀ x, i ≠ .encPut x) :
    t.enc.syms = s.enc.syms ∧ t.enc.bits = s.enc.bits := by
  cases h with
  | srst => exact absurd rfl hs
  | encInit => exact absurd rfl hinit
  | encPut x => exact absurd rfl (hput x)
  | _ => exact ⟨rfl, rfl⟩

/-- LASTN (R26). -/
theorem Effect.lastN_eq (hinit : i ≠ .encInit) (hend : i ≠ .encEnd) : t.enc.lastN = s.enc.lastN := by
  cases h with
  | srst => exact absurd rfl hs
  | encInit => exact absurd rfl hinit
  | encEnd => exact absurd rfl hend
  | _ => rfl

/-- CTSEL.V (R27). -/
theorem Effect.selV_eq (hinit : i ≠ .encInit) (hclr : i ≠ .ctClr) (hopen : ∀ x, i ≠ .ctOpen x) :
    t.enc.selV = s.enc.selV := by
  cases h with
  | srst => exact absurd rfl hs
  | encInit => exact absurd rfl hinit
  | ctClr => exact absurd rfl hclr
  | ctOpen x => exact absurd rfl (hopen x)
  | _ => rfl

/-- CTSEL.SYM (R27). -/
theorem Effect.selSym_eq (hopen : ∀ x, i ≠ .ctOpen x) : t.enc.selSym = s.enc.selSym := by
  cases h with
  | srst => exact absurd rfl hs
  | ctOpen x => exact absurd rfl (hopen x)
  | _ => rfl

/-- TRUNC (R31). -/
theorem Effect.trunc_eq (hinit : i ≠ .decInit) (hend : i ≠ .decEnd) : t.dec.trunc = s.dec.trunc := by
  cases h with
  | srst => exact absurd rfl hs
  | decInit => exact absurd rfl hinit
  | decEnd => exact absurd rfl hend
  | _ => rfl

/-- STATE, CAUSE and ERRINFO of ENC (R24, R25, R204). -/
theorem Effect.encStatus_eq (hinit : i ≠ .encInit) (hput : ∀ x, i ≠ .encPut x) (hend : i ≠ .encEnd)
    (habort : i ≠ .encAbort) :
    t.enc.state = s.enc.state ∧ t.enc.cause = s.enc.cause ∧ t.enc.errSym = s.enc.errSym
      ∧ t.enc.errSrc = s.enc.errSrc := by
  cases h with
  | srst => exact absurd rfl hs
  | encInit => exact absurd rfl hinit
  | encPut x => exact absurd rfl (hput x)
  | encEnd => exact absurd rfl hend
  | encAbort => exact absurd rfl habort
  | _ => exact ⟨rfl, rfl, rfl, rfl⟩

/-- CAUSE and ERRINFO of DEC, and STATE, which DEC.END writes too (R31, R32, R204). -/
theorem Effect.decStatus_eq (hinit : i ≠ .decInit) (hput : ∀ x n, i ≠ .decPut x n)
    (habort : i ≠ .decAbort) :
    t.dec.cause = s.dec.cause ∧ t.dec.errNode = s.dec.errNode ∧ t.dec.errBit = s.dec.errBit
      ∧ t.dec.errSrc = s.dec.errSrc ∧ (i ≠ .decEnd → t.dec.state = s.dec.state) := by
  cases h with
  | srst => exact absurd rfl hs
  | decInit => exact absurd rfl hinit
  | decPut x n => exact absurd rfl (hput x n)
  | decAbort => exact absurd rfl habort
  | decEnd => exact ⟨rfl, rfl, rfl, rfl, fun hend => absurd rfl hend⟩
  | _ => exact ⟨rfl, rfl, rfl, rfl, fun _ => rfl⟩

/-- GSTAT.REFUSED (R206). -/
theorem Effect.refusedWith (hr : t.glob.refused ≠ s.glob.refused) :
    ∃ c, (c = .illegal ∨ c = .seq ∨ c = .overflow) ∧ RefusedWith s t c := by
  cases h with
  | refuse hc => exact ⟨_, hc, refuse_refusedWith s _⟩
  | srst => exact absurd rfl hs
  | _ => exact absurd rfl hr

/-- CT while ENC is out of IDLE (R66). -/
theorem Effect.sameCT_of_busy (hb : s.enc.state ≠ .idle) : SameCT s t := by
  cases h with
  | srst => exact absurd rfl hs
  | ctClr hi => exact absurd hi hb
  | ctOpen _ hi => exact absurd hi hb
  | ctPush _ hi => exact absurd hi hb
  | _ => exact fun _ => rfl

/-- TM and TROOT while DEC is out of IDLE (R66). -/
theorem Effect.sameTree_of_busy (hb : s.dec.state ≠ .idle) :
    SameTM s t ∧ t.dec.rootIdx = s.dec.rootIdx ∧ t.dec.present = s.dec.present := by
  cases h with
  | srst => exact absurd rfl hs
  | troot _ hi => exact absurd hi hb
  | tLeaf _ _ hi => exact absurd hi hb
  | tInt _ _ _ hi => exact absurd hi hb
  | _ => exact ⟨fun _ => rfl, rfl, rfl⟩

end writers

/-- Settles O43: the commands that write a table or TROOT do so in IDLE only. -/
theorem tablesFixedDuringRun : Obligations.TablesFixedDuringRun := fun _ _ _ hx hs =>
  ⟨(exec_effect hx).sameCT_of_busy hs, (exec_effect hx).sameTree_of_busy hs⟩

/-- Settles O44, piece by piece. -/
theorem onlyWritersWrite : Obligations.OnlyWritersWrite := by
  intro i s t hx hs
  have h := exec_effect hx
  refine ⟨h.sameCT hs, h.sameTM hs, h.ctrl_eq hs, h.troot_eq hs, fun hinit hput => ?_,
    fun hinit hend hput => ?_, h.encCounters_eq hs, h.lastN_eq hs, h.selV_eq hs, h.selSym_eq hs,
    h.trunc_eq hs, h.encStatus_eq hs, h.decStatus_eq hs, h.encOut_eq, h.decOut_eq,
    h.refusedWith hs⟩
  · obtain ⟨hcur, hbits, hsyms⟩ := h.cursor_eq hs hinit hput
    exact ⟨hcur, hbits, hsyms, h.decOut_eq hput⟩
  · obtain ⟨hacc, hn, hbytes⟩ := h.acc_eq hs hinit hend hput
    exact ⟨hacc, hn, hbytes, h.encOut_eq hput hend⟩

end Sys2Proof.Machine
end

section
/-! The units are independent (spec/20_memory.md R64): a command run in two states that agree on its unit
ends alike in both. -/

namespace Sys2Proof.Machine

/-- Two commands end alike: in next states related by `R`, or in the same fault. -/
def EndAlike (R : State → State → Prop) (x y : Host.Outcome State Fault Refusal) : Prop :=
  (∃ s t, x = .next s ∧ y = .next t ∧ R s t) ∨ ∃ r, x = .fault r ∧ y = .fault r

theorem EndAlike.next {R : State → State → Prop} {s t : State} (h : R s t) :
    EndAlike R (.next s) (.next t) := .inl ⟨s, t, rfl, rfl, h⟩

/-- An answered command that ends like another one tells how the other is answered. -/
theorem EndAlike.of_next {R : State → State → Prop} {x y : Host.Outcome State Fault Refusal}
    (h : EndAlike R x y) {t : State} (ht : x = .next t) : ∃ t', y = .next t' ∧ R t t' := by
  subst ht
  rcases h with ⟨_, t', hx, hy, hr⟩ | ⟨_, hx, -⟩
  · cases hx; exact ⟨t', hy, hr⟩
  · cases hx

theorem EndAlike.guarded {R : State → State → Prop} (i : Instr) {s s' : State}
    {x y : Host.Outcome State Fault Refusal} (hr : R (s.refuse .illegal) (s'.refuse .illegal))
    (h : EndAlike R x y) : EndAlike R (guarded i s x) (guarded i s' y) := by
  unfold Machine.guarded
  cases rangeFault i with
  | none => exact h
  | some _ => exact .next hr

theorem Flow.Rel.go {R : State → State → Prop} {s t : State} (h : R s t) :
    Flow.Rel R (.go s) (.go t) := h

theorem Flow.Rel.ended {R : State → State → Prop} {s t : State} (h : R s t) :
    Flow.Rel R (.ended s) (.ended t) := h

/-- The responses given since the two states had given `p` and `p'` are the same. -/
def AnsweredAlike (p p' : List Response) (s s' : State) : Prop :=
  ∃ rs, s.env.rsps = p ++ rs ∧ s'.env.rsps = p' ++ rs

theorem AnsweredAlike.respond {p p' : List Response} {s s' : State} (h : AnsweredAlike p p' s s')
    (c : Code) (d : Word) : AnsweredAlike p p' (s.respond c d) (s'.respond c d) := by
  obtain ⟨rs, hs, hs'⟩ := h
  exact ⟨rs ++ [⟨c, d⟩], by rw [State.respond_rsps, hs, List.append_assoc],
    by rw [State.respond_rsps, hs', List.append_assoc]⟩

section

variable {p p' : List Response} {s s' : State}

/-! ## States that agree on what ENC sees -/

/-- The two states agree on ENC, its sink and CTRL.FILL, and have given the same responses since `p` and
`p'`. -/
structure EncAlike (p p' : List Response) (s s' : State) : Prop where
  enc : s'.enc = s.enc
  fill : s'.glob.fill = s.glob.fill
  out : s'.env.encOut = s.env.encOut
  rsps : AnsweredAlike p p' s s'

theorem EncAlike.respond (h : EncAlike p p' s s') (c : Code) (d : Word) :
    EncAlike p p' (s.respond c d) (s'.respond c d) := ⟨h.enc, h.fill, h.out, h.rsps.respond c d⟩

theorem EncAlike.refuse (h : EncAlike p p' s s') (c : Code) :
    EncAlike p p' (s.refuse c) (s'.refuse c) := ⟨h.enc, h.fill, h.out, h.rsps.respond c 0⟩

theorem EncAlike.withEnc (h : EncAlike p p' s s') {e e' : Enc} (he : e' = e) :
    EncAlike p p' { s with enc := e } { s' with enc := e' } := ⟨he, h.fill, h.out, h.rsps⟩

theorem EncAlike.withOut (h : EncAlike p p' s s') {k k' : Sink} (hk : k' = k) :
    EncAlike p p' { s with env := { s.env with encOut := k } }
      { s' with env := { s'.env with encOut := k' } } := ⟨h.enc, h.fill, hk, h.rsps⟩

theorem EncAlike.raiseEnc (h : EncAlike p p' s s') (c : Cause) (sym : Byte) (src : Bool) :
    EncAlike p p' (s.raiseEnc c sym src) (s'.raiseEnc c sym src) :=
  ⟨congrArg (Enc.enterFail · c sym src) h.enc, h.fill, h.out, h.rsps.respond _ _⟩

theorem EncAlike.stall (h : EncAlike p p' s s') : EncAlike p p' s.stall s'.stall :=
  ⟨h.enc, h.fill, h.out, h.rsps⟩

theorem EncAlike.offerEnc (h : EncAlike p p' s s') (b : Byte) :
    Flow.Rel (EncAlike p p') (offerEnc b s) (offerEnc b s') := by
  rcases offerEnc_cases b s with ⟨ha, ho⟩ | ⟨ha, ho⟩ | ⟨ha, ho⟩ <;> rw [ho] <;> rw [← h.out] at ha
  · rw [offerEnc_ok ha]
    exact .go ((h.withOut (congrArg (·.accepted b) h.out)).withEnc (by rw [h.enc]))
  · rw [offerEnc_fail ha]
    exact .ended ((h.withOut (congrArg Sink.declined h.out)).raiseEnc _ _ _)
  · rw [offerEnc_silent ha]
    exact .ended h.stall

theorem EncAlike.putBit (b : Bool) (s s' : State) (h : EncAlike p p' s s') :
    Flow.Rel (EncAlike p p') (putBit b s) (putBit b s') := by
  by_cases h7 : s.enc.accN = 7#3
  · rw [putBit_full h7, putBit_full (s := s') (by rwa [h.enc]), h.enc]
    exact (h.withEnc rfl).offerEnc _
  · rw [putBit_partial h7, putBit_partial (s := s') (by rwa [h.enc]), h.enc]
    exact .go (h.withEnc rfl)

theorem EncAlike.flushAcc (h : EncAlike p p' s s') :
    Flow.Rel (EncAlike p p') (flushAcc s) (flushAcc s') := by
  simp only [Machine.flushAcc, h.enc, h.fill]
  split
  · exact .go h
  · exact (h.withEnc rfl).offerEnc _

/-- An encoder command sees nothing but ENC, its sink and CTRL.FILL. -/
theorem EncAlike.exec {i : Instr} (hi : i.isEnc = true) (h : EncAlike p p' s s') :
    EndAlike (EncAlike p p') (exec i s) (exec i s') := by
  cases i with
  | encInit => exact .next ((h.withEnc (congrArg Enc.restart h.enc)).respond _ _)
  | ctClr =>
    simp only [Machine.exec, execCtClr, h.enc]
    split
    · exact .next (h.refuse _)
    · exact .next ((h.withEnc rfl).respond _ _)
  | ctOpen sym =>
    simp only [Machine.exec, execCtOpen, h.enc]
    split
    · exact .next (h.refuse _)
    · exact .next ((h.withEnc rfl).respond _ _)
  | ctPush b =>
    simp only [Machine.exec, execCtPush, h.enc]
    split
    · exact .next (h.refuse _)
    · split
      · exact .next (h.refuse _)
      · exact .next ((h.withEnc rfl).respond _ _)
  | encPut sym =>
    simp only [Machine.exec, execEncPut, h.enc]
    split
    · split
      · exact .next (h.raiseEnc _ _ _)
      · exact (Flow.Rel.each EncAlike.putBit _ _ _ (h.withEnc rfl)).respondOk
          fun _ _ hr => hr.respond _ _
    · exact .next (h.refuse _)
  | encEnd =>
    simp only [Machine.exec, execEncEnd, h.enc]
    split
    · exact ((h.withEnc rfl).flushAcc.bind fun _ _ hr => .go (hr.withEnc (by rw [hr.enc]))).respondOk
        fun _ _ hr => hr.respond _ _
    · exact .next (h.refuse _)
  | encAbort =>
    simp only [Machine.exec, execEncAbort, h.enc]
    split
    · exact .next ((h.withEnc rfl).respond _ _)
    · exact .next (h.refuse _)
  | _ => cases hi

/-! ## States that agree on what DEC sees -/

/-- The two states agree on DEC and its sink, and have given the same responses since `p` and `p'`. -/
structure DecAlike (p p' : List Response) (s s' : State) : Prop where
  dec : s'.dec = s.dec
  out : s'.env.decOut = s.env.decOut
  rsps : AnsweredAlike p p' s s'

theorem DecAlike.respond (h : DecAlike p p' s s') (c : Code) (d : Word) :
    DecAlike p p' (s.respond c d) (s'.respond c d) := ⟨h.dec, h.out, h.rsps.respond c d⟩

theorem DecAlike.refuse (h : DecAlike p p' s s') (c : Code) :
    DecAlike p p' (s.refuse c) (s'.refuse c) := ⟨h.dec, h.out, h.rsps.respond c 0⟩

theorem DecAlike.withDec (h : DecAlike p p' s s') {d d' : Dec} (hd : d' = d) :
    DecAlike p p' { s with dec := d } { s' with dec := d' } := ⟨hd, h.out, h.rsps⟩

theorem DecAlike.withOut (h : DecAlike p p' s s') {k k' : Sink} (hk : k' = k) :
    DecAlike p p' { s with env := { s.env with decOut := k } }
      { s' with env := { s'.env with decOut := k' } } := ⟨h.dec, hk, h.rsps⟩

theorem DecAlike.raiseDec (h : DecAlike p p' s s') (c : Cause) (node : Idx) (bit src : Bool) :
    DecAlike p p' (s.raiseDec c node bit src) (s'.raiseDec c node bit src) :=
  ⟨congrArg (Dec.enterFail · c node bit src) h.dec, h.out, h.rsps.respond _ _⟩

theorem DecAlike.stall (h : DecAlike p p' s s') : DecAlike p p' s.stall s'.stall :=
  ⟨h.dec, h.out, h.rsps⟩

theorem DecAlike.offerDec (h : DecAlike p p' s s') (b : Byte) :
    Flow.Rel (DecAlike p p') (offerDec b s) (offerDec b s') := by
  rcases offerDec_cases b s with ⟨ha, ho⟩ | ⟨ha, ho⟩ | ⟨ha, ho⟩ <;> rw [ho] <;> rw [← h.out] at ha
  · rw [offerDec_ok ha]
    exact .go ((h.withOut (congrArg (·.accepted b) h.out)).withDec (by rw [h.dec]))
  · rw [offerDec_fail ha]
    exact .ended ((h.withOut (congrArg Sink.declined h.out)).raiseDec _ _ _ _)
  · rw [offerDec_silent ha]
    exact .ended h.stall

theorem DecAlike.arrive (h : DecAlike p p' s s') (child : Idx) :
    Flow.Rel (DecAlike p p') (arrive child s) (arrive child s') := by
  have hd : s'.dec.node child = s.dec.node child := by rw [h.dec]
  cases hn : s.dec.node child with
  | none => rw [arrive_unwritten hn, arrive_unwritten (hd.trans hn)]; rfl
  | some n =>
    cases n with
    | int l r => rw [arrive_int hn, arrive_int (hd.trans hn)]; exact .go h
    | leaf sym =>
      rw [arrive_leaf hn, arrive_leaf (hd.trans hn)]
      exact (h.offerDec sym).bind fun _ _ hr => .go (hr.withDec (by rw [hr.dec]))

theorem DecAlike.walkBit (b : Bool) (s s' : State) (h : DecAlike p p' s s') :
    Flow.Rel (DecAlike p p') (walkBit b s) (walkBit b s') := by
  rcases walkBit_cases b s with hn | hn | ⟨c, hf, -⟩
  · rw [walkBit_unwritten hn, walkBit_unwritten (s := s') (by rwa [h.dec]), h.dec]
    rfl
  · rw [walkBit_noChild hn, walkBit_noChild (s := s') (by rwa [h.dec]), h.dec]
    exact .ended (h.raiseDec _ _ _ _)
  · rw [walkBit_child hf, walkBit_child (s := s') (c := c) (by rwa [h.dec]), h.dec]
    exact (h.withDec rfl).arrive c

/-- A decoder command sees nothing but DEC and its sink. -/
theorem DecAlike.exec {i : Instr} (hi : i.isDec = true) (h : DecAlike p p' s s') :
    EndAlike (DecAlike p p') (exec i s) (exec i s') := by
  cases i with
  | decInit => exact .next ((h.withDec (congrArg Dec.restart h.dec)).respond _ _)
  | tLeaf idx sym =>
    refine .guarded _ (h.refuse _) ?_
    rw [h.dec]
    split
    · exact .next (h.refuse _)
    · exact .next ((h.withDec rfl).respond _ _)
  | tInt idx l r =>
    refine .guarded _ (h.refuse _) ?_
    rw [h.dec]
    split
    · exact .next (h.refuse _)
    · exact .next ((h.withDec rfl).respond _ _)
  | decPut byte n =>
    refine .guarded _ (h.refuse _) ?_
    rw [h.dec]
    split
    · exact (Flow.Rel.each DecAlike.walkBit _ _ _ (h.withDec rfl)).respondOk
        fun _ _ hr => hr.respond _ _
    · exact .next (h.refuse _)
  | decEnd =>
    simp only [Machine.exec, execDecEnd, h.dec]
    split
    · exact .next ((h.withDec rfl).respond _ _)
    · exact .next (h.refuse _)
  | decAbort =>
    simp only [Machine.exec, execDecAbort, h.dec]
    split
    · exact .next ((h.withDec rfl).respond _ _)
    · exact .next (h.refuse _)
  | _ => cases hi

end

/-! ## The frames of the units -/

/-- An encoder command leaves DEC, its sink and CTRL as they are. -/
theorem Effect.frame_of_isEnc {s t : State} {i : Instr} (h : Effect s i t) (hi : i.isEnc = true) :
    t.dec = s.dec ∧ t.env.decOut = s.env.decOut
      ∧ t.glob = { s.glob with refused := t.glob.refused } := by
  cases h with
  | srst | ctrl | troot | decInit | tLeaf | tInt | decPut | decEnd | decAbort => cases hi
  | _ => exact ⟨rfl, rfl, rfl⟩

/-- A decoder command leaves ENC, its sink and CTRL as they are. -/
theorem Effect.frame_of_isDec {s t : State} {i : Instr} (h : Effect s i t) (hi : i.isDec = true) :
    t.enc = s.enc ∧ t.env.encOut = s.env.encOut
      ∧ t.glob = { s.glob with refused := t.glob.refused } := by
  cases h with
  | srst | ctrl | encInit | ctClr | ctOpen | ctPush | encPut | encEnd | encAbort => cases hi
  | _ => exact ⟨rfl, rfl, rfl⟩

/-- Two states have given the same responses since they had given those they have. -/
theorem AnsweredAlike.start (s s' : State) : AnsweredAlike s.env.rsps s'.env.rsps s s' :=
  ⟨[], (List.append_nil _).symm, (List.append_nil _).symm⟩

/-- Settles O45: what a command writes lies in its own unit, and two runs of it in states that agree on that
unit go side by side. -/
theorem unitsIndependent : Obligations.UnitsIndependent := by
  refine ⟨fun i s t hx => ⟨(exec_effect hx).frame_of_isEnc, (exec_effect hx).frame_of_isDec⟩,
    fun i s s' hi he hf ho t hx => ?_, fun i s s' hi hd ho t hx => ?_⟩
  · obtain ⟨t', hx', hr⟩ := (EncAlike.exec hi ⟨he, hf, ho, .start s s'⟩).of_next hx
    obtain ⟨rs, hs, hs'⟩ := hr.rsps
    exact ⟨t', rs, hx', hr.enc, hr.out, hs, hs'⟩
  · obtain ⟨t', hx', hr⟩ := (DecAlike.exec hi ⟨hd, ho, .start s s'⟩).of_next hx
    obtain ⟨rs, hs, hs'⟩ := hr.rsps
    exact ⟨t', rs, hx', hr.dec, hr.out, hs, hs'⟩

end Sys2Proof.Machine
end

section
/-! Issuing a command twice in a row (spec/20_memory.md R62). -/

namespace Sys2Proof.Machine

/-! ## Updates done twice -/

theorem Dec.setNode_setNode (d : Dec) (i : Idx) (n : Node) :
    (d.setNode i n).setNode i n = d.setNode i n :=
  congrArg (fun m => { d with tm := m }) (cellWrite_twice i.toNat n d.tm)

/-- The entry `x` made absent and opened (R124). -/
abbrev Enc.opened (e : Enc) (x : Byte) : Enc := { e.setCode x [] with selSym := x, selV := true }

theorem Enc.opened_opened (e : Enc) (x : Byte) : (e.opened x).opened x = e.opened x :=
  congrArg (fun m => { e with ct := m, selSym := x, selV := true }) (cellErase_twice x.toNat e.ct)

/-! ## The commands with operand checks, past those checks -/

theorem exec_rdreg {r : RegNum} {reg : Reg} (hr : regOf r = some reg) (s : State) :
    exec (.rdreg r) s = .next (s.respond .ok (s.regValue reg)) := by
  rw [exec, execRdreg, hr]

theorem exec_wrreg_ctrl {v : BitVec 16} (hv : v.toNat < 8) (s : State) :
    exec (.wrreg 1#5 v) s = .next ({ s with glob := s.glob.writeCtrl v }.respond .ok 0) :=
  (guarded_legal ((rangeFault_none_iff (.wrreg 1#5 v)).2 (decide_eq_true (.inl ⟨rfl, hv⟩))) _ _).trans (if_pos rfl)

theorem exec_wrreg_troot {v : BitVec 16} (hv : v.toNat < 1024) (hn : v.toNat % 512 ≠ 511) (s : State) :
    exec (.wrreg 3#5 v) s = if s.dec.state ≠ .idle then .next (s.refuse .seq)
      else .next ({ s with dec := s.dec.writeTroot v }.respond .ok 0) :=
  (guarded_legal ((rangeFault_none_iff (.wrreg 3#5 v)).2 (decide_eq_true (.inr ⟨rfl, hv, hn⟩))) _ _).trans
    (if_neg (by decide))

theorem exec_tLeaf {idx : Idx} (hn : idx ≠ Config.nil) (sym : Byte) (s : State) :
    exec (.tLeaf idx sym) s = if s.dec.state ≠ .idle then .next (s.refuse .seq)
      else .next ({ s with dec := s.dec.setNode idx (.leaf sym) }.respond .ok 0) :=
  guarded_legal (i := .tLeaf idx sym) (if_neg hn) _ _

theorem exec_tInt {idx : Idx} (hn : idx ≠ Config.nil) (l r : Idx) (s : State) :
    exec (.tInt idx l r) s = if s.dec.state ≠ .idle then .next (s.refuse .seq)
      else .next ({ s with dec := s.dec.setNode idx (.int l r) }.respond .ok 0) :=
  guarded_legal (i := .tInt idx l r) (if_neg hn) _ _

/-! ## Commands done twice -/

/-- The command `i`, executed in `t`, answers a next state and leaves the block as `t` has it. -/
def Settled (i : Instr) (t : State) : Prop :=
  ∃ u, exec i t = .next u ∧ u.glob = t.glob ∧ u.enc = t.enc ∧ u.dec = t.dec

/-- A command refused before is settled when it is refused again. -/
theorem settled_of_refuse {i : Instr} {s : State} {c d : Code}
    (h : exec i (s.refuse c) = .next ((s.refuse c).refuse d)) : Settled i (s.refuse c) :=
  ⟨_, h, rfl, rfl, rfl⟩

theorem settled_rdreg {r : RegNum} {s t : State} (h : exec (.rdreg r) s = .next t) :
    Settled (.rdreg r) t := by
  rcases rdreg_forms h with ⟨reg, hr, rfl⟩ | ⟨hr, rfl⟩
  · exact ⟨_, exec_rdreg hr _, rfl, rfl, rfl⟩
  · exact settled_of_refuse (d := .illegal) (by rw [exec, execRdreg, hr])

theorem settled_wrreg {r : RegNum} {v : BitVec 16} {s t : State} (h : exec (.wrreg r v) s = .next t) :
    Settled (.wrreg r v) t := by
  rcases wrreg_forms h with ⟨hw, rfl⟩ | ⟨rfl, hv, rfl⟩ | ⟨rfl, hv, hn, ⟨hi, rfl⟩ | ⟨hi, rfl⟩⟩
  · exact settled_of_refuse (guarded_illegal (mt (rangeFault_none_iff _).1 hw) _ _)
  · exact ⟨_, exec_wrreg_ctrl hv _, rfl, rfl, rfl⟩
  · exact settled_of_refuse ((exec_wrreg_troot hv hn _).trans (if_pos hi))
  · exact ⟨_, (exec_wrreg_troot hv hn _).trans (if_neg (not_not.2 hi)), rfl, rfl, rfl⟩

theorem settled_ctClr {s t : State} (h : exec .ctClr s = .next t) : Settled .ctClr t := by
  rcases ctClr_forms h with ⟨hi, rfl⟩ | ⟨hi, rfl⟩
  · exact settled_of_refuse (if_pos hi)
  · exact ⟨_, if_neg (not_not.2 hi), rfl, rfl, rfl⟩

theorem settled_ctOpen {sym : Byte} {s t : State} (h : exec (.ctOpen sym) s = .next t) :
    Settled (.ctOpen sym) t := by
  rcases ctOpen_forms h with ⟨hi, rfl⟩ | ⟨hi, rfl⟩
  · exact settled_of_refuse (if_pos hi)
  · exact ⟨_, if_neg (not_not.2 hi), rfl, s.enc.opened_opened sym, rfl⟩

theorem settled_tLeaf {idx : Idx} {sym : Byte} {s t : State} (h : exec (.tLeaf idx sym) s = .next t) :
    Settled (.tLeaf idx sym) t := by
  rcases tLeaf_forms h with ⟨hn, rfl⟩ | ⟨hn, ⟨hi, rfl⟩ | ⟨hi, rfl⟩⟩
  · exact settled_of_refuse (guarded_illegal (by simp [rangeFault, hn]) _ _)
  · exact settled_of_refuse ((exec_tLeaf hn sym _).trans (if_pos hi))
  · exact ⟨_, (exec_tLeaf hn sym _).trans (if_neg (not_not.2 hi)), rfl, rfl, s.dec.setNode_setNode idx _⟩

theorem settled_tInt {idx l r : Idx} {s t : State} (h : exec (.tInt idx l r) s = .next t) :
    Settled (.tInt idx l r) t := by
  rcases tInt_forms h with ⟨hn, rfl⟩ | ⟨hn, ⟨hi, rfl⟩ | ⟨hi, rfl⟩⟩
  · exact settled_of_refuse (guarded_illegal (by simp [rangeFault, hn]) _ _)
  · exact settled_of_refuse ((exec_tInt hn l r _).trans (if_pos hi))
  · exact ⟨_, (exec_tInt hn l r _).trans (if_neg (not_not.2 hi)), rfl, rfl, s.dec.setNode_setNode idx _⟩

/-- Settles O51: the second of two refusals finds the same ground, and a write done twice is the write. -/
theorem repeatedCommandChangesNothing : Obligations.RepeatedCommandChangesNothing := by
  intro i s t hi h
  cases i with
  | nop => exact ⟨_, rfl, rfl, rfl, rfl⟩
  | srst => rw [srst_form h]; exact ⟨_, rfl, rfl, rfl, rfl⟩
  | rdreg r => exact settled_rdreg h
  | wrreg r v => exact settled_wrreg h
  | encInit => rw [encInit_form h]; exact ⟨_, rfl, rfl, rfl, rfl⟩
  | ctClr => exact settled_ctClr h
  | ctOpen sym => exact settled_ctOpen h
  | decInit => rw [decInit_form h]; exact ⟨_, rfl, rfl, rfl, rfl⟩
  | tLeaf idx sym => exact settled_tLeaf h
  | tInt idx l r => exact settled_tInt h
  | ctPush | encPut | encEnd | encAbort | decPut | decEnd | decAbort => cases hi

end Sys2Proof.Machine
end

section
/-! The format table (spec/30_encoding.md R81, R82) as one reading of a word, and the agreement of decoding and
encoding in both directions (R80 to R87). -/

namespace Sys2Proof

/-! ## The format table -/

/-- What the format table R81 makes of a word whose opcode is assigned: whether the bits its format marks `0`
are all 0, and the command spelled by its fields. No operand range is looked at. -/
def layout (w : Word) : Option (Bool × Instr) :=
  match (field w 27 5).toNat with
  | 0x00 => some (zeros w 0 27, .nop)
  | 0x01 => some (zeros w 0 27, .srst)
  | 0x02 => some (zeros w 21 6 && zeros w 0 16, .rdreg (field w 16 5))
  | 0x03 => some (zeros w 21 6, .wrreg (field w 16 5) (field w 0 16))
  | 0x04 => some (zeros w 0 27, .encInit)
  | 0x05 => some (zeros w 0 27, .ctClr)
  | 0x06 => some (zeros w 8 19, .ctOpen (field w 0 8))
  | 0x07 => some (zeros w 1 26, .ctPush (w.getLsbD 0))
  | 0x08 => some (zeros w 8 19, .encPut (field w 0 8))
  | 0x09 => some (zeros w 0 27, .encEnd)
  | 0x0A => some (zeros w 0 27, .encAbort)
  | 0x10 => some (zeros w 0 27, .decInit)
  | 0x11 => some (zeros w 8 10, .tLeaf (field w 18 9) (field w 0 8))
  | 0x12 => some (true, .tInt (field w 18 9) (field w 9 9) (field w 0 9))
  | 0x13 => some (zeros w 12 15, .decPut (field w 0 8) (field w 8 4))
  | 0x14 => some (zeros w 0 27, .decEnd)
  | 0x15 => some (zeros w 0 27, .decAbort)
  | _ => none

/-- Decoding is the format table followed by the checks of `accept`. -/
theorem decode_eq_layout (w : Word) :
    decode w = (layout w).elim (.illegal .reservedOpcode) fun p => accept p.1 p.2 := by
  unfold decode layout
  split <;> simp [*]

/-! ## The formats read back -/

/-- A word whose payload is 0 is the word of format Z with its opcode. -/
theorem formatZ_of_zeros {w : Word} {op : BitVec 5} (hop : field w 27 5 = op) (hz : zeros w 0 27 = true) :
    formatZ op = w := by
  rw [field_eq_iff] at hop
  rw [zeros_iff] at hz
  rw [← BitVec.toNat_inj, formatZ_toNat]
  omega

theorem formatS_of_zeros {w : Word} {op : BitVec 5} (hop : field w 27 5 = op) (hz : zeros w 8 19 = true) :
    formatS op (field w 0 8) = w := by
  rw [field_eq_iff] at hop
  rw [zeros_iff] at hz
  rw [← BitVec.toNat_inj, formatS_toNat, field_toNat]
  omega

theorem encode_ctPush_of_zeros {w : Word} (hop : field w 27 5 = 0x07#5) (hz : zeros w 1 26 = true) :
    encode (.ctPush (w.getLsbD 0)) = w := by
  rw [field_eq_iff] at hop
  rw [zeros_iff] at hz
  have hb : (w.getLsbD 0).toNat = w.toNat % 2 := by
    rw [bit_zero_eq]
    rcases Nat.mod_two_eq_zero_or_one w.toNat with h | h <;> simp [h]
  rw [← BitVec.toNat_inj, encode_ctPush_toNat, hb]
  simp only [BitVec.toNat_ofNat] at hop
  omega

theorem encode_rdreg_of_zeros {w : Word} (hop : field w 27 5 = 0x02#5) (hz : zeros w 21 6 = true)
    (hz' : zeros w 0 16 = true) : encode (.rdreg (field w 16 5)) = w := by
  rw [field_eq_iff] at hop
  rw [zeros_iff] at hz hz'
  rw [← BitVec.toNat_inj, encode_rdreg_toNat, field_toNat]
  simp only [BitVec.toNat_ofNat] at hop
  omega

theorem encode_wrreg_of_zeros {w : Word} (hop : field w 27 5 = 0x03#5) (hz : zeros w 21 6 = true) :
    encode (.wrreg (field w 16 5) (field w 0 16)) = w := by
  rw [field_eq_iff] at hop
  rw [zeros_iff] at hz
  rw [← BitVec.toNat_inj, encode_wrreg_toNat, field_toNat, field_toNat]
  simp only [BitVec.toNat_ofNat] at hop
  omega

theorem encode_tLeaf_of_zeros {w : Word} (hop : field w 27 5 = 0x11#5) (hz : zeros w 8 10 = true) :
    encode (.tLeaf (field w 18 9) (field w 0 8)) = w := by
  rw [field_eq_iff] at hop
  rw [zeros_iff] at hz
  rw [← BitVec.toNat_inj, encode_tLeaf_toNat, field_toNat, field_toNat]
  simp only [BitVec.toNat_ofNat] at hop
  omega

theorem encode_tInt_of_opcode {w : Word} (hop : field w 27 5 = 0x12#5) :
    encode (.tInt (field w 18 9) (field w 9 9) (field w 0 9)) = w := by
  rw [field_eq_iff] at hop
  rw [← BitVec.toNat_inj, encode_tInt_toNat, field_toNat, field_toNat, field_toNat]
  simp only [BitVec.toNat_ofNat] at hop
  omega

theorem encode_decPut_of_zeros {w : Word} (hop : field w 27 5 = 0x13#5) (hz : zeros w 12 15 = true) :
    encode (.decPut (field w 0 8) (field w 8 4)) = w := by
  rw [field_eq_iff] at hop
  rw [zeros_iff] at hz
  rw [← BitVec.toNat_inj, encode_decPut_toNat, field_toNat, field_toNat]
  simp only [BitVec.toNat_ofNat] at hop
  omega

/-! ## The rows of the opcode map -/

/-- The opcode of a command (R83). -/
def Instr.opcode : Instr → BitVec 5
  | .nop => 0x00
  | .srst => 0x01
  | .rdreg _ => 0x02
  | .wrreg _ _ => 0x03
  | .encInit => 0x04
  | .ctClr => 0x05
  | .ctOpen _ => 0x06
  | .ctPush _ => 0x07
  | .encPut _ => 0x08
  | .encEnd => 0x09
  | .encAbort => 0x0A
  | .decInit => 0x10
  | .tLeaf _ _ => 0x11
  | .tInt _ _ _ => 0x12
  | .decPut _ _ => 0x13
  | .decEnd => 0x14
  | .decAbort => 0x15

/-- The bits a command's format fixes: the opcode and the bits marked `0` (R81). -/
def Instr.mask : Instr → Word
  | .rdreg _ => 0xFFE0FFFF#32
  | .wrreg _ _ => 0xFFE00000#32
  | .ctOpen _ => 0xFFFFFF00#32
  | .ctPush _ => 0xFFFFFFFE#32
  | .encPut _ => 0xFFFFFF00#32
  | .tLeaf _ _ => 0xF803FF00#32
  | .tInt _ _ _ => 0xF8000000#32
  | .decPut _ _ => 0xFFFFF000#32
  | _ => 0xFFFFFFFF#32

/-- The row of a command (R83). -/
def Instr.row (i : Instr) : OpRow := ⟨mnemonic i, formatZ i.opcode, i.mask⟩

theorem row_mem_opTable (i : Instr) : i.row ∈ opTable := by
  cases i <;> simp only [Instr.row, mnemonic, Instr.opcode, Instr.mask] <;> decide

theorem and_cat4 {m n p q : Nat} (a a' : BitVec m) (b b' : BitVec n) (c c' : BitVec p) (d d' : BitVec q) :
    (a ++ b ++ c ++ d) &&& (a' ++ b' ++ c' ++ d') = (a &&& a') ++ (b &&& b') ++ (c &&& c') ++ (d &&& d') := by
  simp only [BitVec.and_append]

theorem formatS_masked (op : BitVec 5) (sym : Byte) : formatS op sym &&& 0xFFFFFF00#32 = formatZ op := by
  rw [formatS, show 0xFFFFFF00#32 = 31#5 ++ 0x7FFFF#19 ++ 0#8 from rfl, BitVec.and_append, BitVec.and_append,
    BitVec.and_zero]
  revert op
  decide

/-- The word of a command under the command's mask is the opcode alone: no operand lies under the mask. -/
theorem encode_masked (i : Instr) : encode i &&& i.mask = formatZ i.opcode := by
  cases i with
  | rdreg r =>
    rw [encode, Instr.mask, Instr.opcode, show 0xFFE0FFFF#32 = 31#5 ++ 63#6 ++ 0#5 ++ 0xFFFF#16 from rfl, and_cat4]
    simp only [BitVec.and_zero]
    decide
  | wrreg r v =>
    rw [encode, Instr.mask, Instr.opcode, show 0xFFE00000#32 = 31#5 ++ 63#6 ++ 0#5 ++ 0#16 from rfl, and_cat4]
    simp only [BitVec.and_zero]
    decide
  | ctOpen sym | encPut sym => exact formatS_masked _ sym
  | ctPush b => cases b <;> decide
  | tLeaf idx sym =>
    rw [encode, Instr.mask, Instr.opcode, show 0xF803FF00#32 = 31#5 ++ 0#9 ++ 0x3FF#10 ++ 0#8 from rfl, and_cat4]
    simp only [BitVec.and_zero]
    decide
  | tInt idx left right =>
    rw [encode, Instr.mask, Instr.opcode, show 0xF8000000#32 = 31#5 ++ 0#9 ++ 0#9 ++ 0#9 from rfl, and_cat4]
    simp only [BitVec.and_zero]
    decide
  | decPut byte n =>
    rw [encode, Instr.mask, Instr.opcode, show 0xFFFFF000#32 = 31#5 ++ 0x7FFF#15 ++ 0#4 ++ 0#8 from rfl, and_cat4]
    simp only [BitVec.and_zero]
    decide
  | _ => decide

/-- Below the opcode a word of format Z is 0. -/
theorem field_formatZ (op : BitVec 5) {lo len : Nat} (h : lo + len ≤ 27) :
    field (formatZ op) lo len = 0#len := by
  refine BitVec.eq_of_getLsbD_eq fun j hj => ?_
  have hlt : lo + j < 27 := by omega
  rw [field, BitVec.getLsbD_extractLsb', formatZ, BitVec.getLsbD_append, if_pos hlt]
  simp

theorem opcode_of_number {w : Word} {n : Nat} (h : (field w 27 5).toNat = n) :
    field w 27 5 = BitVec.ofNat 5 n := by
  rw [← h, BitVec.ofNat_toNat, BitVec.setWidth_eq]

/-- A word that matches a row is 0 wherever the row's mask covers a part of the payload. -/
theorem zeros_of_masked {w m : Word} {op : BitVec 5} {lo len : Nat} (h : w &&& m = formatZ op)
    (hm : field m lo len = BitVec.allOnes len) (hl : lo + len ≤ 27) : zeros w lo len = true :=
  decide_eq_true ((field_of_masked h lo len hm).trans (field_formatZ op hl))

/-- What the format table says when it reads the word `w` as the command `i`: `z` says whether the bits marked `0`
are 0, which is when `w` matches the row of `i`, and then `w` is the word of `i`. -/
structure Reads (w : Word) (z : Bool) (i : Instr) : Prop where
  opcode : field w 27 5 = i.opcode
  spells : z = true → encode i = w
  matched : w &&& i.mask = formatZ i.opcode → z = true

theorem Reads.formatZ {w : Word} {i : Instr} (he : encode i = Sys2Proof.formatZ i.opcode)
    (hm : i.mask = 0xFFFFFFFF#32) (hop : field w 27 5 = i.opcode) : Reads w (zeros w 0 27) i where
  opcode := hop
  spells hz := he.trans (formatZ_of_zeros hop hz)
  matched h := zeros_of_masked h (by rw [hm]; rfl) (by decide)

theorem Reads.formatS {w : Word} {i : Instr} (he : encode i = Sys2Proof.formatS i.opcode (field w 0 8))
    (hm : i.mask = 0xFFFFFF00#32) (hop : field w 27 5 = i.opcode) : Reads w (zeros w 8 19) i where
  opcode := hop
  spells hz := he.trans (formatS_of_zeros hop hz)
  matched h := zeros_of_masked h (by rw [hm]; rfl) (by decide)

/-- Every reading of the format table, by format: R, W, S, B, L, N, P, and Z for the other opcodes. -/
theorem reads_of_layout {w : Word} {z : Bool} {i : Instr} (h : layout w = some (z, i)) : Reads w z i := by
  unfold layout at h
  split at h <;> rename_i hop <;> cases h <;> replace hop := opcode_of_number hop
  case h_3 => -- RDREG
    refine ⟨hop, fun hz => ?_, fun hm => Bool.and_eq_true_iff.2 ⟨?_, ?_⟩⟩
    · exact encode_rdreg_of_zeros hop (Bool.and_eq_true_iff.1 hz).1 (Bool.and_eq_true_iff.1 hz).2
    all_goals exact zeros_of_masked (m := 0xFFE0FFFF#32) hm rfl (by decide)
  case h_4 => -- WRREG
    exact ⟨hop, encode_wrreg_of_zeros hop, fun hm => zeros_of_masked (m := 0xFFE00000#32) hm rfl (by decide)⟩
  case h_7 | h_9 => -- CT.OPEN, ENC.PUT
    exact .formatS rfl rfl hop
  case h_8 => -- CT.PUSH
    exact ⟨hop, encode_ctPush_of_zeros hop, fun hm => zeros_of_masked (m := 0xFFFFFFFE#32) hm rfl (by decide)⟩
  case h_13 => -- T.LEAF
    exact ⟨hop, encode_tLeaf_of_zeros hop, fun hm => zeros_of_masked (m := 0xF803FF00#32) hm rfl (by decide)⟩
  case h_14 => -- T.INT
    exact ⟨hop, fun _ => encode_tInt_of_opcode hop, fun _ => rfl⟩
  case h_15 => -- DEC.PUT
    exact ⟨hop, encode_decPut_of_zeros hop, fun hm => zeros_of_masked (m := 0xFFFFF000#32) hm rfl (by decide)⟩
  all_goals exact .formatZ rfl rfl hop

/-! ## Both directions -/

/-- Format S is read back, whichever command `i` the table gives the opcode to. -/
theorem layout_formatS (op : BitVec 5) (sym : Byte) (i : Byte → Instr)
    (hl : ∀ w : Word, (field w 27 5).toNat = op.toNat → layout w = some (zeros w 8 19, i (field w 0 8))) :
    layout (formatS op sym) = some (true, i sym) := by
  rw [hl _ (Laws.WordDecodes.op_formatS op sym), Laws.WordDecodes.zeros_formatS, Laws.WordDecodes.sym_formatS]

theorem layout_rdreg (r : RegNum) :
    layout (encode (.rdreg r)) = some (true, .rdreg r) := by
  have hop : (field (encode (.rdreg r)) 27 5).toNat = 0x02 := by
    rw [field_toNat, encode_rdreg_toNat]; omega
  rw [layout, hop]
  simp only [Option.some.injEq, Prod.mk.injEq, Instr.rdreg.injEq, Bool.and_eq_true, zeros_iff, field_eq_iff, encode_rdreg_toNat]
  omega

theorem layout_wrreg (r : RegNum) (v : BitVec 16) :
    layout (encode (.wrreg r v)) = some (true, .wrreg r v) := by
  have hop : (field (encode (.wrreg r v)) 27 5).toNat = 0x03 := by
    rw [field_toNat, encode_wrreg_toNat]; omega
  rw [layout, hop]
  simp only [Option.some.injEq, Prod.mk.injEq, Instr.wrreg.injEq, zeros_iff, field_eq_iff, encode_wrreg_toNat]
  omega

theorem layout_tLeaf (idx : Idx) (sym : Byte) :
    layout (encode (.tLeaf idx sym)) = some (true, .tLeaf idx sym) := by
  have hop : (field (encode (.tLeaf idx sym)) 27 5).toNat = 0x11 := by
    rw [field_toNat, encode_tLeaf_toNat]; omega
  rw [layout, hop]
  simp only [Option.some.injEq, Prod.mk.injEq, Instr.tLeaf.injEq, zeros_iff, field_eq_iff, encode_tLeaf_toNat]
  omega

theorem layout_tInt (idx left right : Idx) :
    layout (encode (.tInt idx left right)) = some (true, .tInt idx left right) := by
  have hop : (field (encode (.tInt idx left right)) 27 5).toNat = 0x12 := by
    rw [field_toNat, encode_tInt_toNat]; omega
  rw [layout, hop]
  simp only [Option.some.injEq, Prod.mk.injEq, Instr.tInt.injEq, true_and, field_eq_iff, encode_tInt_toNat]
  omega

theorem layout_decPut (byte : Byte) (n : BitVec 4) :
    layout (encode (.decPut byte n)) = some (true, .decPut byte n) := by
  have hop : (field (encode (.decPut byte n)) 27 5).toNat = 0x13 := by
    rw [field_toNat, encode_decPut_toNat]; omega
  rw [layout, hop]
  simp only [Option.some.injEq, Prod.mk.injEq, Instr.decPut.injEq, zeros_iff, field_eq_iff, encode_decPut_toNat]
  omega

/-- The format table reads every command back from its word. Laws/PerInstr.lean says so of the legal commands; the
refusals of R86 need it of the ill-formed ones too. -/
theorem layout_encode (i : Instr) : layout (encode i) = some (true, i) := by
  cases i with
  | rdreg r => exact layout_rdreg r
  | wrreg r v => exact layout_wrreg r v
  | ctOpen sym => exact layout_formatS 0x06#5 sym .ctOpen fun w h => by rw [layout, h]; rfl
  | ctPush b => cases b <;> decide
  | encPut sym => exact layout_formatS 0x08#5 sym .encPut fun w h => by rw [layout, h]; rfl
  | tLeaf idx sym => exact layout_tLeaf idx sym
  | tInt idx left right => exact layout_tInt idx left right
  | decPut byte n => exact layout_decPut byte n
  | nop | srst | encInit | ctClr | encEnd | encAbort | decInit | decEnd | decAbort => decide

/-- The word of a command is decoded as far as the operand ranges of R86. -/
theorem decode_encode (i : Instr) : decode (encode i) = accept true i := by
  rw [decode_eq_layout, layout_encode, Option.elim_some]

theorem decode_encode_of_wellFormed {i : Instr} (h : i.WellFormed) : decode (encode i) = .instr i := by
  rw [decode_encode]
  exact accept_eq_instr.2 ⟨rfl, (rangeFault_none_iff i).2 h, rfl⟩

/-- A word decodes only to the well-formed command it spells. -/
theorem spelled_of_decode {w : Word} {i : Instr} (h : decode w = .instr i) : i.WellFormed ∧ encode i = w := by
  rw [decode_eq_layout] at h
  cases hl : layout w with
  | none => rw [hl] at h; cases h
  | some p =>
    rw [hl] at h
    obtain ⟨hz, hr, hi⟩ := accept_eq_instr.1 h
    subst hi
    exact ⟨(rangeFault_none_iff p.2).1 hr, (reads_of_layout hl).spells hz⟩

/-- Settles O2: the format table reads a word back from its command and a command back from its word, and the
range checks are well-formedness. -/
theorem decodeIffEncode : Obligations.DecodeIffEncode := by
  intro w i
  refine ⟨spelled_of_decode, fun ⟨hw, he⟩ => ?_⟩
  rw [← he]
  exact decode_encode_of_wellFormed hw

/-- Settles O1, by evaluation of the decoder. -/
theorem specWordsDecode : Obligations.SpecWordsDecode := by
  unfold Obligations.SpecWordsDecode
  decide

/-! ## The opcode map -/

theorem opcode_toNat (w : Word) : (field w 27 5).toNat = w.toNat / 2 ^ 27 := by
  rw [field_toNat]
  omega

theorem opcode_eq_iff (w p : Word) : field w 27 5 = field p 27 5 ↔ w.toNat / 2 ^ 27 = p.toNat / 2 ^ 27 := by
  rw [← BitVec.toNat_inj, opcode_toNat, opcode_toNat]

theorem row_opcode (i : Instr) : field i.row.pattern 27 5 = i.opcode :=
  BitVec.eq_of_toNat_eq (Laws.WordDecodes.op_formatZ i.opcode)

/-- No two rows of the map have the same opcode. -/
theorem row_eq_of_opcode : ∀ r₁ ∈ opTable, ∀ r₂ ∈ opTable,
    field r₁.pattern 27 5 = field r₂.pattern 27 5 → r₁ = r₂ := by decide

theorem opcode_of_match {w : Word} {row : OpRow} (hr : row ∈ opTable) (h : w &&& row.mask = row.pattern) :
    field w 27 5 = field row.pattern 27 5 := by
  have hm : ∀ row ∈ opTable, field row.mask 27 5 = BitVec.allOnes 5 := by decide
  exact field_of_masked h 27 5 (hm row hr)

/-- The command a word decodes to matches the command's row. -/
theorem row_matches {w : Word} {i : Instr} (h : decode w = .instr i) : w &&& i.row.mask = i.row.pattern := by
  rw [← (spelled_of_decode h).2]
  exact encode_masked i

/-- The opcodes the map assigns (R83, R84). -/
abbrev OpcodeAssigned (n : Nat) : Prop := n ≤ 0x0A ∨ 0x10 ≤ n ∧ n ≤ 0x15

theorem row_opcodeAssigned : ∀ row ∈ opTable, OpcodeAssigned (row.pattern.toNat / 2 ^ 27) := by decide

theorem layout_of_opcodeAssigned {w : Word} (h : OpcodeAssigned (field w 27 5).toNat) :
    ∃ z i, layout w = some (z, i) := by
  unfold layout
  generalize (field w 27 5).toNat = n at h
  rcases h with h | ⟨h, h'⟩ <;> interval_cases n <;> exact ⟨_, _, rfl⟩

/-- A word with the opcode of a row is read as the command of that row. -/
theorem layout_of_opcode {w : Word} {row : OpRow} (hr : row ∈ opTable)
    (h : field w 27 5 = field row.pattern 27 5) : ∃ z i, layout w = some (z, i) ∧ i.row = row := by
  have ha : OpcodeAssigned (field w 27 5).toNat := by
    rw [opcode_toNat, (opcode_eq_iff _ _).1 h]
    exact row_opcodeAssigned row hr
  obtain ⟨z, i, hl⟩ := layout_of_opcodeAssigned ha
  have ho : field i.row.pattern 27 5 = field row.pattern 27 5 := by
    rw [row_opcode, ← (reads_of_layout hl).opcode, h]
  exact ⟨z, i, hl, row_eq_of_opcode _ (row_mem_opTable i) _ hr ho⟩

theorem accept_true_cases (i : Instr) :
    accept true i = .instr i ∨ (¬ i.WellFormed ∧ ∃ why, accept true i = .illegal why) := by
  cases h : rangeFault i with
  | none => exact .inl (accept_eq_instr.2 ⟨rfl, h, rfl⟩)
  | some why =>
    refine .inr ⟨fun hw => ?_, why, ?_⟩
    · rw [(rangeFault_none_iff i).2 hw] at h; cases h
    · rw [accept, if_pos rfl, h]

/-- A word that matches a row is the word of a command with that row. -/
theorem spelled_of_match {w : Word} {row : OpRow} (hr : row ∈ opTable) (h : w &&& row.mask = row.pattern) :
    ∃ i : Instr, i.row = row ∧ encode i = w := by
  obtain ⟨z, i, hl, rfl⟩ := layout_of_opcode hr (opcode_of_match hr h)
  have hread := reads_of_layout hl
  exact ⟨i, rfl, hread.spells (hread.matched h)⟩

/-- Settles O3: a word that matches a row has its opcode, so the format table reads it as that row's command, and
the bits marked `0` are under the mask. -/
theorem opcodeMapAgrees : Obligations.OpcodeMapAgrees := by
  refine ⟨rfl, fun w i h => ⟨i.row, row_mem_opTable i, rfl, row_matches h⟩, fun w row hr h => ?_,
    fun w r₁ h₁ r₂ h₂ hm₁ hm₂ => ?_, by decide, .reservedOpcode, by decide⟩
  · obtain ⟨i, rfl, rfl⟩ := spelled_of_match hr h
    refine ⟨i, rfl, rfl, ?_⟩
    rw [decode_encode]
    exact accept_true_cases i
  · exact row_eq_of_opcode r₁ h₁ r₂ h₂ ((opcode_of_match h₁ hm₁).symm.trans (opcode_of_match h₂ hm₂))

/-! ## Which operands are legal (R86) -/

theorem wellFormed_rdreg {r : RegNum} :
    (Instr.rdreg r).WellFormed ↔ r.toNat ≤ 10 ∨ (16 ≤ r.toNat ∧ r.toNat ≤ 20) := decide_eq_true_iff

theorem wellFormed_wrreg {r : RegNum} {v : BitVec 16} : (Instr.wrreg r v).WellFormed ↔
    (r = 1#5 ∧ v.toNat < 8) ∨ (r = 3#5 ∧ v.toNat < 1024 ∧ v.toNat % 512 ≠ 511) := decide_eq_true_iff

theorem wellFormed_tLeaf {idx : Idx} {sym : Byte} : (Instr.tLeaf idx sym).WellFormed ↔ idx.toNat ≤ 510 :=
  decide_eq_true_iff

theorem wellFormed_tInt {idx left right : Idx} : (Instr.tInt idx left right).WellFormed ↔ idx.toNat ≤ 510 :=
  decide_eq_true_iff

theorem wellFormed_decPut {byte : Byte} {n : BitVec 4} : (Instr.decPut byte n).WellFormed ↔ n.toNat ≤ 8 :=
  decide_eq_true_iff

theorem idx_le_of_ne_nil {idx : Idx} (h : idx ≠ 0x1FF#9) : idx.toNat ≤ 510 := by
  have hn : idx.toNat ≠ 511 := fun hn => h (BitVec.eq_of_toNat_eq hn)
  omega

end Sys2Proof
end

section
/-! Words that spell no command (spec/30_encoding.md R84 to R86). -/

namespace Sys2Proof.Machine

/-- A word that decodes to no command is refused with ILLEGAL. -/
theorem step_refuses {s : State} {w : Word} {rest : List PortEvent} (hp : s.env.port = .cmd w :: rest)
    (hs : s.env.stalled = false) (hd : ∀ i, decode w ≠ .instr i) :
    ∃ t, step s = .next t ∧ RefusedWith (s.withPort rest) t .illegal := by
  cases h : decode w with
  | instr i => exact absurd h (hd i)
  | illegal why => exact ⟨_, step_illegal hp hs h, refuse_refusedWith _ _⟩

/-- A word decodes only to a command whose row has its opcode. -/
theorem opcode_of_decode {w : Word} {i : Instr} (h : decode w = .instr i) :
    w.toNat / 2 ^ 27 = i.row.pattern.toNat / 2 ^ 27 :=
  (opcode_eq_iff w _).1 (opcode_of_match (row_mem_opTable i) (row_matches h))

/-- Settles O4: no row has a reserved opcode. -/
theorem reservedOpcodeRefused : Obligations.ReservedOpcodeRefused := by
  intro s w rest hp hs hop
  refine step_refuses hp hs fun i h => ?_
  have ha := row_opcodeAssigned i.row (row_mem_opTable i)
  rw [← opcode_of_decode h] at ha
  omega

/-- Settles O5: a word that decodes matches the row of its opcode, and no row has a 1 below the opcode. -/
theorem reservedBitRefused : Obligations.ReservedBitRefused := by
  rintro s w rest hp hs ⟨row, hr, hop, hbit⟩
  refine step_refuses hp hs fun i h => hbit ?_
  have hrow : i.row = row := by
    refine row_eq_of_opcode _ (row_mem_opTable i) _ hr ((opcode_eq_iff _ _).2 ?_)
    rw [← opcode_of_decode h, hop]
  have hlow : ∀ row ∈ opTable, row.pattern &&& 0x07FFFFFF#32 = 0#32 := by decide
  rw [← hrow, row_matches h]
  exact hlow _ (row_mem_opTable i)

/-- The word of an ill-formed command is refused with ILLEGAL. -/
theorem step_refuses_illFormed {s : State} {i : Instr} {rest : List PortEvent}
    (hp : s.env.port = .cmd (encode i) :: rest) (hs : s.env.stalled = false) (hw : ¬ i.WellFormed) :
    ∃ t, step s = .next t ∧ RefusedWith (s.withPort rest) t .illegal := by
  refine step_refuses hp hs fun j h => hw ?_
  rw [decode_encode] at h
  exact (rangeFault_none_iff i).1 (accept_eq_instr.1 h).2.1

/-- Settles O6: each case of R86 is ill formed, and the operands of every other command are legal. -/
theorem operandRangesRefused : Obligations.OperandRangesRefused := by
  refine ⟨fun s i rest hp hs h => step_refuses_illFormed hp hs ?_, ?_, fun r h => ?_, fun v h => ?_,
    fun v h h' => ?_, fun sym => ⟨?_, ?_⟩, fun b => ?_, fun idx sym h => ?_, fun idx left right h => ?_,
    fun byte n h => ?_⟩
  · rcases h with ⟨r, rfl | ⟨v, rfl⟩, h⟩ | ⟨r, v, rfl, -, h1, h3⟩ | ⟨v, rfl, h⟩ | ⟨v, rfl, h⟩ | ⟨sym, rfl⟩
      | ⟨left, right, rfl⟩ | ⟨byte, n, rfl, h⟩
    · rw [wellFormed_rdreg]; omega
    · rw [wellFormed_wrreg]
      rintro (⟨rfl, -⟩ | ⟨rfl, -⟩) <;> simp at h
    · rw [wellFormed_wrreg]
      rintro (⟨h, -⟩ | ⟨h, -⟩)
      · exact h1 h
      · exact h3 h
    · rw [wellFormed_wrreg]; rintro (⟨-, h⟩ | ⟨h, -⟩)
      · omega
      · exact absurd h (by decide)
    · rw [wellFormed_wrreg]; rintro (⟨h, -⟩ | ⟨-, h⟩)
      · exact absurd h (by decide)
      · omega
    · rw [wellFormed_tLeaf]; decide
    · rw [wellFormed_tInt]; decide
    · rw [wellFormed_decPut]; omega
  · decide
  · exact decode_encode_of_wellFormed (wellFormed_rdreg.2 h)
  · exact decode_encode_of_wellFormed (wellFormed_wrreg.2 (.inl ⟨rfl, by omega⟩))
  · exact decode_encode_of_wellFormed (wellFormed_wrreg.2 (.inr ⟨rfl, by omega, by omega⟩))
  · exact decode_encode_of_wellFormed rfl
  · exact decode_encode_of_wellFormed rfl
  · exact decode_encode_of_wellFormed rfl
  · exact decode_encode_of_wellFormed (wellFormed_tLeaf.2 (idx_le_of_ne_nil h))
  · exact decode_encode_of_wellFormed (wellFormed_tInt.2 (idx_le_of_ne_nil h))
  · exact decode_encode_of_wellFormed (wellFormed_decPut.2 h)

end Sys2Proof.Machine
end

section
/-! The responses (spec/30_encoding.md R92, R93): one for every command word that completes, and its DATA. -/

namespace Sys2Proof.Machine

/-- The codes of the fatal errors (R93). -/
def Code.isFatal : Code → Bool
  | .unencodable => true
  | .malformed => true
  | .ioerr => true
  | .ok => false
  | .illegal => false
  | .seq => false
  | .overflow => false

theorem Code.isFatal_iff {c : Code} : c.isFatal = true ↔ c = .unencodable ∨ c = .malformed ∨ c = .ioerr := by
  cases c <;> decide

/-- The response R92 gives to the command `i` executed in `s` with the next state `t`. -/
inductive Answers (s : State) (i : Instr) (t : State) : Code → Word → Prop
  | plain {c : Code} (hi : ∀ r, i ≠ .rdreg r) (hc : c.isFatal = false) : Answers s i t c 0
  | register {r : RegNum} {reg : Reg} (hi : i = .rdreg r) (hr : regOf r = some reg) :
      Answers s i t .ok (s.regValue reg)
  | encFatal {c : Code} {d : Word} (hi : i.isEnc = true) (hc : c.isFatal = true)
      (hd : d = t.regValue .encErrinfo) : Answers s i t c d
  | decFatal {c : Code} {d : Word} (hi : i.isDec = true) (hc : c.isFatal = true)
      (hd : d = t.regValue .decErrinfo) : Answers s i t c d

/-- The command `i`, executed in `s` with the next state `t`, has been answered by one response. -/
def Answered (s : State) (i : Instr) (t : State) : Prop :=
  t.env.stalled = s.env.stalled ∧ ∃ c d, t.env.rsps = s.env.rsps ++ [⟨c, d⟩] ∧ Answers s i t c d

theorem Answered.plain {s t : State} {i : Instr} {c : Code} (hs : t.env.stalled = s.env.stalled)
    (hr : t.env.rsps = s.env.rsps ++ [⟨c, 0⟩]) (hi : ∀ r, i ≠ .rdreg r) (hc : c.isFatal = false) :
    Answered s i t := ⟨hs, c, 0, hr, .plain hi hc⟩

/-- Error information 0, as an I/O error leaves it, reads 0 (R25, R32). -/
theorem regValue_encErrinfo_zero {t : State} (hsym : t.enc.errSym = 0) (hsrc : t.enc.errSrc = false) :
    0 = t.regValue .encErrinfo := by
  rw [State.regValue, hsym, hsrc]; rfl

theorem regValue_decErrinfo_zero {t : State} (hnode : t.dec.errNode = 0) (hbit : t.dec.errBit = false)
    (hsrc : t.dec.errSrc = false) : 0 = t.regValue .decErrinfo := by
  rw [State.regValue, hnode, hbit, hsrc]; rfl

theorem rdreg_answered {r : RegNum} {s t : State} (hw : (Instr.rdreg r).WellFormed)
    (h : exec (.rdreg r) s = .next t) : Answered s (.rdreg r) t := by
  rcases rdreg_forms h with ⟨reg, hr, rfl⟩ | ⟨hr, -⟩
  · exact ⟨rfl, _, _, rfl, .register rfl hr⟩
  · exact absurd hr ((regOf_isSome_iff r).2 (wellFormed_rdreg.1 hw))

theorem encPut_answered {sym : Byte} {s t : State} (h : exec (.encPut sym) s = .next t) :
    t.env.stalled = true ∨ Answered s (.encPut sym) t := by
  rcases encPut_forms h with ⟨-, rfl⟩ | ⟨-, -, rfl⟩ | ⟨-, -, _, _, _, ⟨_, _, -, rfl⟩ | rfl | ⟨-, rfl⟩⟩
  · exact .inr (.plain rfl rfl nofun rfl)
  · exact .inr ⟨rfl, .unencodable, _, rfl, .encFatal rfl rfl rfl⟩
  · exact .inr (.plain rfl rfl nofun rfl)
  · exact .inr ⟨rfl, .ioerr, 0, rfl, .encFatal rfl rfl (regValue_encErrinfo_zero rfl rfl)⟩
  · exact .inl rfl

theorem encEnd_answered {s t : State} (h : exec .encEnd s = .next t) :
    t.env.stalled = true ∨ Answered s .encEnd t := by
  rcases encEnd_forms h with ⟨-, rfl⟩ | ⟨-, _, _, ⟨_, -, rfl⟩ | rfl | ⟨-, rfl⟩⟩
  · exact .inr (.plain rfl rfl nofun rfl)
  · exact .inr (.plain rfl rfl nofun rfl)
  · exact .inr ⟨rfl, .ioerr, 0, rfl, .encFatal rfl rfl (regValue_encErrinfo_zero rfl rfl)⟩
  · exact .inl rfl

theorem decPut_answered {byte : Byte} {n : BitVec 4} {s t : State} (h : exec (.decPut byte n) s = .next t) :
    t.env.stalled = true ∨ Answered s (.decPut byte n) t := by
  rcases decPut_forms h with ⟨-, rfl⟩ | ⟨-, -, rfl⟩
    | ⟨-, -, _, _, _, _, -, rfl | ⟨_, rfl⟩ | rfl | ⟨-, rfl⟩⟩
  · exact .inr (.plain rfl rfl nofun rfl)
  · exact .inr (.plain rfl rfl nofun rfl)
  · exact .inr (.plain rfl rfl nofun rfl)
  · exact .inr ⟨rfl, .malformed, _, rfl, .decFatal rfl rfl rfl⟩
  · exact .inr ⟨rfl, .ioerr, 0, rfl, .decFatal rfl rfl (regValue_decErrinfo_zero rfl rfl rfl)⟩
  · exact .inl rfl

/-- The commands that end in one step of the block: refused, or answered (OK, 0). -/
theorem Effect.answered {s t : State} {i : Instr} (h : Effect s i t) (hrd : ∀ r, i ≠ .rdreg r)
    (hput : ∀ x, i ≠ .encPut x) (hend : i ≠ .encEnd) (hdec : ∀ x n, i ≠ .decPut x n) : Answered s i t := by
  cases h with
  | refuse hc => rcases hc with rfl | rfl | rfl <;> exact .plain rfl rfl hrd rfl
  | rdreg r d => exact absurd rfl (hrd r)
  | encPut sym => exact absurd rfl (hput sym)
  | encEnd => exact absurd rfl hend
  | decPut byte n => exact absurd rfl (hdec byte n)
  | _ => exact .plain rfl rfl hrd rfl

/-- A well-formed command stalls the block or is answered by one response. -/
theorem exec_answered {s t : State} {i : Instr} (hw : i.WellFormed) (h : exec i s = .next t) :
    t.env.stalled = true ∨ Answered s i t := by
  cases i with
  | rdreg r => exact .inr (rdreg_answered hw h)
  | encPut sym => exact encPut_answered h
  | encEnd => exact encEnd_answered h
  | decPut byte n => exact decPut_answered h
  | _ => exact .inr ((exec_effect h).answered nofun nofun nofun nofun)

theorem Answers.data_rdreg {s t : State} {r : RegNum} {c : Code} {d : Word} (h : Answers s (.rdreg r) t c d) :
    ∃ reg, regOf r = some reg ∧ c = .ok ∧ d = s.regValue reg := by
  cases h with
  | plain hi => exact absurd rfl (hi r)
  | register hi hr => cases hi; exact ⟨_, hr, rfl, rfl⟩
  | encFatal hi | decFatal hi => cases hi

theorem Answers.data_fatal {s t : State} {i : Instr} {c : Code} {d : Word} (h : Answers s i t c d)
    (hf : c.isFatal = true) : (i.isEnc = true ∧ d = t.regValue .encErrinfo)
      ∨ (i.isDec = true ∧ d = t.regValue .decErrinfo) := by
  cases h with
  | plain _ hc => rw [hc] at hf; cases hf
  | register => cases hf
  | encFatal hi _ hd => exact .inl ⟨hi, hd⟩
  | decFatal hi _ hd => exact .inr ⟨hi, hd⟩

theorem Answers.data_zero {s t : State} {i : Instr} {c : Code} {d : Word} (h : Answers s i t c d)
    (hi : ∀ r, i ≠ .rdreg r) (hf : c.isFatal = false) : d = 0 := by
  cases h with
  | plain => rfl
  | register h => exact absurd h (hi _)
  | encFatal _ hc | decFatal _ hc => rw [hc] at hf; cases hf

theorem regValue_withPort (s : State) (p : List PortEvent) (reg : Reg) :
    (s.withPort p).regValue reg = s.regValue reg := by
  cases reg <;> rfl

/-- A step that takes no command word answers nothing. -/
theorem step_keeps_rsps {s t : State} (h : step s = .next t) (hp : ∀ w rest, s.env.port ≠ .cmd w :: rest) :
    t.env.rsps = s.env.rsps := by
  rcases step_cases s with hs | ⟨w, rest, hw, -⟩ | ⟨rest, -, hs⟩ | ⟨w, n, rest, -, -, hs⟩
  · rw [hs] at h; cases h; rfl
  · exact absurd hw (hp w rest)
  · rw [hs] at h; cases h; rfl
  · rw [hs] at h
    rcases abandon_cases w n (s.withPort rest) with ⟨r, ha⟩ | ⟨r, ha⟩ | ⟨u, ha, -, -, -, -, hr, -⟩
    · rw [ha] at h; cases h
    · rw [ha] at h; cases h
    · rw [ha] at h; cases h
      exact hr

/-- Settles O9: the word is refused, or its command stalls the block, or is answered as R92 says. -/
theorem everyCommandAnsweredOnce : Obligations.EveryCommandAnsweredOnce := by
  refine ⟨fun s t w rest hp hs h => ?_, fun s t => step_keeps_rsps⟩
  cases hd : decode w with
  | illegal why =>
    rw [step_illegal hp hs hd] at h
    cases h
    exact .inr ⟨.illegal, 0, hs, rfl, nofun, nofun, fun _ _ _ _ => rfl⟩
  | instr i =>
    rw [step_cmd hp hs hd] at h
    rcases exec_answered (spelled_of_decode hd).1 h with ht | ⟨ht, c, d, hr, ha⟩
    · obtain ⟨hr, hk⟩ := exec_stalls (s := s.withPort rest) hs h ht
      simp only [← Sink.answerAt_zero] at hk
      exact .inl ⟨ht, hr, i, rfl, hk⟩
    · refine .inr ⟨c, d, ht.trans hs, hr, fun r hi => ?_,
        fun hc => ⟨i, rfl, ha.data_fatal (Code.isFatal_iff.2 hc)⟩, fun hi h1 h2 h3 => ?_⟩
      · cases hi
        simpa only [regValue_withPort] using ha.data_rdreg
      · have hf : c.isFatal = false := by
          rw [← Bool.not_eq_true, Code.isFatal_iff]
          simp [h1, h2, h3]
        exact ha.data_zero (fun r hr => hi r (congrArg _ hr)) hf

end Sys2Proof.Machine
end

section
/-! The global commands (spec/40_global_commands.md R100 to R104): the step that serves a command word, and what
NOP, SRST, RDREG and WRREG answer, write and leave. -/

namespace Sys2Proof.Machine

/-! ## The step (R100) -/

/-- Settles O7, for the words that decode to a command and for the illegal ones. -/
theorem stepRunsDecodedCommand : Obligations.StepRunsDecodedCommand :=
  fun _ _ _ hp hs => ⟨fun _ hd => step_cmd hp hs hd, fun _ hd => step_illegal hp hs hd⟩

/-! ## NOP (R101) -/

/-- Settles O13: a response changes nothing but the responses. -/
theorem nopDoesNothing : Obligations.NopDoesNothing :=
  fun s => ⟨s.respond .ok 0, rfl, respond_answersOnly s .ok 0, rfl, rfl, rfl⟩

/-! ## SRST (R102) -/

/-- In the reset state every code is absent (R43). -/
theorem Enc.len_reset (x : Byte) : Enc.reset.len x = 0 := rfl

/-- In the reset state no entry of the tree memory is written (R43). -/
theorem Dec.node_reset (i : Idx) : Dec.reset.node i = none := rfl

/-- Settles O14: a command that changes GSTAT.REFUSED is refused, which sets it. -/
theorem srstResetsBlock : Obligations.SrstResetsBlock := by
  refine ⟨fun s => ⟨s.resetBlock.respond .ok 0, rfl, respond_answersOnly s.resetBlock .ok 0, rfl, rfl, rfl,
    Enc.len_reset, Dec.node_reset⟩, fun i s t hx hi hr => ?_⟩
  by_contra hclear
  obtain ⟨c, -, hglob, -⟩ := (exec_effect hx).refusedWith hi (by rwa [hr])
  exact hclear (by rw [hglob])

/-! ## RDREG (R103) -/

theorem exec_rdreg_unassigned {r : RegNum} (hr : regOf r = none) (s : State) :
    exec (.rdreg r) s = .next (s.refuse .illegal) := by
  rw [exec, execRdreg, hr]

/-- Settles O15: the assigned numbers are those the register table lists. -/
theorem rdregReturnsValue : Obligations.RdregReturnsValue := by
  refine fun s r => ⟨fun reg hr => ?_, fun hr => ?_, (regOf_isSome_iff r).2⟩
  · exact ⟨_, exec_rdreg hr s, respond_answersOnly s .ok _, rfl, rfl, rfl⟩
  · have hnone : regOf r = none := by
      by_contra hassigned
      have := (regOf_isSome_iff r).1 hassigned
      omega
    exact ⟨_, exec_rdreg_unassigned hnone s, refuse_refusedWith s .illegal⟩

/-! ## WRREG (R104) -/

theorem exec_wrreg_illFormed {r : RegNum} {v : BitVec 16} (hw : ¬ (Instr.wrreg r v).WellFormed) (s : State) :
    exec (.wrreg r v) s = .next (s.refuse .illegal) :=
  guarded_illegal (mt (rangeFault_none_iff _).1 hw) s _

theorem exec_wrreg_troot_idle {v : BitVec 16} (hv : v.toNat < 1024) (hn : v.toNat % 512 ≠ 511) {s : State}
    (hi : s.dec.state = .idle) :
    exec (.wrreg 3#5 v) s = .next ({ s with dec := s.dec.writeTroot v }.respond .ok 0) :=
  (exec_wrreg_troot hv hn s).trans (if_neg (not_not.2 hi))

theorem exec_wrreg_troot_busy {v : BitVec 16} (hv : v.toNat < 1024) (hn : v.toNat % 512 ≠ 511) {s : State}
    (hi : s.dec.state ≠ .idle) : exec (.wrreg 3#5 v) s = .next (s.refuse .seq) :=
  (exec_wrreg_troot hv hn s).trans (if_pos hi)

/-- TROOT.IDX is the value written, cut to an index. -/
theorem Dec.writeTroot_eq (d : Dec) (v : BitVec 16) :
    d.writeTroot v = { d with rootIdx := BitVec.ofNat 9 v.toNat, present := v.getLsbD 9 } := rfl

/-- Settles O17: CTRL, TROOT in IDLE, TROOT out of IDLE, and the ill-formed writes. -/
theorem wrregWritesCtrlAndTroot : Obligations.WrregWritesCtrlAndTroot := by
  refine fun s v => ⟨fun hv => ?_, fun hv hn hi => ?_, fun hv hn hi => ?_, fun r hw => ?_⟩
  · exact ⟨_, exec_wrreg_ctrl hv s, rfl, rfl, rfl, rfl, rfl, rfl, rfl⟩
  · exact ⟨_, exec_wrreg_troot_idle hv hn hi, rfl, rfl, rfl, s.dec.writeTroot_eq v⟩
  · exact ⟨_, exec_wrreg_troot_busy hv hn hi, refuse_refusedWith s .seq⟩
  · exact ⟨_, exec_wrreg_illFormed hw s, refuse_refusedWith s .illegal⟩

end Sys2Proof.Machine
end

section
/-! The encoder unit (spec/41_encoder.md R120 to R128): what each of its commands does and in which states, and
the state table. -/

namespace Sys2Proof.Machine

/-! ## A clean run (R122) -/

/-- Settles O20: `Enc.restart` field by field. -/
theorem encInitStartsCleanRun : Obligations.EncInitStartsCleanRun :=
  fun _ => ⟨_, rfl, respond_answersOnly _ .ok 0, rfl, rfl, rfl, rfl, rfl, rfl, rfl, rfl, rfl, rfl, rfl, rfl,
    fun _ => rfl, rfl, rfl⟩

/-! ## The code table (R123 to R125) -/

theorem exec_ctClr_idle {s : State} (hi : s.enc.state = .idle) :
    exec .ctClr s = .next ({ s with enc := { s.enc with ct := [], selV := false } }.respond .ok 0) :=
  if_neg (not_not.2 hi)

theorem exec_ctClr_busy {s : State} (hi : s.enc.state ≠ .idle) : exec .ctClr s = .next (s.refuse .seq) :=
  if_pos hi

/-- Settles O21: in an empty table every symbol is absent. -/
theorem ctClrEmptiesTable : Obligations.CtClrEmptiesTable := by
  refine fun s => ⟨fun hi => ?_, fun hi => ?_⟩
  · exact ⟨_, exec_ctClr_idle hi, respond_answersOnly _ .ok 0, fun _ => rfl, rfl, rfl, rfl⟩
  · exact ⟨_, exec_ctClr_busy hi, refuse_refusedWith s .seq⟩

theorem exec_ctOpen_idle {s : State} (hi : s.enc.state = .idle) (sym : Byte) :
    exec (.ctOpen sym) s = .next ({ s with enc := s.enc.opened sym }.respond .ok 0) :=
  if_neg (not_not.2 hi)

theorem exec_ctOpen_busy {s : State} (hi : s.enc.state ≠ .idle) (sym : Byte) :
    exec (.ctOpen sym) s = .next (s.refuse .seq) :=
  if_pos hi

/-- Settles O22: the entry opened reads as the code without bits, every other entry as before. -/
theorem ctOpenOpensEntry : Obligations.CtOpenOpensEntry := by
  refine fun s sym => ⟨fun hi => ?_, fun hi => ?_⟩
  · exact ⟨_, exec_ctOpen_idle hi sym, respond_answersOnly _ .ok 0,
      Enc.len_eq_zero.2 (s.enc.code_setCode_same sym []), fun _ hx => s.enc.code_setCode_other hx [],
      rfl, rfl, rfl⟩
  · exact ⟨_, exec_ctOpen_busy hi sym, refuse_refusedWith s .seq⟩

theorem exec_ctPush_closed {s : State} (h : s.enc.state ≠ .idle ∨ s.enc.selV = false) (b : Bool) :
    exec (.ctPush b) s = .next (s.refuse .seq) :=
  if_pos h

/-- CT.PUSH with an open entry: OVERFLOW when its code is as long as a code can be (R125). -/
theorem exec_ctPush_open {s : State} (hi : s.enc.state = .idle) (hv : s.enc.selV = true) (b : Bool) :
    exec (.ctPush b) s = if s.enc.len s.enc.selSym = 255 then .next (s.refuse .overflow)
      else .next ({ s with
        enc := s.enc.setCode s.enc.selSym (s.enc.code s.enc.selSym ++ [b]) }.respond .ok 0) :=
  if_neg (by simp [hi, hv])

/-- Settles O23: the open entry reads as its code with the bit behind it, every other entry as before. -/
theorem ctPushAppendsBit : Obligations.CtPushAppendsBit := by
  refine fun s b => ⟨fun hi hv hl => ?_, fun hi hv hl => ?_, fun h => ?_⟩
  · have hcode := s.enc.code_setCode_same s.enc.selSym (s.enc.code s.enc.selSym ++ [b])
    exact ⟨_, (exec_ctPush_open hi hv b).trans (if_neg hl), respond_answersOnly _ .ok 0, hcode,
      (congrArg List.length hcode).trans List.length_append, fun _ hx => s.enc.code_setCode_other hx _,
      rfl, rfl, rfl⟩
  · exact ⟨_, (exec_ctPush_open hi hv b).trans (if_pos hl), refuse_refusedWith s .overflow⟩
  · exact ⟨_, exec_ctPush_closed h b, refuse_refusedWith s .seq⟩

/-! ## The packer (R121) -/

theorem Sink.acceptedAll_singleton (k : Sink) (b : Byte) : k.acceptedAll [b] = k.accepted b := by
  rw [← Sink.acceptedAll_cons, Sink.acceptedAll_nil]

/-- The byte the eighth bit completes is known by its bits. -/
theorem setBit_zero_eq {acc byte : Byte} {b : Bool} (h0 : byte.getLsbD 0 = b)
    (h : ∀ j, j ≠ 0 → byte.getLsbD j = acc.getLsbD j) : setBit acc 0 b = byte := by
  refine BitVec.eq_of_getLsbD_eq fun j _ => ?_
  rw [setBit_getLsbD acc b (by decide)]
  split
  · next hj => rw [hj, h0]
  · next hj => rw [h j hj]

/-- Settles O19: a bit that stays in ACC, then the eighth bit by the sink's answer to its byte. -/
theorem putBitFillsFromBitSeven : Obligations.PutBitFillsFromBitSeven := by
  refine fun b s => ⟨fun h7 => ?_, fun h7 byte h0 hbits => ?_⟩
  · have hplace : 7 - s.enc.accN.toNat < 8 := by omega
    refine ⟨_, putBit_partial h7 b, ?_, fun j hj => ?_, rfl⟩
    · exact (setBit_getLsbD s.enc.acc b hplace).trans (if_pos rfl)
    · exact (setBit_getLsbD s.enc.acc b hplace).trans (if_neg hj)
  · rw [putBit_full h7, setBit_zero_eq h0 hbits, Sink.answerAt_zero]
    refine ⟨fun ha => ?_, fun ha => ?_, fun ha => ?_⟩
    · rw [offerEnc_ok (by exact ha), Sink.acceptedAll_singleton]
    · exact ⟨_, offerEnc_fail (by exact ha) byte, rfl, rfl, rfl, rfl, rfl, rfl⟩
    · exact ⟨_, offerEnc_silent (by exact ha) byte, rfl, rfl, rfl, rfl⟩

/-! ## The data commands (R126, R127) -/

/-- Settles O24: the bits of the code go through the packer behind those held, between the start of the command
and its response. -/
theorem encPutEncodesSymbol : Obligations.EncPutEncodesSymbol := by
  refine fun s sym => ⟨fun ho hc hcl ha => ?_, fun ho => ?_⟩
  · obtain ⟨acc, hx, hheld, hclean⟩ := exec_encPut_ok (isOpen_iff.2 ho) hc hcl ha
    exact ⟨_, hx, rfl, hheld, hclean, rfl, rfl, rfl⟩
  · exact ⟨_, exec_encPut_closed (isOpen_false_iff.2 ho), refuse_refusedWith s .seq⟩

/-- Settles O27: nothing to flush, the padded byte by the sink's answer to it, or refused. -/
theorem encEndPadsAndCloses : Obligations.EncEndPadsAndCloses := by
  refine fun s => ⟨fun ho h0 => ?_, fun ho h0 hc => ?_, fun ho => ?_⟩
  · refine ⟨_, exec_encEnd_empty (isOpen_iff.2 ho) h0, respond_answersOnly _ .ok 0, ?_, rfl, rfl⟩
    rw [← h0]; rfl
  · obtain ⟨byte, hbyte, hx⟩ := exec_encEnd_flush (isOpen_iff.2 ho) h0 hc
    rw [hx, hbyte, Sink.answerAt_zero]
    refine ⟨fun ha => ?_, fun ha => ?_⟩
    · rw [offerEnc_ok (by exact ha), Sink.acceptedAll_singleton]
      exact ⟨_, rfl, rfl, rfl, rfl, rfl⟩
    · rw [offerEnc_fail (by exact ha)]
      exact ⟨_, rfl, rfl, rfl, rfl, rfl, rfl⟩
  · exact ⟨_, exec_encEnd_closed (isOpen_false_iff.2 ho), refuse_refusedWith s .seq⟩

/-! ## ENC.ABORT (R128) -/

theorem exec_encAbort_open {s : State} (ho : s.enc.state.isOpen = true) :
    exec .encAbort s = .next ({ s with enc := s.enc.enterFail .ioerr 0 true }.respond .ok 0) :=
  if_pos ho

theorem exec_encAbort_closed {s : State} (ho : s.enc.state.isOpen = false) :
    exec .encAbort s = .next (s.refuse .seq) :=
  if_neg (by simp [ho])

/-- Settles O28, for a unit that accepts its data commands and for one that does not. -/
theorem encAbortFails : Obligations.EncAbortFails := by
  refine fun s => ⟨fun ho => ?_, fun ho => ?_⟩
  · exact ⟨_, exec_encAbort_open (isOpen_iff.2 ho), respond_answersOnly _ .ok 0, rfl, rfl, rfl⟩
  · exact ⟨_, exec_encAbort_closed (isOpen_false_iff.2 ho), refuse_refusedWith s .seq⟩

/-! ## The state table (R120) -/

theorem idleRow_idle {u : UnitState} (h : u = .idle) : idleRow u = .leaves .idle := by rw [h]; rfl

theorem idleRow_busy {u : UnitState} (h : u ≠ .idle) : idleRow u = .seq := by
  cases u with
  | idle => exact absurd rfl h
  | run => rfl
  | done => rfl
  | fail => rfl

theorem runRow_open {u : UnitState} (h : u.isOpen = true) (c : TableCell) : runRow c u = c := by
  rcases isOpen_iff.1 h with rfl | rfl <;> rfl

theorem runRow_closed {u : UnitState} (h : u.isOpen = false) (c : TableCell) : runRow c u = .seq := by
  rcases isOpen_false_iff.1 h with rfl | rfl <;> rfl

/-- A command answered with one code was not refused with another. -/
theorem not_refusedWith {s t : State} {c c' : Code} {d : Word}
    (h : t.env.rsps = s.env.rsps ++ [⟨c, d⟩]) (hc : c ≠ c') : ¬ RefusedWith s t c' := by
  rintro ⟨-, -, -, ha⟩
  have hr := h.symm.trans (congrArg Env.rsps ha)
  simp only [List.append_cancel_left_eq, List.cons.injEq, Response.mk.injEq] at hr
  exact hc hr.1.1

/-- What a cell of R120 says of the command `i` executed in `s` with the next state `t`. CT.PUSH is accepted in
IDLE, but needs an open entry (R125). -/
def EncCell (i : Instr) (s t : State) : TableCell → Prop
  | .leaves u => t.enc.state = u ∧ ((∀ b, i = .ctPush b → s.enc.selV = true) → ¬ RefusedWith s t .seq)
  | .leavesOrFails u => (t.enc.state = u ∨ t.enc.state = .fail) ∧ ¬ RefusedWith s t .seq
  | .seq => RefusedWith s t .seq
  | .keeps => t.enc.state = s.enc.state

section cells

variable {i : Instr} {s t : State}

theorem EncCell.leaves {u : UnitState} {c : Code} {d : Word} (hu : t.enc.state = u)
    (hr : t.env.rsps = s.env.rsps ++ [⟨c, d⟩]) (hc : c ≠ .seq) : EncCell i s t (.leaves u) :=
  ⟨hu, fun _ => not_refusedWith hr hc⟩

theorem EncCell.refused_busy (hi : s.enc.state ≠ .idle) : EncCell i s (s.refuse .seq) (idleRow s.enc.state) := by
  rw [idleRow_busy hi]; exact refuse_refusedWith s .seq

theorem EncCell.refused_closed (ho : s.enc.state.isOpen = false) (c : TableCell) :
    EncCell i s (s.refuse .seq) (runRow c s.enc.state) := by
  rw [runRow_closed ho]; exact refuse_refusedWith s .seq

end cells

theorem encCell_ctClr {s t : State} (h : exec .ctClr s = .next t) :
    EncCell .ctClr s t (idleRow s.enc.state) := by
  rcases ctClr_forms h with ⟨hi, rfl⟩ | ⟨hi, rfl⟩
  · exact .refused_busy hi
  · rw [idleRow_idle hi]; exact .leaves hi rfl nofun

theorem encCell_ctOpen {sym : Byte} {s t : State} (h : exec (.ctOpen sym) s = .next t) :
    EncCell (.ctOpen sym) s t (idleRow s.enc.state) := by
  rcases ctOpen_forms h with ⟨hi, rfl⟩ | ⟨hi, rfl⟩
  · exact .refused_busy hi
  · rw [idleRow_idle hi]; exact .leaves hi rfl nofun

theorem encCell_ctPush {b : Bool} {s t : State} (h : exec (.ctPush b) s = .next t) :
    EncCell (.ctPush b) s t (idleRow s.enc.state) := by
  rcases ctPush_forms h with ⟨hi | hv, rfl⟩ | ⟨hi, -, ⟨-, rfl⟩ | ⟨-, rfl⟩⟩
  · exact .refused_busy hi
  · by_cases hi : s.enc.state = .idle
    · rw [idleRow_idle hi]
      exact ⟨hi, fun hopen => absurd (hopen b rfl) (by simp [hv])⟩
    · exact .refused_busy hi
  · rw [idleRow_idle hi]; exact .leaves hi rfl nofun
  · rw [idleRow_idle hi]; exact .leaves hi rfl nofun

theorem encCell_encPut {sym : Byte} {s t : State} (h : exec (.encPut sym) s = .next t)
    (ht : t.env.stalled = false) : EncCell (.encPut sym) s t (runRow (.leavesOrFails .run) s.enc.state) := by
  rcases encPut_forms h with ⟨ho, rfl⟩ | ⟨ho, -, rfl⟩ | ⟨ho, -, _, _, _, ⟨_, _, -, rfl⟩ | rfl | ⟨-, rfl⟩⟩
  · exact .refused_closed ho _
  all_goals rw [runRow_open ho]
  · exact ⟨.inr rfl, not_refusedWith (c := .unencodable) rfl nofun⟩
  · exact ⟨.inl rfl, not_refusedWith (c := .ok) rfl nofun⟩
  · exact ⟨.inr rfl, not_refusedWith (c := .ioerr) rfl nofun⟩
  · exact absurd ht nofun

theorem encCell_encEnd {s t : State} (h : exec .encEnd s = .next t) (ht : t.env.stalled = false) :
    EncCell .encEnd s t (runRow (.leavesOrFails .done) s.enc.state) := by
  rcases encEnd_forms h with ⟨ho, rfl⟩ | ⟨ho, _, _, ⟨_, -, rfl⟩ | rfl | ⟨-, rfl⟩⟩
  · exact .refused_closed ho _
  all_goals rw [runRow_open ho]
  · exact ⟨.inl rfl, not_refusedWith (c := .ok) rfl nofun⟩
  · exact ⟨.inr rfl, not_refusedWith (c := .ioerr) rfl nofun⟩
  · exact absurd ht nofun

theorem encCell_encAbort {s t : State} (h : exec .encAbort s = .next t) :
    EncCell .encAbort s t (runRow (.leaves .fail) s.enc.state) := by
  rcases encAbort_forms h with ⟨ho, rfl⟩ | ⟨ho, rfl⟩
  · exact .refused_closed ho _
  · rw [runRow_open ho]; exact .leaves rfl rfl nofun

/-- Every completed command does what its cell of the table says; the commands without a row do not write
STATE. -/
theorem exec_encCell {i : Instr} {s t : State} (h : exec i s = .next t) (ht : t.env.stalled = false) :
    EncCell i s t (encTable i s.enc.state) := by
  cases i with
  | encInit => rw [encInit_form h]; exact .leaves rfl rfl nofun
  | ctClr => exact encCell_ctClr h
  | ctOpen sym => exact encCell_ctOpen h
  | ctPush b => exact encCell_ctPush h
  | encPut sym => exact encCell_encPut h ht
  | encEnd => exact encCell_encEnd h ht
  | encAbort => exact encCell_encAbort h
  | srst => rw [srst_form h]; exact .leaves rfl rfl nofun
  | _ => exact ((exec_effect h).encStatus_eq nofun nofun nofun nofun nofun).1

/-- Settles O18: each cell of the table is met, whatever the operands are. -/
theorem encStateTable : Obligations.EncStateTable := by
  intro i s t _ h ht
  have hcell := exec_encCell h ht
  generalize encTable i s.enc.state = c at hcell ⊢
  cases c with
  | leaves u => exact hcell
  | leavesOrFails u => exact hcell
  | seq => exact hcell
  | keeps => exact hcell

end Sys2Proof.Machine
end

section
/-! The decoder unit (spec/42_decoder.md R150 to R157): what each of its commands does and in which states, what
one bit of the walk does, and the state table. -/

namespace Sys2Proof.Machine

/-! ## A clean run (R152) -/

/-- Settles O31: `Dec.restart` field by field. -/
theorem decInitStartsCleanRun : Obligations.DecInitStartsCleanRun :=
  fun _ => ⟨_, rfl, respond_answersOnly _ .ok 0, rfl, rfl, rfl, rfl, rfl, rfl, rfl, rfl, rfl, rfl, rfl,
    fun _ => rfl, rfl, rfl⟩

/-! ## The tree memory (R153, R154) -/

section writes

variable {i : Instr} {s : State} {idx : Idx} {nd : Node}
  (hx : exec i s = if s.dec.state ≠ .idle then .next (s.refuse .seq)
    else .next ({ s with dec := s.dec.setNode idx nd }.respond .ok 0))
include hx

/-- A command that writes a node in IDLE only, executed in IDLE: the node reads back, every other one as
before. -/
theorem writesNode_idle (hi : s.dec.state = .idle) : ∃ t, exec i s = .next t
    ∧ AnswersOnly s t .ok 0 ∧ t.dec.node idx = some nd ∧ (∀ j, j ≠ idx → t.dec.node j = s.dec.node j)
    ∧ t.dec = { s.dec with tm := t.dec.tm } ∧ t.glob = s.glob ∧ t.enc = s.enc :=
  ⟨_, hx.trans (if_neg (not_not.2 hi)), respond_answersOnly _ .ok 0, s.dec.node_setNode_same idx nd,
    fun _ hj => s.dec.node_setNode_other hj nd, rfl, rfl, rfl⟩

/-- The same command out of IDLE. -/
theorem writesNode_busy (hi : s.dec.state ≠ .idle) : ∃ t, exec i s = .next t ∧ RefusedWith s t .seq :=
  ⟨_, hx.trans (if_pos hi), refuse_refusedWith s .seq⟩

end writes

theorem exec_tLeaf_nil (sym : Byte) (s : State) :
    exec (.tLeaf Config.nil sym) s = .next (s.refuse .illegal) := rfl

theorem exec_tInt_nil (left right : Idx) (s : State) :
    exec (.tInt Config.nil left right) s = .next (s.refuse .illegal) := rfl

/-- Settles O32: the node written is a leaf. -/
theorem tLeafWritesNode : Obligations.TLeafWritesNode := by
  refine fun s idx sym => ⟨fun hn => ?_, fun hn => ?_, ?_⟩
  · exact writesNode_idle (exec_tLeaf hn sym s)
  · exact writesNode_busy (exec_tLeaf hn sym s)
  · rintro rfl
    exact ⟨_, exec_tLeaf_nil sym s, refuse_refusedWith s .illegal⟩

/-- Settles O33: the node written is internal, its children as given. -/
theorem tIntWritesNode : Obligations.TIntWritesNode := by
  refine fun s idx left right => ⟨fun hn => ?_, fun hn => ?_, ?_⟩
  · exact writesNode_idle (exec_tInt hn left right s)
  · exact writesNode_busy (exec_tInt hn left right s)
  · rintro rfl
    exact ⟨_, exec_tInt_nil left right s, refuse_refusedWith s .illegal⟩

/-! ## One bit of the walk (R151) -/

/-- DEC_ERRINFO as a number, for an error the unit detects itself (SRC 0, R32). -/
theorem decErrinfo_eq_ofNat (node : Idx) (bit : Bool) :
    decErrinfo node bit false = BitVec.ofNat 32 (node.toNat + 512 * bit.toNat) := by
  have hfields : (decErrinfo node bit false).toNat = node.toNat + 512 * bit.toNat :=
    (toNat_three_fields (k := 21) (.ofBool false) (.ofBool bit) node).trans (by simp)
  rw [← hfields, BitVec.ofNat_toNat, BitVec.setWidth_eq]

/-- Settles O30: a bit without a child; a child that is internal; a child that is a leaf, by the sink's answer
to its symbol. -/
theorem walkBitMovesCursor : Obligations.WalkBitMovesCursor := by
  refine fun b s => ⟨fun h => ?_, fun left right child hn hc hnil => ?_⟩
  · refine ⟨_, walkBit_noChild h, ?_, rfl, rfl, rfl⟩
    rw [← decErrinfo_eq_ofNat]
    exact respond_answersOnly _ .malformed _
  · have hf : s.dec.follow [b] s.dec.cur = some child :=
      follow_one.2 ⟨left, right, hn, fun he => hnil (hc.trans he), hc⟩
    refine ⟨fun ⟨_, _, hint⟩ => walkBit_inner hf hint, fun sym hleaf => ?_⟩
    rw [Sink.answerAt_zero]
    refine ⟨fun ha => ?_, fun ha => ?_⟩
    · rw [walkBit_accepted hf hleaf ha, Sink.acceptedAll_singleton]
    · exact ⟨_, walkBit_failed hf hleaf ha, rfl, rfl, rfl, rfl, rfl, rfl⟩

/-! ## DEC.PUT (R155) -/

theorem exec_decPut_illFormed {byte : Byte} {n : BitVec 4} (hn : 9 ≤ n.toNat) (s : State) :
    exec (.decPut byte n) s = .next (s.refuse .illegal) :=
  guarded_illegal (mt (rangeFault_none_iff _).1 (by rw [wellFormed_decPut]; omega)) s _

/-- With the tree absent the first DEC.PUT of a run does not load the cursor. -/
theorem startWalk_absent {s : State} (ho : s.dec.state.isOpen = true) (hp : s.dec.present = false) :
    s.startWalk = { s with dec := { s.dec with state := .run } } := by
  have hcur : s.startWalk.dec.cur = s.dec.cur := by
    unfold State.startWalk Dec.startRun
    split
    · exact if_neg (by simp [hp])
    · rfl
  have hdec := startWalk_dec ho
  rw [hcur] at hdec
  exact congrArg (fun d => { s with dec := d }) hdec

/-- DEC.PUT with the tree absent walks no bit. -/
theorem exec_decPut_absent {s : State} {byte : Byte} {n : BitVec 4} (hn : n.toNat ≤ 8)
    (ho : s.dec.state.isOpen = true) (hp : s.dec.present = false) :
    exec (.decPut byte n) s = .next ({ s with dec := { s.dec with state := .run } }.respond .ok 0) := by
  rw [exec_decPut_run hn ho, if_neg (by simp [hp]), Flow.each_nil, Flow.respondOk_go, startWalk_absent ho hp]

/-- Settles O34: the tree absent, the tree present and its symbols accepted, the unit closed, and an ill-formed
bit count. -/
theorem decPutDecodesBits : Obligations.DecPutDecodesBits := by
  refine fun s byte n => ⟨fun hn ho hp => ?_, fun hn ho hp xs cur hs ha => ?_, fun hn ho => ?_, fun hn => ?_⟩
  · exact ⟨_, exec_decPut_absent hn (isOpen_iff.2 ho) hp, respond_answersOnly _ .ok 0, rfl, rfl, rfl⟩
  · have hx := exec_decPut_ok hn (isOpen_iff.2 ho) hp hs ha
    rw [validBits_length hn] at hx
    exact ⟨_, hx, rfl, rfl, rfl, rfl⟩
  · exact ⟨_, exec_decPut_closed hn (isOpen_false_iff.2 ho), refuse_refusedWith s .seq⟩
  · exact ⟨_, exec_decPut_illFormed hn s, refuse_refusedWith s .illegal⟩

/-! ## DEC.END (R156) -/

theorem exec_decEnd_open {s : State} (ho : s.dec.state.isOpen = true) :
    exec .decEnd s
      = .next ({ s with dec := { s.dec with trunc := s.dec.midCode, state := .done } }.respond .ok 0) :=
  if_pos ho

theorem exec_decEnd_closed {s : State} (ho : s.dec.state.isOpen = false) :
    exec .decEnd s = .next (s.refuse .seq) :=
  if_neg (by simp [ho])

theorem Dec.midCode_iff (d : Dec) :
    d.midCode = true ↔ d.state = .run ∧ d.present = true ∧ d.cur ≠ d.rootIdx := by
  simp [Dec.midCode, and_assoc]

/-- Settles O38: TRUNC is `Dec.midCode`. -/
theorem decEndRecordsTrunc : Obligations.DecEndRecordsTrunc := by
  refine fun s => ⟨fun ho => ?_, fun ho => ?_⟩
  · exact ⟨_, exec_decEnd_open (isOpen_iff.2 ho), respond_answersOnly _ .ok 0, rfl, s.dec.midCode_iff, rfl, rfl⟩
  · exact ⟨_, exec_decEnd_closed (isOpen_false_iff.2 ho), refuse_refusedWith s .seq⟩

/-! ## DEC.ABORT (R157) -/

theorem exec_decAbort_open {s : State} (ho : s.dec.state.isOpen = true) :
    exec .decAbort s = .next ({ s with dec := s.dec.enterFail .ioerr 0 false true }.respond .ok 0) :=
  if_pos ho

theorem exec_decAbort_closed {s : State} (ho : s.dec.state.isOpen = false) :
    exec .decAbort s = .next (s.refuse .seq) :=
  if_neg (by simp [ho])

/-- Settles O39, for a unit that accepts its data commands and for one that does not. -/
theorem decAbortFails : Obligations.DecAbortFails := by
  refine fun s => ⟨fun ho => ?_, fun ho => ?_⟩
  · exact ⟨_, exec_decAbort_open (isOpen_iff.2 ho), respond_answersOnly _ .ok 0, rfl, rfl, rfl⟩
  · exact ⟨_, exec_decAbort_closed (isOpen_false_iff.2 ho), refuse_refusedWith s .seq⟩

/-! ## The state table (R150) -/

/-- What a cell of R150 says of a command executed in `s` with the next state `t`. -/
def DecCell (s t : State) : TableCell → Prop
  | .leaves u => t.dec.state = u ∧ ¬ RefusedWith s t .seq
  | .leavesOrFails u => (t.dec.state = u ∨ t.dec.state = .fail) ∧ ¬ RefusedWith s t .seq
  | .seq => RefusedWith s t .seq
  | .keeps => t.dec.state = s.dec.state

/-- A command answered with a code other than SEQ leaves the state its cell gives. -/
theorem DecCell.leaves {s t : State} {c : Code} {d : Word} (hr : t.env.rsps = s.env.rsps ++ [⟨c, d⟩])
    (hc : c ≠ .seq) : DecCell s t (.leaves t.dec.state) :=
  ⟨rfl, not_refusedWith hr hc⟩

/-- A command that only IDLE accepts and that keeps the state: T.LEAF, T.INT, WRREG of TROOT. -/
theorem decCell_idleRow {s t : State} {d : Dec}
    (h : (s.dec.state ≠ .idle ∧ t = s.refuse .seq)
      ∨ (s.dec.state = .idle ∧ t = { s with dec := d }.respond .ok 0))
    (hd : d.state = s.dec.state) : DecCell s t (idleRow s.dec.state) := by
  rcases h with ⟨hi, rfl⟩ | ⟨hi, rfl⟩
  · rw [idleRow_busy hi]; exact refuse_refusedWith s .seq
  · rw [idleRow_idle hi, ← hi, ← hd]; exact .leaves (c := .ok) rfl nofun

/-- A command that IDLE and RUN accept and that cannot fail: DEC.END, DEC.ABORT. -/
theorem decCell_runRow {s t : State} {d : Dec}
    (h : (s.dec.state.isOpen = false ∧ t = s.refuse .seq)
      ∨ (s.dec.state.isOpen = true ∧ t = { s with dec := d }.respond .ok 0)) :
    DecCell s t (runRow (.leaves d.state) s.dec.state) := by
  rcases h with ⟨ho, rfl⟩ | ⟨ho, rfl⟩
  · rw [runRow_closed ho]; exact refuse_refusedWith s .seq
  · rw [runRow_open ho]; exact .leaves (c := .ok) rfl nofun

theorem decCell_wrreg {r : RegNum} {v : BitVec 16} {s t : State} (hw : (Instr.wrreg r v).WellFormed)
    (h : exec (.wrreg r v) s = .next t) : DecCell s t (decTable (.wrreg r v) s.dec.state) := by
  rcases wrreg_forms h with ⟨hill, -⟩ | ⟨rfl, -, rfl⟩ | ⟨rfl, -, -, hforms⟩
  · exact absurd hw hill
  · exact rfl
  · exact decCell_idleRow hforms rfl

theorem decCell_tLeaf {idx : Idx} {sym : Byte} {s t : State} (hw : (Instr.tLeaf idx sym).WellFormed)
    (h : exec (.tLeaf idx sym) s = .next t) : DecCell s t (idleRow s.dec.state) := by
  rcases tLeaf_forms h with ⟨rfl, -⟩ | ⟨-, hforms⟩
  · exact absurd (wellFormed_tLeaf.1 hw) (by decide)
  · exact decCell_idleRow hforms rfl

theorem decCell_tInt {idx left right : Idx} {s t : State} (hw : (Instr.tInt idx left right).WellFormed)
    (h : exec (.tInt idx left right) s = .next t) : DecCell s t (idleRow s.dec.state) := by
  rcases tInt_forms h with ⟨rfl, -⟩ | ⟨-, hforms⟩
  · exact absurd (wellFormed_tInt.1 hw) (by decide)
  · exact decCell_idleRow hforms rfl

theorem decCell_decPut {byte : Byte} {n : BitVec 4} {s t : State} (hw : (Instr.decPut byte n).WellFormed)
    (h : exec (.decPut byte n) s = .next t) (ht : t.env.stalled = false) :
    DecCell s t (runRow (.leavesOrFails .run) s.dec.state) := by
  rcases decPut_forms h with ⟨hn, -⟩ | ⟨-, ho, rfl⟩
    | ⟨-, ho, _, _, _, _, -, rfl | ⟨_, rfl⟩ | rfl | ⟨-, rfl⟩⟩
  · exact absurd (wellFormed_decPut.1 hw) (by omega)
  · rw [runRow_closed ho]; exact refuse_refusedWith s .seq
  all_goals rw [runRow_open ho]
  · exact ⟨.inl rfl, not_refusedWith (c := .ok) rfl nofun⟩
  · exact ⟨.inr rfl, not_refusedWith (c := .malformed) rfl nofun⟩
  · exact ⟨.inr rfl, not_refusedWith (c := .ioerr) rfl nofun⟩
  · exact absurd ht nofun

/-- Every completed command does what its cell of the table says; the commands without a row do not write
STATE. -/
theorem exec_decCell {i : Instr} {s t : State} (hw : i.WellFormed) (h : exec i s = .next t)
    (ht : t.env.stalled = false) : DecCell s t (decTable i s.dec.state) := by
  cases i with
  | decInit => rw [decInit_form h]; exact .leaves (c := .ok) rfl nofun
  | tLeaf idx sym => exact decCell_tLeaf hw h
  | tInt idx left right => exact decCell_tInt hw h
  | wrreg r v => exact decCell_wrreg hw h
  | decPut byte n => exact decCell_decPut hw h ht
  | decEnd => exact decCell_runRow (decEnd_forms h)
  | decAbort => exact decCell_runRow (decAbort_forms h)
  | srst => rw [srst_form h]; exact .leaves (c := .ok) rfl nofun
  | _ =>
    obtain ⟨-, -, -, -, hstate⟩ := (exec_effect h).decStatus_eq nofun nofun nofun nofun
    exact hstate nofun

/-- Settles O29: each cell of the table is met, whatever the operands are. -/
theorem decStateTable : Obligations.DecStateTable := fun _ _ _ hw h ht => exec_decCell hw h ht

end Sys2Proof.Machine
end

section
/-! What an encoder run produces (spec/43_codec_laws.md R181): the state after ENC.INIT and the ENC.PUTs, and after
a following ENC.END; the run on copies of one symbol with the code 1 (R184). -/

namespace Sys2Proof.Machine

/-! ## Responses of consecutive commands -/

theorem AllOk.trans {s t u : State} {m n k : Nat} (h : AllOk s t m) (h' : AllOk t u n) (hk : k = m + n) :
    AllOk s u k := by
  rw [AllOk, h', h, hk, List.append_assoc, List.replicate_append_replicate]

/-! ## ENC.INIT and the ENC.PUTs -/

/-- The state after ENC.INIT (R122). -/
def State.encStarted (s : State) : State := { s with enc := s.enc.restart }.respond .ok 0

theorem Issued.encInit {s v : State} {js : List Instr} (hs : s.env.stalled = false)
    (h : Issued s.encStarted js v) : Issued s (.encInit :: js) v :=
  .cons (Laws.WordDecodes.encInit rfl) hs rfl h

/-- After ENC.INIT and the ENC.PUTs, ACC holds the bits behind the whole bytes, with zeros below. What the host
issues next goes on from there. -/
theorem encRun_issued {s : State} {xs : List Byte} (hs : s.env.stalled = false) (hk : s.env.encOut.neverFails)
    (hx : ∀ x ∈ xs, s.enc.code x ≠ []) :
    ∃ acc, (s.encStarted.afterPuts xs acc).enc.held
        = (s.enc.bitsOf xs).drop (8 * ((s.enc.bitsOf xs).length / 8))
      ∧ (s.encStarted.afterPuts xs acc).enc.accClean
      ∧ ∀ js v, Issued (s.encStarted.afterPuts xs acc) js v → Issued s (encRun xs ++ js) v := by
  have hclean0 : s.encStarted.enc.accClean := accClean_of_acc_zero rfl
  obtain ⟨acc, hheld, hclean, hnext⟩ := encPuts_run xs s.encStarted hs hk rfl hclean0 hx
  exact ⟨acc, hheld, hclean, fun js v h => .encInit hs (hnext js v h)⟩

theorem afterPuts_allOk (s : State) (xs : List Byte) (acc : Byte) :
    AllOk s (s.encStarted.afterPuts xs acc) (xs.length + 1) :=
  AllOk.trans (t := s.encStarted) (m := 1) rfl rfl (Nat.add_comm ..)

theorem afterPuts_accN_toNat (s : State) (xs : List Byte) (acc : Byte) :
    (s.encStarted.afterPuts xs acc).enc.accN.toNat = (s.enc.bitsOf xs).length % 8 :=
  BitVec.toNat_ofNat ..

/-- A run counter, counted from 0 (R122). -/
theorem counter_toNat (n : Nat) : (0 + BitVec.ofNat 32 n : Word).toNat = n % 2 ^ 32 := by
  simp

/-! ## ENC.END -/

/-- The state after ENC.END, when the sink accepts the padded byte of the bits held, if there are any (R127). -/
def State.encEnded (s : State) : State :=
  { s with
    enc := { s.enc with
      state := .done, lastN := s.enc.accN, acc := 0, accN := 0
      bytes := s.enc.bytes + BitVec.ofNat 32 (pack s.enc.held s.glob.fill).length }
    env := { s.env with encOut := s.env.encOut.acceptedAll (pack s.enc.held s.glob.fill) } }.respond .ok 0

theorem Enc.acc_eq_zero {e : Enc} (hc : e.accClean) (h0 : e.accN = 0) : e.acc = 0 := by
  refine BitVec.eq_of_getLsbD_eq fun i hi => ?_
  rw [hc ⟨i, hi⟩ (by rw [h0]; exact hi)]
  exact BitVec.getLsbD_zero.symm

theorem exec_encEnd_accepted {s : State} (ho : s.enc.state.isOpen = true) (hc : s.enc.accClean)
    (ha : s.env.encOut.answer = some .ok) : exec .encEnd s = .next s.encEnded := by
  by_cases h0 : s.enc.accN = 0
  · rw [exec_encEnd_empty ho h0]
    simp [State.encEnded, State.finishEnd, State.startEnd, h0, Enc.acc_eq_zero hc h0]
  · obtain ⟨byte, hbyte, hx⟩ := exec_encEnd_flush ho h0 hc
    rw [hx, offerEnc_ok (by exact ha)]
    simp [State.encEnded, State.finishEnd, State.flushing, hbyte, Sink.acceptedAll_singleton]

theorem Sink.neverFails_answer {k : Sink} (h : k.neverFails) : k.answer = some .ok := by
  rw [← k.answerAt_zero]
  exact Sink.neverFails_accepts h 1 0 Nat.one_pos

/-! ## The whole run -/

/-- `u` is the state after the encoder run of R181 on `xs`, ENC.END included, from `s`. -/
structure Encoded (s : State) (xs : List Byte) (u : State) : Prop where
  issued : Issued s (encRun xs ++ [.encEnd]) u
  allOk : AllOk s u (xs.length + 2)
  out : u.env.encOut.out = s.env.encOut.out ++ pack (s.enc.bitsOf xs) s.glob.fill
  lastN : u.enc.lastN.toNat = (s.enc.bitsOf xs).length % 8
  bits : u.enc.bits.toNat = (s.enc.bitsOf xs).length % 2 ^ 32
  bytes : u.enc.bytes.toNat = ((s.enc.bitsOf xs).length + 7) / 8 % 2 ^ 32
  state : u.enc.state = .done
  dec : u.dec = s.dec
  decOut : u.env.decOut = s.env.decOut
  stalled : u.env.stalled = false

/-- The whole bytes, whatever fills them up, and the padded byte of the bits held are the packing (R181). -/
theorem pack_whole_append_held (bs : List Bool) (f : Bool) :
    (pack bs false).take (bs.length / 8) ++ pack (bs.drop (8 * (bs.length / 8))) f = pack bs f := by
  rw [pack_whole bs false f, ← pack_split]

theorem exists_encoded {s : State} {xs : List Byte} (hs : s.env.stalled = false)
    (hk : s.env.encOut.neverFails) (hx : ∀ x ∈ xs, s.enc.code x ≠ []) : ∃ u, Encoded s xs u := by
  obtain ⟨acc, hheld, hclean, hnext⟩ := encRun_issued hs hk hx
  have hopen : (s.encStarted.afterPuts xs acc).enc.state.isOpen = true := by
    simp only [State.afterPuts]
    split <;> rfl
  have hend := exec_encEnd_accepted hopen hclean (Sink.neverFails_answer (Sink.neverFails_acceptedAll hk _))
  refine ⟨(s.encStarted.afterPuts xs acc).encEnded.withPort [], ?_⟩
  constructor
  case issued => exact hnext _ _ (.cons (Laws.WordDecodes.encEnd rfl) hs hend (.nil _))
  case allOk => exact (afterPuts_allOk s xs acc).trans (n := 1) rfl rfl
  case out =>
    show (s.env.encOut.out ++ _) ++ pack _ s.glob.fill = _
    rw [hheld, List.append_assoc]
    exact congrArg _ (pack_whole_append_held (s.enc.bitsOf xs) s.glob.fill)
  case lastN => exact afterPuts_accN_toNat s xs acc
  case bits => exact counter_toNat _
  case bytes =>
    have hlen : ((s.enc.bitsOf xs).length + 7) / 8
        = (s.enc.bitsOf xs).length / 8 + (pack (s.encStarted.afterPuts xs acc).enc.held s.glob.fill).length := by
      rw [hheld, pack_length, List.length_drop]; omega
    rw [hlen, ← counter_toNat]
    exact congrArg _ (count_add 0 rfl)
  case state => rfl
  case dec => rfl
  case decOut => rfl
  case stalled => exact hs

/-- Settles O54: before ENC.END the state after the ENC.PUTs, after it that of `Encoded`. -/
theorem encoderRunOutput : Obligations.EncoderRunOutput := by
  intro s xs hs hk hx
  constructor
  · obtain ⟨acc, hheld, hclean, hnext⟩ := encRun_issued hs hk hx
    have hissued := hnext _ _ (.nil _)
    rw [List.append_nil] at hissued
    exact ⟨_, hissued, afterPuts_allOk s xs acc, rfl, hheld, hclean, afterPuts_accN_toNat s xs acc,
      counter_toNat _, counter_toNat _, counter_toNat _, rfl⟩
  · obtain ⟨u, hu⟩ := exists_encoded hs hk hx
    exact ⟨u, hu.issued, hu.allOk, hu.out, hu.lastN, hu.bits, hu.bytes, hu.state⟩

/-! ## Copies of one symbol with the code 1 (R184) -/

theorem Enc.bitsOf_replicate {e : Enc} {a : Byte} (h : e.code a = [true]) (m : Nat) :
    e.bitsOf (List.replicate m a) = List.replicate m true := by
  induction m with
  | zero => rfl
  | succ m ih => rw [List.replicate_succ, Enc.bitsOf_cons, ih, h]; rfl

/-- Whole bytes of 1 bits. -/
theorem pack_ones_append (q : Nat) (bs : List Bool) (f : Bool) :
    pack (List.replicate (8 * q) true ++ bs) f = List.replicate q 0xFF#8 ++ pack bs f := by
  induction q with
  | zero => rfl
  | succ q ih =>
    rw [show 8 * (q + 1) = 8 + 8 * q by omega, List.replicate_add, List.append_assoc,
      pack_chunk List.length_replicate, ih, List.replicate_succ (n := q), List.cons_append]
    exact congrArg (· :: _) (by cases f <;> decide)

/-- The last byte, of fewer than eight 1 bits. -/
theorem pack_ones_short : ∀ r < 8, ∀ f : Bool, pack (List.replicate r true) f
    = if r = 0 then []
      else [BitVec.ofNat 8 (256 - 2 ^ (8 - r) + (if f = true then 2 ^ (8 - r) - 1 else 0))] := by decide

theorem pack_ones (m : Nat) (f : Bool) : pack (List.replicate m true) f = List.replicate (m / 8) 0xFF#8
    ++ (if m % 8 = 0 then []
        else [BitVec.ofNat 8 (256 - 2 ^ (8 - m % 8) + (if f = true then 2 ^ (8 - m % 8) - 1 else 0))]) := by
  have hr : m % 8 < 8 := Nat.mod_lt m (by decide)
  rw [← pack_ones_short _ hr, ← pack_ones_append, ← List.replicate_add, Nat.div_add_mod]

/-- Settles O57: the packing of as many 1 bits as there are copies. -/
theorem singleSymbolOutput : Obligations.SingleSymbolOutput := by
  intro s a m hs hk hc
  have hx : ∀ x ∈ List.replicate m a, s.enc.code x ≠ [] := by
    intro x hx
    rw [List.eq_of_mem_replicate hx, hc]
    exact List.cons_ne_nil true []
  obtain ⟨u, hu⟩ := exists_encoded hs hk hx
  have hbits : (s.enc.bitsOf (List.replicate m a)).length = m := by
    rw [Enc.bitsOf_replicate hc, List.length_replicate]
  refine ⟨u, hu.issued, ?_, hu.lastN.trans (by rw [hbits]), hu.bits.trans (by rw [hbits])⟩
  rw [hu.out, Enc.bitsOf_replicate hc, pack_ones, List.append_assoc]

end Sys2Proof.Machine
end

section
/-! What a walk of the tree from the root does with codes and with filler bits (spec/43_codec_laws.md R180, R185,
R186). -/

namespace Sys2Proof.Machine

variable {d : Dec}

/-! ## Agreement with one tree (R180, R185) -/

/-- Settles O58: the walk of the shorter code would be at a leaf and have a bit to go. -/
theorem agreementIsPrefixFree : Obligations.AgreementIsPrefixFree := by
  rintro s x y ⟨-, -, i, hfx, hx⟩ ⟨-, -, j, hfy, hy⟩ hne ⟨rest, hrest⟩
  rw [← hrest, Dec.follow_append, hfx, Option.bind_some] at hfy
  cases rest with
  | nil =>
    cases hfy
    rw [hx] at hy
    cases hy
    exact hne rfl
  | cons b bs => rw [Dec.follow_leaf hx] at hfy; cases hfy

/-! ## The walk of equal bits -/

theorem Dec.follow_noChild {b : Bool} {i : Idx} (h : d.noChild b i) (bs : List Bool) :
    d.follow (b :: bs) i = none := by
  rcases h with ⟨sym, hleaf⟩ | ⟨l, r, hint, hnil⟩
  · exact Dec.follow_leaf hleaf b bs
  · simp [Dec.follow, hint, hnil]

/-- The nodes on a path, its end included if it is internal, are internal. -/
theorem Dec.inner_of_follow {bits : List Bool} {c e : Idx} (h : d.follow bits c = some e)
    (he : bits = [] → ∃ l r, d.node e = some (.int l r)) : ∃ l r, d.node c = some (.int l r) := by
  cases bits with
  | nil => cases h; exact he rfl
  | cons b bs =>
    rw [Dec.follow_cons] at h
    obtain ⟨c', hc', -⟩ := Option.bind_eq_some_iff.1 h
    obtain ⟨l, r, hint, -⟩ := follow_one.1 hc'
    exact ⟨l, r, hint⟩

/-- A path of equal bits, cut in two. -/
theorem Dec.follow_replicate_split {f : Bool} {n r : Nat} {i e : Idx} (hr : r ≤ n)
    (h : d.follow (List.replicate n f) i = some e) :
    ∃ c, d.follow (List.replicate r f) i = some c ∧ d.follow (List.replicate (n - r) f) c = some e := by
  rw [← Nat.add_sub_of_le hr, List.replicate_add, Dec.follow_append] at h
  exact Option.bind_eq_some_iff.1 h

/-- When equal bits lead back to where they began, they lead on for ever. -/
theorem Dec.follow_replicate_cycle {f : Bool} {r : Nat} {i : Idx} (hr : 0 < r)
    (h : d.follow (List.replicate r f) i = some i) (n : Nat) : d.follow (List.replicate n f) i ≠ none := by
  induction n using Nat.strongRecOn with
  | _ n ih =>
    rcases Nat.le_total n r with hn | hn
    · obtain ⟨c, hc, -⟩ := Dec.follow_replicate_split hn h
      simp [hc]
    · rw [← Nat.add_sub_of_le hn, List.replicate_add, Dec.follow_append, h, Option.bind_some]
      exact ih (n - r) (by omega)

/-- On the way to a node from which there is no further step, equal bits do not come back to where they began. -/
theorem Dec.follow_replicate_ne {f : Bool} {n r : Nat} {i c e : Idx} (hr : 0 < r)
    (he : d.follow (List.replicate n f) i = some e) (hend : d.noChild f e)
    (hc : d.follow (List.replicate r f) i = some c) : c ≠ i := by
  rintro rfl
  refine Dec.follow_replicate_cycle hr hc (n + 1) ?_
  rw [List.replicate_add, Dec.follow_append, he]
  exact Dec.follow_noChild hend []

/-! ## Filler bits (R186) -/

/-- Filler bits that end inside the tree spell nothing, and leave the cursor off the root if there are any. -/
theorem Dec.spells_filler_inner {f : Bool} {n r : Nat} {e : Idx} (hr : r ≤ n)
    (he : d.follow (List.replicate n f) d.rootIdx = some e) (hend : d.noChild f e)
    (hint : r = n → ∃ left right, d.node e = some (.int left right)) :
    ∃ c, d.spells (List.replicate r f) d.rootIdx = some ([], c) ∧ (c ≠ d.rootIdx ↔ r ≠ 0) := by
  obtain ⟨c, hc, hrest⟩ := Dec.follow_replicate_split hr he
  obtain ⟨left, right, hcint⟩ := Dec.inner_of_follow hrest fun h0 => hint (by
    rw [List.replicate_eq_nil_iff] at h0; omega)
  refine ⟨c, Dec.spells_inner hc hcint, fun hne h0 => ?_, fun h0 => ?_⟩
  · subst h0; cases hc; exact hne rfl
  · exact Dec.follow_replicate_ne (Nat.pos_of_ne_zero h0) he hend hc

/-- What a first part of the bits spells when it comes back to the root, the rest carries on. -/
theorem Dec.spells_append_root {as bs : List Bool} {i c : Idx} {xs ys : List Byte}
    (ha : d.spells as i = some (xs, d.rootIdx)) (hb : d.spells bs d.rootIdx = some (ys, c)) :
    d.spells (as ++ bs) i = some (xs ++ ys, c) := by
  rw [Dec.spells_append, ha, Option.bind_some, hb, Option.map_some]

/-- Filler bits that reach a leaf after `n` bits spell its symbol once for every `n` of them. -/
theorem Dec.spells_filler_leaf {f : Bool} {n : Nat} {j : Idx} {x : Byte} (hn : 1 ≤ n)
    (hf : d.follow (List.replicate n f) d.rootIdx = some j) (hj : d.node j = some (.leaf x)) (q : Nat) :
    d.spells (List.replicate (n * q) f) d.rootIdx = some (List.replicate q x, d.rootIdx) := by
  induction q with
  | zero => rfl
  | succ q ih =>
    have hne : List.replicate n f ≠ [] := by rw [Ne, List.replicate_eq_nil_iff]; omega
    rw [Nat.mul_succ, Nat.add_comm, List.replicate_add, List.replicate_succ]
    exact Dec.spells_append_root (xs := [x]) (Dec.spells_path hne hf hj) ih

end Sys2Proof.Machine
end

section
/-! Decoder runs (spec/43_codec_laws.md R182, R183, R186): the run on puts whose bits spell symbols, on puts with
the tree absent, and on puts the last of which asks for a child that does not exist; the laws that put them behind
an encoder run. -/

namespace Sys2Proof.Machine

variable {s t : State}

/-! ## DEC.INIT and DEC.END -/

/-- The state after DEC.INIT (R152). -/
def State.decStarted (s : State) : State := { s with dec := s.dec.restart }.respond .ok 0

/-- The state after DEC.END in IDLE or RUN (R156). -/
def State.decEnded (s : State) : State :=
  { s with dec := { s.dec with trunc := s.dec.midCode, state := .done } }.respond .ok 0

theorem decStarted_spells (s : State) (bits : List Bool) (i : Idx) :
    s.decStarted.dec.spells bits i = s.dec.spells bits i :=
  Dec.spells_congr (d := s.dec) (d' := s.decStarted.dec) rfl rfl bits i

theorem Issued.decInit {js : List Instr} {v : State} (hs : s.env.stalled = false)
    (h : Issued s.decStarted js v) : Issued s (.decInit :: js) v :=
  .cons (Laws.WordDecodes.decInit rfl) hs rfl h

theorem Issued.decEnd (hs : s.env.stalled = false) (ho : s.dec.state.isOpen = true) :
    Issued s [.decEnd] (s.decEnded.withPort []) :=
  .cons (Laws.WordDecodes.decEnd rfl) hs (exec_decEnd_open ho) (.nil _)

theorem decPut_decodes {p : Byte × BitVec 4} (hn : p.2.toNat ≤ 8) :
    decode (encode (.decPut p.1 p.2)) = .instr (.decPut p.1 p.2) :=
  Laws.WordDecodes.decPut p.1 p.2 (wellFormed_decPut.2 hn)

/-! ## The tree absent (R183) -/

theorem decPuts_absent {ps : List (Byte × BitVec 4)} (hn : ∀ p ∈ ps, p.2.toNat ≤ 8) {s : State}
    (hs : s.env.stalled = false) (ho : s.dec.state.isOpen = true) (hp : s.dec.present = false) :
    ∃ t, Issued s (ps.map (fun p => Instr.decPut p.1 p.2) ++ [.decEnd]) t
      ∧ AllOk s t (ps.length + 1) ∧ t.env.decOut.out = s.env.decOut.out
      ∧ t.dec.bits = s.dec.bits ∧ t.dec.syms = s.dec.syms ∧ t.dec.state = .done ∧ t.dec.trunc = false := by
  induction ps generalizing s with
  | nil => exact ⟨_, .decEnd hs ho, rfl, rfl, rfl, rfl, rfl, by simp [State.decEnded, Dec.midCode, hp]⟩
  | cons p ps ih =>
    have hn8 := hn p List.mem_cons_self
    obtain ⟨t, hissued, hok, hrest⟩ := ih (fun q hq => hn q (List.mem_cons_of_mem p hq))
      (s := { s with dec := { s.dec with state := .run } }.respond .ok 0) hs rfl hp
    exact ⟨t, .cons (decPut_decodes hn8) hs (exec_decPut_absent hn8 ho hp) hissued,
      AllOk.trans (m := 1) (by rfl) hok (Nat.add_comm ..), hrest⟩

/-- Settles O56: an encoder run that holds no bit, whatever the sink answers, and a decoder run without a tree. -/
theorem emptyInput : Obligations.EmptyInput := by
  refine fun s hs => ⟨?_, fun hp ps hn => ?_⟩
  · have hend : exec .encEnd s.encStarted = .next (s.encStarted.startEnd.finishEnd.respond .ok 0) :=
      exec_encEnd_empty rfl rfl
    have hissued : Issued s [.encInit, .encEnd] _ :=
      .encInit hs (.cons (Laws.WordDecodes.encEnd rfl) hs hend (.nil _))
    refine ⟨_, hissued, ?_, rfl, rfl, rfl, rfl, rfl, rfl⟩
    exact AllOk.trans (t := s.encStarted) (m := 1) (n := 1) rfl rfl rfl
  · obtain ⟨t, hissued, hok, hrest⟩ := decPuts_absent hn (s := s.decStarted) hs rfl hp
    exact ⟨t, .decInit hs hissued, AllOk.trans (t := s.decStarted) (m := 1) rfl hok (by omega), hrest⟩

/-! ## Puts whose bits spell symbols -/

/-- The state of a run that DEC.INIT and the start of its first DEC.PUT began, after the DEC.PUTs `qs`, whose bits
spell `xs` and leave the cursor at `cur`. -/
def State.decoding (s : State) (qs : List (Byte × BitVec 4)) (xs : List Byte) (cur : Idx) : State :=
  s.decStarted.startWalk.afterDecPuts qs.length (putsBits qs).length xs cur

theorem decoding_allOk (s : State) (qs : List (Byte × BitVec 4)) (xs : List Byte) (cur : Idx) :
    AllOk s (s.decoding qs xs cur) (qs.length + 1) :=
  AllOk.trans (t := s.decStarted) (m := 1) rfl rfl (Nat.add_comm ..)

theorem decoding_midCode {qs : List (Byte × BitVec 4)} {xs : List Byte} {cur : Idx} (hp : s.dec.present = true) :
    (s.decoding qs xs cur).dec.midCode = decide (cur ≠ s.dec.rootIdx) := by
  have hpresent : (s.decoding qs xs cur).dec.present = true := hp
  rw [Dec.midCode, hpresent, Bool.and_true]
  rfl

/-- `u` is the state after DEC.INIT, the DEC.PUTs `qs` and DEC.END from `s`, when the bits put spell `xs` and leave
the cursor at `cur`. -/
structure Decoded (s : State) (qs : List (Byte × BitVec 4)) (xs : List Byte) (cur : Idx) (u : State) : Prop where
  issued : Issued s (.decInit :: (qs.map (fun q => Instr.decPut q.1 q.2) ++ [.decEnd])) u
  allOk : AllOk s u (qs.length + 2)
  out : u.env.decOut.out = s.env.decOut.out ++ xs
  state : u.dec.state = .done
  trunc : u.dec.trunc = decide (cur ≠ s.dec.rootIdx)
  syms : u.dec.syms.toNat = xs.length % 2 ^ 32
  bits : u.dec.bits.toNat = (putsBits qs).length % 2 ^ 32

theorem exists_decoded {qs : List (Byte × BitVec 4)} {xs : List Byte} {cur : Idx}
    (hs : s.env.stalled = false) (hk : s.env.decOut.neverFails) (hp : qs ≠ [] → s.dec.present = true)
    (hn : ∀ q ∈ qs, q.2.toNat ≤ 8) (h : s.dec.spells (putsBits qs) s.dec.rootIdx = some (xs, cur)) :
    ∃ u, Decoded s qs xs cur u := by
  by_cases hne : qs = []
  · subst hne
    cases h
    refine ⟨s.decStarted.decEnded.withPort [], ?_⟩
    constructor
    case issued => exact .decInit hs (.decEnd hs rfl)
    case allOk => exact AllOk.trans (t := s.decStarted) (m := 1) (n := 1) rfl rfl rfl
    case out => exact (List.append_nil _).symm
    case trunc => simp [State.decEnded, State.decStarted, Dec.midCode]
    all_goals rfl
  · refine ⟨(s.decoding qs xs cur).decEnded.withPort [], ?_⟩
    have hend : Issued (s.decoding qs xs cur) [.decEnd] ((s.decoding qs xs cur).decEnded.withPort []) :=
      .decEnd hs rfl
    constructor
    case issued =>
      exact .decInit hs (decPuts_first (s := s.decStarted) hne hs hk rfl (hp hne) hn
        (by rw [decStarted_spells]; exact h) _ _ hend)
    case allOk => exact (decoding_allOk s qs xs cur).trans (n := 1) rfl rfl
    case out => rfl
    case state => rfl
    case trunc => exact decoding_midCode (hp hne)
    case syms => exact counter_toNat _
    case bits => exact counter_toNat _

/-! ## A last put that asks for a child that does not exist -/

/-- A run of DEC.PUTs from IDLE goes as one whose start has been made. -/
theorem Issued.of_startWalk {ps : List (Byte × BitVec 4)} {v : State} (hne : ps ≠ [])
    (hs : s.env.stalled = false) (ho : s.dec.state.isOpen = true) (hn : ∀ p ∈ ps, p.2.toNat ≤ 8)
    (h : Issued s.startWalk (ps.map fun p => Instr.decPut p.1 p.2) v) :
    Issued s (ps.map fun p => Instr.decPut p.1 p.2) v := by
  cases ps with
  | nil => exact absurd rfl hne
  | cons p ps =>
    have hn8 := hn p List.mem_cons_self
    exact .congr_head (s' := s.startWalk) (decPut_decodes hn8) hs hs (exec_decPut_startWalk hn8 ho) h

/-- The two parts of what a sequence of bits spells. -/
theorem Dec.spells_append_inv {d : Dec} {as bs : List Bool} {i cur : Idx} {xs : List Byte}
    (h : d.spells (as ++ bs) i = some (xs, cur)) : ∃ ys c zs,
      d.spells as i = some (ys, c) ∧ d.spells bs c = some (zs, cur) ∧ xs = ys ++ zs := by
  rw [Dec.spells_append, Option.bind_eq_some_iff] at h
  obtain ⟨⟨ys, c⟩, hy, hz⟩ := h
  obtain ⟨⟨zs, c'⟩, hzs, he⟩ := Option.map_eq_some_iff.1 hz
  cases he
  exact ⟨ys, c, zs, hy, hzs, rfl⟩

theorem decPut_malformed {byte : Byte} {n : BitVec 4} {pre post : List Bool} {b : Bool} {xs : List Byte}
    {cur : Idx} (hn : n.toNat ≤ 8) (ho : s.dec.state.isOpen = true) (hp : s.dec.present = true)
    (hb : validBits byte n = pre ++ b :: post) (h : s.dec.spells pre s.dec.walkStart = some (xs, cur))
    (ha : s.env.decOut.acceptsNext xs.length) (hend : s.dec.noChild b cur) :
    exec (.decPut byte n) s = .next ((s.walked pre.length xs cur).raiseDec .malformed cur b false) := by
  have hwalk : walkBit b (s.walked pre.length xs cur) = .ended _ := walkBit_noChild hend
  rw [exec_decPut_until hn ho hp hb h ha, hwalk]
  rfl

/-- The symbols spelled before are delivered, and the last put is MALFORMED at the node the cursor is on (R203). -/
theorem decPuts_malformed {qs : List (Byte × BitVec 4)} {q : Byte × BitVec 4} {pre post : List Bool} {b : Bool}
    {xs : List Byte} {cur : Idx} (hs : s.env.stalled = false) (hk : s.env.decOut.neverFails)
    (hp : s.dec.present = true) (hn : ∀ r ∈ qs ++ [q], r.2.toNat ≤ 8)
    (hb : validBits q.1 q.2 = pre ++ b :: post)
    (h : s.dec.spells (putsBits qs ++ pre) s.dec.rootIdx = some (xs, cur)) (hend : s.dec.noChild b cur) :
    ∃ u, Issued s (.decInit :: (qs ++ [q]).map fun r => Instr.decPut r.1 r.2) u
      ∧ u.env.decOut.out = s.env.decOut.out ++ xs ∧ u.dec.state = .fail ∧ u.dec.cause = .malformed
      ∧ u.dec.errNode = cur ∧ u.dec.errBit = b
      ∧ u.env.rsps.getLast? = some ⟨.malformed, decErrinfo cur b false⟩ := by
  obtain ⟨ys, c, zs, hy, hz, rfl⟩ := Dec.spells_append_inv h
  have hnq : q.2.toNat ≤ 8 := hn q (by simp)
  have hcur : (s.decoding qs ys c).dec.spells pre (s.decoding qs ys c).dec.walkStart = some (zs, cur) := by
    rw [← hz]
    exact Dec.spells_congr (d := s.dec) (d' := (s.decoding qs ys c).dec) rfl rfl pre c
  have hlast := decPut_malformed (s := s.decoding qs ys c) hnq rfl hp hb hcur
    (Sink.neverFails_accepts (Sink.neverFails_acceptedAll hk ys) _) hend
  have hissued := decPuts_run qs s.decStarted.startWalk hs hk rfl hp (fun r hr => hn r (by simp [hr]))
    (by rw [startWalk_spells, startWalk_cur (s := s.decStarted) hp, decStarted_spells]; exact hy) _ _
    (.cons (decPut_decodes hnq) hs hlast (.nil _))
  rw [← List.map_singleton (f := fun r : Byte × BitVec 4 => Instr.decPut r.1 r.2), ← List.map_append] at hissued
  exact ⟨_, .decInit hs (.of_startWalk (by simp) hs rfl hn hissued), List.append_assoc .., rfl, rfl, rfl, rfl,
    List.getLast?_concat⟩

/-! ## Round trip (R182) -/

theorem Agrees.code_ne_nil {x : Byte} (h : Agrees s x) : s.enc.code x ≠ [] := h.2.1

theorem Agrees.present {x : Byte} (h : Agrees s x) : s.dec.present = true := h.1

/-- Settles O55: the puts are the bits of the codes, which spell the symbols and come back to the root. -/
theorem roundTrip : Obligations.RoundTrip := by
  intro s xs hs hke hkd hag
  obtain ⟨t, ht⟩ := exists_encoded hs hke fun x hx => (hag x hx).code_ne_nil
  obtain ⟨qs, hputs, hlen, hn, hbits⟩ := putBytes_eq (pack (s.enc.bitsOf xs) s.glob.fill) t.enc.lastN
  rw [ht.lastN, pack_meaningful] at hbits
  have hpresent : qs ≠ [] → t.dec.present = true := by
    intro hne
    rw [ht.dec]
    cases xs with
    | nil => exact absurd (List.eq_nil_of_length_eq_zero (hlen.trans (pack_length [] _))) hne
    | cons x xs => exact (hag x List.mem_cons_self).present
  have hspells : t.dec.spells (putsBits qs) t.dec.rootIdx = some (xs, t.dec.rootIdx) := by
    rw [ht.dec, hbits]; exact spells_bitsOf hag
  obtain ⟨u, hu⟩ := exists_decoded ht.stalled (by rw [ht.decOut]; exact hkd) hpresent hn hspells
  refine ⟨t, u, _, ht.issued, ht.out, ?_, ?_, ht.allOk, ?_, hu.state, ?_, hu.syms, ?_⟩
  · rw [decRun, hputs]; exact hu.issued
  · rw [hu.out, ht.decOut]
  · rw [← hlen]; exact hu.allOk
  · rw [hu.trunc]; simp
  · rw [hu.bits, hbits]

/-! ## Whole bytes (R186) -/

/-- The DEC.PUTs of whole bytes. -/
def wholePuts (ps : List Byte) : List (Byte × BitVec 4) := ps.map fun p => (p, 8)

theorem wholePuts_instrs (ps : List Byte) :
    (wholePuts ps).map (fun q => Instr.decPut q.1 q.2) = ps.map fun p => Instr.decPut p 8 := by
  rw [wholePuts, List.map_map]; rfl

theorem putsBits_wholePuts (ps : List Byte) : putsBits (wholePuts ps) = ps.flatMap byteBits := by
  rw [putsBits, wholePuts, List.flatMap_map]; rfl

theorem wholePuts_legal (ps : List Byte) : ∀ q ∈ wholePuts ps, q.2.toNat ≤ 8 := by
  simp [wholePuts]

/-- A packing that does not end on a byte boundary: the whole bytes, and one byte with the bits behind them and the
filler. -/
theorem pack_last {bs : List Bool} (h : bs.length % 8 ≠ 0) (f : Bool) : ∃ ps p, pack bs f = ps ++ [p]
    ∧ ps.flatMap byteBits = bs.take (8 * (bs.length / 8))
    ∧ byteBits p = bs.drop (8 * (bs.length / 8)) ++ List.replicate ((8 - bs.length % 8) % 8) f := by
  have hwhole : (bs.take (8 * (bs.length / 8))).length = 8 * (bs.length / 8) := by
    rw [List.length_take]; omega
  have hrest : (bs.drop (8 * (bs.length / 8))).length = bs.length % 8 := by rw [List.length_drop]; omega
  have hbyte := pack_short (bs := bs.drop (8 * (bs.length / 8))) (List.ne_nil_of_length_pos (by omega)) (by omega) f
  refine ⟨_, _, (pack_split bs f).trans (congrArg _ hbyte), ?_, ?_⟩
  · have hfill : 8 * ((8 * (bs.length / 8) + 7) / 8) - 8 * (bs.length / 8) = 0 := by omega
    rw [pack_take, pack_bits, hwhole, hfill, List.replicate_zero, List.append_nil]
  · have hfill : 8 * ((bs.length % 8 + 7) / 8) - bs.length % 8 = (8 - bs.length % 8) % 8 := by omega
    have hbits := pack_bits (bs.drop (8 * (bs.length / 8))) f
    rwa [hbyte, List.flatMap_singleton, hrest, hfill] at hbits

/-- The compressed stream of the symbols `xs` (R181). -/
abbrev State.stream (s : State) (xs : List Byte) : List Byte := pack (s.enc.bitsOf xs) s.glob.fill

/-- The number of filler bits LASTN says the last byte has (R186). -/
abbrev State.fillers (t : State) : Nat := (8 - t.enc.lastN.toNat) % 8

section whole

variable {xs : List Byte} (ht : Encoded s xs t)
include ht

theorem Encoded.fillers_eq : t.fillers = (8 - (s.enc.bitsOf xs).length % 8) % 8 := by
  rw [State.fillers, ht.lastN]

/-- The bits of the stream: the codes, then the filler bits. -/
theorem Encoded.byteBits_stream :
    (s.stream xs).flatMap byteBits = s.enc.bitsOf xs ++ List.replicate t.fillers s.glob.fill := by
  rw [pack_bits, ht.fillers_eq]
  congr 2
  omega

variable (hkd : s.env.decOut.neverFails) (hp : s.dec.present = true) (hag : ∀ x ∈ xs, Agrees s x)
include hkd hp hag

/-- The decoder run on the whole bytes of the stream, when the filler bits spell `ys` from the root. -/
theorem Encoded.wholeBytes_decoded {ys : List Byte} {cur : Idx}
    (hys : s.dec.spells (List.replicate t.fillers s.glob.fill) s.dec.rootIdx = some (ys, cur)) :
    ∃ u, Issued t (.decInit :: (s.stream xs).map (fun p => Instr.decPut p 8) ++ [.decEnd]) u
      ∧ AllOk t u ((s.stream xs).length + 2)
      ∧ u.env.decOut.out = s.env.decOut.out ++ xs ++ ys ∧ u.dec.trunc = decide (cur ≠ s.dec.rootIdx) := by
  have hspells : t.dec.spells (putsBits (wholePuts (s.stream xs))) t.dec.rootIdx = some (xs ++ ys, cur) := by
    rw [ht.dec, putsBits_wholePuts, ht.byteBits_stream]
    exact Dec.spells_append_root (spells_bitsOf hag) hys
  obtain ⟨u, hu⟩ := exists_decoded ht.stalled (by rw [ht.decOut]; exact hkd) (fun _ => by rw [ht.dec]; exact hp)
    (wholePuts_legal _) hspells
  refine ⟨u, ?_, ?_, ?_, ?_⟩
  · rw [← wholePuts_instrs]; exact hu.issued
  · have hok := hu.allOk
    rwa [wholePuts, List.length_map] at hok
  · rw [hu.out, ht.decOut, List.append_assoc]
  · rw [hu.trunc, ht.dec]

/-- The decoder run on the whole bytes of the stream, when the filler bits ask for a child that does not exist
after `j` of them. -/
theorem Encoded.wholeBytes_malformed {j : Nat} {i left right : Idx}
    (hf : s.dec.follow (List.replicate j s.glob.fill) s.dec.rootIdx = some i)
    (hi : s.dec.node i = some (.int left right)) (hnil : childOn s.glob.fill left right = Config.nil)
    (hj : j < t.fillers) :
    ∃ u, Issued t (.decInit :: (s.stream xs).map fun p => Instr.decPut p 8) u
      ∧ u.env.decOut.out = s.env.decOut.out ++ xs ∧ u.dec.state = .fail ∧ u.dec.cause = .malformed
      ∧ u.dec.errNode = i ∧ u.dec.errBit = s.glob.fill
      ∧ u.env.rsps.getLast? = some ⟨.malformed, BitVec.ofNat 32 (i.toNat + 512 * s.glob.fill.toNat)⟩ := by
  have hfillers := ht.fillers_eq
  obtain ⟨ps, p, hpack, hps, hbyte⟩ := pack_last (bs := s.enc.bitsOf xs) (by omega) s.glob.fill
  have hcut : t.fillers = j + ((t.fillers - j - 1) + 1) := by omega
  rw [← hfillers, hcut, List.replicate_add, List.replicate_succ, ← List.append_assoc] at hbyte
  have hspells : t.dec.spells (putsBits (wholePuts ps)
      ++ ((s.enc.bitsOf xs).drop (8 * ((s.enc.bitsOf xs).length / 8)) ++ List.replicate j s.glob.fill))
      t.dec.rootIdx = some (xs ++ [], i) := by
    rw [ht.dec, putsBits_wholePuts, hps, ← List.append_assoc, List.take_append_drop]
    exact Dec.spells_append_root (spells_bitsOf hag) (Dec.spells_inner hf hi)
  rw [List.append_nil] at hspells
  have hlegal : ∀ r ∈ wholePuts ps ++ [(p, 8)], r.2.toNat ≤ 8 := by
    have hall := wholePuts_legal (ps ++ [p])
    rwa [wholePuts, List.map_append] at hall
  obtain ⟨u, hissued, hout, hrest⟩ := decPuts_malformed ht.stalled (by rw [ht.decOut]; exact hkd)
    (by rw [ht.dec]; exact hp) hlegal (q := (p, 8)) hbyte hspells
    (by rw [ht.dec]; exact .inr ⟨left, right, hi, hnil⟩)
  rw [decErrinfo_eq_ofNat] at hrest
  refine ⟨u, ?_, by rw [hout, ht.decOut], hrest⟩
  rw [State.stream, hpack, ← wholePuts_instrs, wholePuts, List.map_append]
  exact hissued

end whole

/-- Settles O59: the codes bring the walk back to the root, from where the filler bits spell nothing, or copies of
one symbol and a part of a code, or are malformed. -/
theorem wholeByteDecoding : Obligations.WholeByteDecoding := by
  intro s xs hs hke hkd hp hag
  obtain ⟨t, ht⟩ := exists_encoded hs hke fun x hx => (hag x hx).code_ne_nil
  refine ⟨t, _, ht.issued, ht.out, fun hk => ?_, fun d j x hd hf hj => ?_,
    fun j i left right hf hi hnil => ⟨ht.wholeBytes_malformed hkd hp hag hf hi hnil, fun hk hkj => ?_⟩⟩
  · -- no filler bit
    obtain ⟨u, hissued, hok, hout, htrunc⟩ :=
      ht.wholeBytes_decoded hkd hp hag (ys := []) (by rw [State.fillers, hk]; rfl)
    exact ⟨u, hissued, hok, hout.trans (List.append_nil _), htrunc.trans (by simp)⟩
  · -- the filler bits reach a leaf every `d` bits, and the rest of them end inside the tree
    obtain ⟨c, hrest, hc⟩ := Dec.spells_filler_inner (r := t.fillers % d)
      (Nat.mod_lt _ hd).le hf (.inl ⟨x, hj⟩) fun h => absurd h (Nat.mod_lt _ hd).ne
    have hspells := Dec.spells_append_root (Dec.spells_filler_leaf hd hf hj (t.fillers / d)) hrest
    rw [← List.replicate_add, Nat.div_add_mod, List.append_nil] at hspells
    obtain ⟨u, hissued, hok, hout, htrunc⟩ := ht.wholeBytes_decoded hkd hp hag hspells
    exact ⟨u, hissued, hok, hout, htrunc.trans (decide_eq_decide.2 hc)⟩
  · -- the filler bits end before the child that does not exist
    obtain ⟨c, hspells, hc⟩ := Dec.spells_filler_inner hkj hf (.inr ⟨left, right, hi, hnil⟩)
      fun _ => ⟨left, right, hi⟩
    obtain ⟨u, hissued, hok, hout, htrunc⟩ := ht.wholeBytes_decoded hkd hp hag hspells
    exact ⟨u, hissued, hok, hout.trans (List.append_nil _),
      htrunc.trans (decide_eq_true (hc.2 (Nat.one_le_iff_ne_zero.1 hk)))⟩

end Sys2Proof.Machine
end

section
/-! Errors and refusals (spec/60_exceptions.md R200 to R214): the fatal errors of ENC.PUT and DEC.PUT with what the
command had done before them, how each command can end, and what stays after an error. -/

namespace Sys2Proof.Machine

/-! ## Fatal errors of ENC.PUT (R202, R205) -/

/-- ENC_ERRINFO as a number, for an error the unit detects itself (SRC 0, R25). -/
theorem encErrinfo_eq_ofNat (sym : Byte) : encErrinfo sym false = BitVec.ofNat 32 sym.toNat := by
  have hfields : (encErrinfo sym false).toNat = sym.toNat :=
    (toNat_two_fields (k := 23) (.ofBool false) sym).trans (by simp)
  rw [← hfields, BitVec.ofNat_toNat, BitVec.setWidth_eq]

/-- Settles O25: the fatal error is raised on the state the command found. -/
theorem encPutAbsentSymbol : Obligations.EncPutAbsentSymbol := by
  intro s sym ho hl
  refine ⟨_, exec_encPut_absent (isOpen_iff.2 ho) (Enc.len_eq_zero.1 hl), ?_, rfl, rfl, rfl⟩
  rw [← encErrinfo_eq_ofNat]
  exact respond_answersOnly _ .unencodable _

/-- ENC.PUT whose sink fails at byte `j`: the error is raised as that byte is offered, and the sink has given its
answer. -/
theorem exec_encPut_failed {s : State} {sym : Byte} {j : Nat} (ho : s.enc.state.isOpen = true)
    (hc : s.enc.code sym ≠ []) (hj : j < (s.enc.held ++ s.enc.code sym).length / 8)
    (ha : s.env.encOut.acceptsNext j) (hn : s.env.encOut.answerAt j = some .fail) :
    let u := beforeByte s.startPut (s.enc.code sym) j
    exec (.encPut sym) s
      = .next ({ u with env := { u.env with encOut := u.env.encOut.declined } }.raiseEnc .ioerr 0 false) := by
  obtain ⟨byte, h⟩ := exec_encPut_stop ho hc hj ha (by rw [hn]; exact nofun)
  have hs : (beforeByte s.startPut (s.enc.code sym) j).env.encOut.answer = some .fail :=
    (beforeByte_answer s.startPut _ hj).trans hn
  rw [h, offerEnc_fail hs, Flow.respondOk_ended]

/-- A sink that accepted `bs` and then failed has given the answers to `bs` and one more. -/
theorem Sink.acceptedAll_declined_script (k : Sink) (bs : List Byte) :
    (k.acceptedAll bs).declined.script = k.script.drop (bs.length + 1) :=
  List.tail_drop

/-- Settles O26: the state as byte `j` is offered, with the error raised on it. -/
theorem encPutSinkFailure : Obligations.EncPutSinkFailure := by
  intro s sym j ho B hc hj ha hn
  have hlen : ((pack B false).take j).length = j := by
    rw [List.length_take, pack_length]; omega
  refine ⟨_, exec_encPut_failed (isOpen_iff.2 ho) hc hj ha hn, rfl, ?_, rfl, rfl, rfl, rfl, rfl⟩
  exact (s.env.encOut.acceptedAll_declined_script ((pack B false).take j)).trans (by rw [hlen])

/-! ## Fatal errors of DEC.PUT (R203, R205) -/

/-- Settles O35: the bits before are walked, and the error is raised on the state they leave. -/
theorem decPutMalformed : Obligations.DecPutMalformed := by
  intro s byte n pre post b xs cur hn ho hp hb h hend ha
  refine ⟨_, decPut_malformed hn (isOpen_iff.2 ho) hp hb h ha hend, ?_, rfl, rfl, rfl⟩
  rw [← decErrinfo_eq_ofNat]
  rfl

/-- DEC.PUT whose sink fails at the symbol after `xs`: the error is raised with the bit counted and the cursor on
that leaf. -/
theorem exec_decPut_failed {s : State} {byte : Byte} {n : BitVec 4} {pre post : List Bool} {b : Bool}
    {xs : List Byte} {cur child : Idx} {sym : Byte} (hn : n.toNat ≤ 8) (ho : s.dec.state.isOpen = true)
    (hp : s.dec.present = true) (hb : validBits byte n = pre ++ b :: post)
    (h : s.dec.spells pre s.dec.walkStart = some (xs, cur)) (hf : s.dec.follow [b] cur = some child)
    (hl : s.dec.node child = some (.leaf sym)) (ha : s.env.decOut.acceptsNext xs.length)
    (hk : s.env.decOut.answerAt xs.length = some .fail) :
    let u := s.walked (pre.length + 1) xs child
    exec (.decPut byte n) s
      = .next ({ u with env := { u.env with decOut := u.env.decOut.declined } }.raiseDec .ioerr 0 false false) := by
  have hcount : (s.walked pre.length xs cur).dec.bits + 1 = s.dec.bits + BitVec.ofNat 32 (pre.length + 1) :=
    count_add s.dec.bits rfl
  rw [exec_decPut_until hn ho hp hb h ha,
    walkBit_failed (c := child) (sym := sym) (by rwa [walked_cur, walked_follow]) (by rwa [walked_node])
      (by rwa [walked_answer]), hcount, Flow.bind_ended, Flow.respondOk_ended]
  rfl

/-- Settles O36: the bits up to the failed leaf are walked, with the error raised on the state they leave. -/
theorem decPutSinkFailure : Obligations.DecPutSinkFailure := by
  intro s byte n pre post b xs cur child sym hn ho hp hb h hf hl ha hk
  exact ⟨_, exec_decPut_failed hn (isOpen_iff.2 ho) hp hb h hf hl ha hk, rfl,
    s.env.decOut.acceptedAll_declined_script xs, rfl, rfl, rfl, rfl, rfl⟩

/-! ## How a command ends (R200, R201) -/

/-- How the command `i`, executed in `s` with the next state `t`, has ended: refused, answered OK or with a fatal
error, or not yet answered. -/
inductive Ending (s : State) (i : Instr) (t : State) : Prop
  | refused {c : Code} (hc : c ∈ mayAnswer i) (ht : t = s.refuse c)
  | completed {c : Code} {d : Word} (hc : c ∈ mayAnswer i) (hn : c = .ok ∨ c.isFatal = true)
      (hr : t.env.rsps = s.env.rsps ++ [⟨c, d⟩])
  | stalled (hr : t.env.rsps = s.env.rsps)

/-- Every command can be answered OK. -/
theorem ok_mem_mayAnswer (i : Instr) : .ok ∈ mayAnswer i := by
  cases i with
  | wrreg r v => rw [mayAnswer]; split <;> exact List.mem_cons_self
  | _ => exact List.mem_cons_self

section ends

variable {s t : State} {i : Instr} {c : Code} {d : Word}

theorem Ending.ok (hr : t.env.rsps = s.env.rsps ++ [⟨.ok, d⟩]) : Ending s i t :=
  .completed (ok_mem_mayAnswer i) (.inl rfl) hr

theorem Ending.refuse (hc : c ∈ mayAnswer i := by simp [mayAnswer]) : Ending s i (s.refuse c) := .refused hc rfl

theorem Ending.fatal (c : Code) (hf : c.isFatal = true) (hr : t.env.rsps = s.env.rsps ++ [⟨c, d⟩])
    (hc : c ∈ mayAnswer i := by simp [mayAnswer]) : Ending s i t :=
  .completed hc (.inr hf) hr

/-- One response given is one response: its code and its data. -/
theorem response_unique {rs : List Response} {c c' : Code} {d d' : Word}
    (h : rs ++ [⟨c, d⟩] = rs ++ [⟨c', d'⟩]) : c = c' ∧ d = d' := by
  simpa using h

/-- A well-formed command ends in a way the rules allow it. -/
theorem exec_ending (hw : i.WellFormed) (h : exec i s = .next t) : Ending s i t := by
  cases i with
  | nop => rw [nop_form h]; exact .ok rfl
  | srst => rw [srst_form h]; exact .ok rfl
  | rdreg r =>
    rcases rdreg_forms h with ⟨reg, -, rfl⟩ | ⟨hr, -⟩
    · exact .ok rfl
    · exact absurd hr ((regOf_isSome_iff r).2 (wellFormed_rdreg.1 hw))
  | wrreg r v =>
    rcases wrreg_forms h with ⟨hill, -⟩ | ⟨-, -, rfl⟩ | ⟨rfl, -, -, ⟨-, rfl⟩ | ⟨-, rfl⟩⟩
    · exact absurd hw hill
    · exact .ok rfl
    · exact .refuse
    · exact .ok rfl
  | encInit => rw [encInit_form h]; exact .ok rfl
  | ctClr =>
    rcases ctClr_forms h with ⟨-, rfl⟩ | ⟨-, rfl⟩
    · exact .refuse
    · exact .ok rfl
  | ctOpen sym =>
    rcases ctOpen_forms h with ⟨-, rfl⟩ | ⟨-, rfl⟩
    · exact .refuse
    · exact .ok rfl
  | ctPush b =>
    rcases ctPush_forms h with ⟨-, rfl⟩ | ⟨-, -, ⟨-, rfl⟩ | ⟨-, rfl⟩⟩
    · exact .refuse
    · exact .refuse
    · exact .ok rfl
  | encPut sym =>
    rcases encPut_forms h with ⟨-, rfl⟩ | ⟨-, -, rfl⟩ | ⟨-, -, _, _, _, ⟨_, _, -, rfl⟩ | rfl | ⟨-, rfl⟩⟩
    · exact .refuse
    · exact .fatal .unencodable rfl rfl
    · exact .ok rfl
    · exact .fatal .ioerr rfl rfl
    · exact .stalled rfl
  | encEnd =>
    rcases encEnd_forms h with ⟨-, rfl⟩ | ⟨-, _, _, ⟨_, -, rfl⟩ | rfl | ⟨-, rfl⟩⟩
    · exact .refuse
    · exact .ok rfl
    · exact .fatal .ioerr rfl rfl
    · exact .stalled rfl
  | encAbort =>
    rcases encAbort_forms h with ⟨-, rfl⟩ | ⟨-, rfl⟩
    · exact .refuse
    · exact .ok rfl
  | decInit => rw [decInit_form h]; exact .ok rfl
  | tLeaf idx sym =>
    rcases tLeaf_forms h with ⟨rfl, -⟩ | ⟨-, ⟨-, rfl⟩ | ⟨-, rfl⟩⟩
    · exact absurd (wellFormed_tLeaf.1 hw) (by decide)
    · exact .refuse
    · exact .ok rfl
  | tInt idx l r =>
    rcases tInt_forms h with ⟨rfl, -⟩ | ⟨-, ⟨-, rfl⟩ | ⟨-, rfl⟩⟩
    · exact absurd (wellFormed_tInt.1 hw) (by decide)
    · exact .refuse
    · exact .ok rfl
  | decPut byte n =>
    rcases decPut_forms h with ⟨hn, -⟩ | ⟨-, -, rfl⟩
      | ⟨-, -, _, _, _, _, -, rfl | ⟨_, rfl⟩ | rfl | ⟨-, rfl⟩⟩
    · exact absurd (wellFormed_decPut.1 hw) (by omega)
    · exact .refuse
    · exact .ok rfl
    · exact .fatal .malformed rfl rfl
    · exact .fatal .ioerr rfl rfl
    · exact .stalled rfl
  | decEnd =>
    rcases decEnd_forms h with ⟨-, rfl⟩ | ⟨-, rfl⟩
    · exact .refuse
    · exact .ok rfl
  | decAbort =>
    rcases decAbort_forms h with ⟨-, rfl⟩ | ⟨-, rfl⟩
    · exact .refuse
    · exact .ok rfl

theorem Ending.code_mem (h : Ending s i t) (hr : t.env.rsps = s.env.rsps ++ [⟨c, d⟩]) : c ∈ mayAnswer i := by
  cases h with
  | refused hc ht =>
    subst ht
    rwa [← (response_unique hr).1]
  | completed hc _ hr' => rwa [← (response_unique (hr'.symm.trans hr)).1]
  | stalled hr' => simp [hr'] at hr

/-- A refusal found in the response is the refusal of the whole command. -/
theorem Ending.refusedWith (h : Ending s i t) (hr : t.env.rsps = s.env.rsps ++ [⟨c, d⟩])
    (hc : c = .illegal ∨ c = .seq ∨ c = .overflow) : d = 0 ∧ RefusedWith s t c := by
  cases h with
  | refused _ ht =>
    subst ht
    obtain ⟨rfl, rfl⟩ := response_unique hr
    exact ⟨rfl, refuse_refusedWith s _⟩
  | completed _ hn hr' =>
    obtain ⟨rfl, -⟩ := response_unique (hr'.symm.trans hr)
    rcases hc with rfl | rfl | rfl <;> simp [Code.isFatal] at hn
  | stalled hr' => simp [hr'] at hr

end ends

/-- Settles O48: every ending is one the rules allow. -/
theorem howEachCommandEnds : Obligations.HowEachCommandEnds :=
  ⟨fun _ _ _ _ _ hw h hr => (exec_ending hw h).code_mem hr, rfl, rfl, rfl, rfl, rfl, rfl, rfl,
    fun c => by cases c <;> rfl⟩

/-! ## Refusals (R206, R210) -/

/-- A step leaves GSTAT.REFUSED set, or leaves the block in its reset state. -/
theorem step_refused_or_reset {s t : State} (h : step s = .next t) (hr : s.glob.refused = true) :
    t.glob.refused = true ∨ t.glob = Global.reset ∧ t.enc = Enc.reset ∧ t.dec = Dec.reset := by
  rcases step_cases s with hx | ⟨w, rest, -, -, ⟨i, -, hx⟩ | ⟨why, -, hx⟩⟩ | ⟨rest, -, hx⟩ | ⟨w, n, rest, -, -, hx⟩
    <;> rw [hx] at h
  · cases h; exact .inl hr
  · by_cases hi : i = .srst
    · subst hi
      rw [srst_form h]
      exact .inr ⟨rfl, rfl, rfl⟩
    · exact .inl (srstResetsBlock.2 i (s.withPort rest) t h hi hr)
  · cases h; exact .inl rfl
  · cases h; exact .inr ⟨rfl, rfl, rfl⟩
  · rcases abandon_cases w n (s.withPort rest) with ⟨r, ha⟩ | ⟨r, ha⟩ | ⟨u, ha, hg, he, hd, -⟩
      <;> rw [ha] at h <;> cases h
    exact .inr ⟨hg, he, hd⟩

/-- Settles O47: the refusal of a word, or of its command. -/
theorem refusalChangesNothingElse : Obligations.RefusalChangesNothingElse := by
  refine ⟨fun s t w rest c d hp hs h hr hc => ?_, fun s t h hr => step_refused_or_reset h hr⟩
  cases hd : decode w with
  | illegal why =>
    rw [step_illegal hp hs hd] at h
    cases h
    obtain ⟨rfl, rfl⟩ := response_unique hr
    exact ⟨rfl, refuse_refusedWith (s.withPort rest) .illegal⟩
  | instr i =>
    rw [step_cmd hp hs hd] at h
    exact (exec_ending (spelled_of_decode hd).1 h).refusedWith (s := s.withPort rest) hr hc

/-- Settles O49: the decoder's check, then the state check, whatever the later checks would find. -/
theorem orderOfChecks : Obligations.OrderOfChecks := by
  refine ⟨fun s w rest why hp hs hd => ?_, fun s sym _ ho => ?_, fun s b _ h => ?_⟩
  · exact ⟨_, step_illegal hp hs hd, refuse_refusedWith _ .illegal⟩
  · exact ⟨_, exec_encPut_closed (isOpen_false_iff.2 ho), refuse_refusedWith s .seq⟩
  · exact ⟨_, exec_ctPush_closed h b, refuse_refusedWith s .seq⟩

/-! ## The first fatal error stands (R204, R213) -/

section standing

variable {s t : State} {i : Instr}

/-- Of the commands that write the status of ENC, FAIL refuses all but ENC.INIT and SRST. -/
theorem encStatus_of_fail (h : exec i s = .next t) (hs : i ≠ .srst) (hi : i ≠ .encInit)
    (hf : s.enc.state = .fail) : t.enc.state = s.enc.state ∧ t.enc.cause = s.enc.cause
      ∧ t.enc.errSym = s.enc.errSym ∧ t.enc.errSrc = s.enc.errSrc := by
  have ho : s.enc.state.isOpen = false := isOpen_false_iff.2 (.inr hf)
  cases i with
  | encPut sym => rw [exec_encPut_closed ho] at h; cases h; exact ⟨rfl, rfl, rfl, rfl⟩
  | encEnd => rw [exec_encEnd_closed ho] at h; cases h; exact ⟨rfl, rfl, rfl, rfl⟩
  | encAbort => rw [exec_encAbort_closed ho] at h; cases h; exact ⟨rfl, rfl, rfl, rfl⟩
  | _ => exact (exec_effect h).encStatus_eq hs hi nofun nofun nofun

/-- Of the commands that write the status of DEC, FAIL refuses all but DEC.INIT and SRST. -/
theorem decStatus_of_fail (h : exec i s = .next t) (hs : i ≠ .srst) (hi : i ≠ .decInit)
    (hf : s.dec.state = .fail) : t.dec.state = s.dec.state ∧ t.dec.cause = s.dec.cause
      ∧ t.dec.errNode = s.dec.errNode ∧ t.dec.errBit = s.dec.errBit ∧ t.dec.errSrc = s.dec.errSrc := by
  have ho : s.dec.state.isOpen = false := isOpen_false_iff.2 (.inr hf)
  cases i with
  | decPut byte n =>
    rcases decPut_forms h with ⟨-, rfl⟩ | ⟨-, -, rfl⟩ | ⟨-, hopen, -⟩
    · exact ⟨rfl, rfl, rfl, rfl, rfl⟩
    · exact ⟨rfl, rfl, rfl, rfl, rfl⟩
    · rw [ho] at hopen; cases hopen
  | decEnd => rw [exec_decEnd_closed ho] at h; cases h; exact ⟨rfl, rfl, rfl, rfl, rfl⟩
  | decAbort => rw [exec_decAbort_closed ho] at h; cases h; exact ⟨rfl, rfl, rfl, rfl, rfl⟩
  | _ =>
    obtain ⟨hcause, hnode, hbit, hsrc, hstate⟩ := (exec_effect h).decStatus_eq hs hi nofun nofun
    exact ⟨hstate nofun, hcause, hnode, hbit, hsrc⟩

end standing

/-- Settles O46, for each unit. -/
theorem firstFatalErrorStands : Obligations.FirstFatalErrorStands := by
  refine fun i s t h hs => ⟨fun hf hi => ?_, fun hf hi => ?_⟩
  · rw [← hf]; exact encStatus_of_fail h hs hi hf
  · rw [← hf]; exact decStatus_of_fail h hs hi hf

/-! ## The line irq (R214) -/

theorem irq_iff (s : State) : s.irq = true ↔
    (s.glob.eie = true ∧ s.enc.state = .fail) ∨ (s.glob.die = true ∧ s.dec.state = .fail) := by
  simp [State.irq]

/-- GSTAT.IRQ is bit 1 (R22). -/
theorem regValue_gstat_irq (s : State) : (s.regValue .gstat).getLsbD 1 = s.irq := by
  have hbit : ∀ irq refused : Bool, (0#30 ++ BitVec.ofBool irq ++ BitVec.ofBool refused).getLsbD 1 = irq := by
    decide
  exact hbit s.irq s.glob.refused

/-- Settles O50: the level, its bit in GSTAT, and the four commands that lower it. -/
theorem irqLevel : Obligations.IrqLevel := by
  refine fun s => ⟨irq_iff s, regValue_gstat_irq s, fun t h => ?_, fun t h => ?_, fun t h => ?_, fun t h => ?_⟩
  · rw [encInit_form h, irq_iff]; simp
  · rw [decInit_form h, irq_iff]; simp
  · rw [srst_form h]; rfl
  · rw [exec_wrreg_ctrl (by decide) s] at h
    cases h
    rfl

end Sys2Proof.Machine
end

section
/-! A written tree never faults the model (spec/70_reset_and_hazards.md R246, spec/20_memory.md R67): the walk
stays on entries reachable from the root, and no other command changes the tree or the cursor of a run. -/

namespace Sys2Proof.Machine

/-! ## The cursor on a written tree -/

/-- Every entry the walk can reach from the root is written, and the cursor stands on one of them. -/
structure Dec.OnWrittenTree (d : Dec) : Prop where
  written : ∀ bits j, d.follow bits d.rootIdx = some j → d.node j ≠ none
  cursor : ∃ bits, d.follow bits d.rootIdx = some d.cur

section

variable {d d' : Dec}

theorem Dec.OnWrittenTree.treeWritten (h : d.OnWrittenTree) : d.treeWritten := fun _ => h.written

theorem Dec.OnWrittenTree.cursorOnTree (h : d.OnWrittenTree) : d.cursorOnTree := fun _ _ => h.cursor

/-- Another cursor on the same tree. -/
theorem Dec.onWrittenTree_of_sameTree (hw : ∀ bits j, d.follow bits d.rootIdx = some j → d.node j ≠ none)
    (htm : d'.tm = d.tm) (hroot : d'.rootIdx = d.rootIdx)
    (hcur : ∃ bits, d.follow bits d.rootIdx = some d'.cur) : d'.OnWrittenTree := by
  refine ⟨fun bits j hj => ?_, ?_⟩
  · rw [Dec.follow_congr htm, hroot] at hj
    rw [Dec.node_congr htm]
    exact hw bits j hj
  · simpa only [Dec.follow_congr htm, hroot] using hcur

/-- A change of neither the tree nor the cursor. -/
theorem Dec.OnWrittenTree.congr (h : d.OnWrittenTree) (htm : d'.tm = d.tm) (hroot : d'.rootIdx = d.rootIdx)
    (hcur : d'.cur = d.cur) : d'.OnWrittenTree :=
  onWrittenTree_of_sameTree h.written htm hroot (by rw [hcur]; exact h.cursor)

theorem Dec.OnWrittenTree.node_cur (h : d.OnWrittenTree) : d.node d.cur ≠ none := by
  obtain ⟨bits, hb⟩ := h.cursor
  exact h.written bits d.cur hb

/-- A child of the cursor is reachable from the root too. -/
theorem Dec.OnWrittenTree.reaches_child (h : d.OnWrittenTree) {b : Bool} {c : Idx}
    (hc : d.follow [b] d.cur = some c) : ∃ bits, d.follow bits d.rootIdx = some c := by
  obtain ⟨bits, hb⟩ := h.cursor
  exact ⟨bits ++ [b], by rw [Dec.follow_append, hb, Option.bind_some, hc]⟩

end

/-! ## The walk of a DEC.PUT -/

/-- The flow does not fault, and `P` holds of the state it goes on from or ended in. -/
def Flow.Keeps (P : State → Prop) : Flow → Prop
  | .go t => P t
  | .ended t => P t
  | .fault _ => False

theorem Flow.Keeps.bind {P : State → Prop} {x : Flow} {f : State → Flow} (h : x.Keeps P)
    (hf : ∀ t, P t → (f t).Keeps P) : (x.bind f).Keeps P := by
  cases x with
  | go t => exact hf t h
  | ended t => exact h
  | fault r => exact h.elim

theorem Flow.Keeps.each {α : Type} {P : State → Prop} {f : α → State → Flow}
    (hf : ∀ x s, P s → (f x s).Keeps P) (xs : List α) (s : State) (h : P s) :
    (Flow.each f xs s).Keeps P := by
  induction xs generalizing s with
  | nil => exact h
  | cons x xs ih => exact (hf x s h).bind ih

theorem Flow.Keeps.respondOk {P : State → Prop} {x : Flow} (h : x.Keeps P)
    (hr : ∀ t, P t → P (t.respond .ok 0)) : ∃ t, x.respondOk = .next t ∧ P t := by
  cases x with
  | go t => exact ⟨_, rfl, hr t h⟩
  | ended t => exact ⟨t, rfl, h⟩
  | fault r => exact h.elim

/-- The invariant of a run on a tree. -/
abbrev OnTree (s : State) : Prop := s.dec.OnWrittenTree

/-- An offered symbol leaves the tree and the cursor as they are. -/
theorem offerDec_keeps_onTree (sym : Byte) {s : State} (h : OnTree s) : (offerDec sym s).Keeps OnTree := by
  rcases offerDec_cases sym s with ⟨-, ho⟩ | ⟨-, ho⟩ | ⟨-, ho⟩ <;> rw [ho] <;> exact h.congr rfl rfl rfl

/-- One bit of the walk reads written entries only and leaves the cursor on the tree. -/
theorem walkBit_keeps_onTree (b : Bool) (s : State) (h : OnTree s) : (walkBit b s).Keeps OnTree := by
  rcases walkBit_cases b s with hn | hn | ⟨c, hc, -⟩
  · exact absurd hn h.node_cur
  · rw [walkBit_noChild hn]
    exact h.congr rfl rfl rfl
  · have hmoved : OnTree { s with dec := { s.dec with bits := s.dec.bits + 1, cur := c } } :=
      Dec.onWrittenTree_of_sameTree h.written rfl rfl (h.reaches_child hc)
    cases hn : s.dec.node c with
    | none => exact absurd hn hmoved.node_cur
    | some n =>
      cases n with
      | int l r =>
        rw [walkBit_inner hc hn]
        exact hmoved
      | leaf sym =>
        rw [walkBit_leaf hc hn]
        exact (offerDec_keeps_onTree sym hmoved).bind fun t ht =>
          Dec.onWrittenTree_of_sameTree ht.written rfl rfl ⟨[], rfl⟩

/-- A DEC.PUT that is accepted while a tree is present starts to walk on the tree. -/
theorem startWalk_onTree {s : State} (ho : s.dec.state.isOpen = true) (hp : s.dec.present = true)
    (hw : s.dec.treeWritten) (hc : s.dec.cursorOnTree) : OnTree s.startWalk := by
  have hcur : ∃ bits, s.dec.follow bits s.dec.rootIdx = some s.startWalk.dec.cur := by
    rw [startWalk_cur hp, Dec.walkStart]
    split
    · exact ⟨[], rfl⟩
    · next hi => exact hc ((isOpen_iff.1 ho).resolve_left hi) hp
  exact Dec.onWrittenTree_of_sameTree (hw hp) (by rw [startWalk_dec ho]) (by rw [startWalk_dec ho]) hcur

/-! ## The commands -/

/-- A tree that is absent has no entry to reach. -/
theorem Dec.treeWritten_and_cursorOnTree_of_absent {d : Dec} (hp : d.present = false) :
    d.treeWritten ∧ d.cursorOnTree :=
  ⟨fun h => by simp [hp] at h, fun _ h => by simp [hp] at h⟩

theorem decPut_keeps_writtenTree (byte : Byte) (n : BitVec 4) {s : State} (hw : s.dec.treeWritten)
    (hc : s.dec.cursorOnTree) :
    ∃ t, exec (.decPut byte n) s = .next t ∧ t.dec.treeWritten ∧ t.dec.cursorOnTree := by
  by_cases hn : n.toNat ≤ 8
  · cases ho : s.dec.state.isOpen
    · exact ⟨_, exec_decPut_closed hn ho, hw, hc⟩
    · cases hp : s.dec.present
      · exact ⟨_, exec_decPut_absent hn ho hp, Dec.treeWritten_and_cursorOnTree_of_absent hp⟩
      · obtain ⟨t, ht, hot⟩ := (Flow.Keeps.each walkBit_keeps_onTree (validBits byte n) s.startWalk
          (startWalk_onTree ho hp hw hc)).respondOk fun _ h => h
        exact ⟨t, by rw [exec_decPut_run hn ho, hp, if_pos rfl, ht], hot.treeWritten, hot.cursorOnTree⟩
  · exact ⟨_, exec_decPut_illFormed (by omega) s, hw, hc⟩

/-- A command other than DEC.PUT that leaves DEC in RUN has left DEC as it was. -/
theorem Effect.dec_eq_of_run {s t : State} {i : Instr} (h : Effect s i t) (hput : ∀ x n, i ≠ .decPut x n)
    (hr : t.dec.state = .run) : t.dec = s.dec := by
  cases h with
  | srst | decInit | decEnd | decAbort => cases hr
  | troot _ hi | tLeaf _ _ hi | tInt _ _ _ hi => cases hi.symm.trans hr
  | decPut x n => exact absurd rfl (hput x n)
  | _ => rfl

/-- Settles O53: a DEC.PUT walks on the tree, and every other command leaves the decoder of a run alone. -/
theorem writtenTreeNeverFaults : Obligations.WrittenTreeNeverFaults := by
  intro i s hw hc
  by_cases hi : ∃ byte n, i = .decPut byte n
  · obtain ⟨byte, n, rfl⟩ := hi
    obtain ⟨t, ht, hkeep⟩ := decPut_keeps_writtenTree byte n hw hc
    rw [ht]
    exact ⟨nofun, fun u hu _ => by cases hu; exact hkeep⟩
  · push Not at hi
    obtain ⟨t, ht⟩ := exec_next_of_ne_decPut hi s
    rw [ht]
    refine ⟨nofun, fun u hu hr => ?_⟩
    cases hu
    rw [(exec_effect ht).dec_eq_of_run hi hr]
    exact ⟨hw, hc⟩

end Sys2Proof.Machine
end

section
/-! The two ways into the reset state: power-on and the input `rst` between commands (spec/10_state.md R43,
spec/70_reset_and_hazards.md R240, R241). -/

namespace Sys2Proof.Machine

/-- Settles O10: the hardware reset is the whole reset state, the environment kept but for the stall. -/
theorem hardwareReset : Obligations.HardwareReset := fun s rest hp =>
  ⟨(s.withPort rest).hardReset, step_rst hp, rfl, rfl, rfl, rfl⟩

/-- Every register but ID reads 0 after reset (R43). -/
theorem regValue_reset {reg : Reg} (h : reg ≠ .id) : State.reset.regValue reg = 0 := by
  cases reg with
  | id => exact absurd rfl h
  | _ => rfl

/-- Settles O12: the registers, both tables, irq and the environment at power-on, and the waiting step. -/
theorem resetState : Obligations.ResetState :=
  ⟨fun _ => regValue_reset, rfl, fun _ => rfl, fun _ => rfl, rfl, rfl, rfl, rfl,
    (waitsWithoutCommand State.reset).1 rfl⟩

end Sys2Proof.Machine
end

section
/-! The input `rst` during a command (spec/70_reset_and_hazards.md R240, 93 V8): the command run against sinks
that fall silent after `n` more answers goes side by side with the command itself until a sink is silent, and
what that sink has accepted by then are the first bytes of those it would have accepted. -/

namespace Sys2Proof.Machine

/-! ## A sink that is cut off -/

section sinks

variable {out₀ : List Byte} {n : Nat} {k k' : Sink}

@[simp] theorem Sink.cutAfter_out (k : Sink) (n : Nat) : (k.cutAfter n).out = k.out := by
  unfold Sink.cutAfter; split <;> rfl

theorem Sink.cutAfter_zero_answer (k : Sink) : (k.cutAfter 0).answer = none := by
  unfold Sink.cutAfter
  split
  · simp [Sink.answer]
  · next h => simp [Sink.answer, h]

theorem Sink.cutAfter_succ_answer (k : Sink) (m : Nat) : (k.cutAfter (m + 1)).answer = k.answer := by
  obtain ⟨out, script, rest⟩ := k
  cases rest <;> cases script <;> simp [Sink.cutAfter, Sink.answer, List.replicate_succ]

theorem Sink.cutAfter_succ_accepted (k : Sink) (m : Nat) (b : Byte) :
    (k.cutAfter (m + 1)).accepted b = (k.accepted b).cutAfter m := by
  obtain ⟨out, script, rest⟩ := k
  cases rest <;> cases script <;> simp [Sink.cutAfter, Sink.accepted, List.replicate_succ]

/-- The sink `k'` is `k` cut off so that it accepts `n` bytes after `out₀` and no more. -/
def Sink.CutTo (out₀ : List Byte) (n : Nat) (k k' : Sink) : Prop :=
  ∃ xs m, k.out = out₀ ++ xs ∧ xs.length + m = n ∧ k' = k.cutAfter m

theorem Sink.cutTo_cutAfter (k : Sink) (n : Nat) : Sink.CutTo k.out n k (k.cutAfter n) :=
  ⟨[], n, by simp, by simp, rfl⟩

theorem Sink.CutTo.out (h : Sink.CutTo out₀ n k k') :
    ∃ xs, k.out = out₀ ++ xs ∧ k'.out = out₀ ++ xs ∧ xs.length ≤ n := by
  obtain ⟨xs, m, hk, hn, rfl⟩ := h
  exact ⟨xs, hk, by rw [Sink.cutAfter_out, hk], by omega⟩

/-- The sink that is cut off answers as the other does, or it has accepted its `n` bytes and is silent. -/
theorem Sink.CutTo.answer (h : Sink.CutTo out₀ n k k') :
    (k'.answer = k.answer ∧ ∀ b, Sink.CutTo out₀ n (k.accepted b) (k'.accepted b))
      ∨ (k'.answer = none ∧ ∃ xs, k.out = out₀ ++ xs ∧ k'.out = out₀ ++ xs ∧ xs.length = n) := by
  obtain ⟨xs, m, hk, hn, rfl⟩ := h
  cases m with
  | zero => exact .inr ⟨k.cutAfter_zero_answer, xs, hk, by rw [Sink.cutAfter_out, hk], hn⟩
  | succ m =>
    refine .inl ⟨k.cutAfter_succ_answer m, fun b => ⟨xs ++ [b], m, ?_, ?_, k.cutAfter_succ_accepted m b⟩⟩
    · rw [Sink.accepted_out, hk, List.append_assoc]
    · rw [List.length_append, List.length_singleton]; omega

end sinks

/-! ## Flows against a sink that is cut off -/

section flows

variable {sink : State → Sink} {R : State → State → Prop} {out₀ : List Byte} {n : Nat} {x y : Flow}

/-- The bytes `out` are the first that the sink has accepted, whether the flow goes on or has ended. -/
abbrev Flow.Extends (sink : State → Sink) (out : List Byte) (x : Flow) : Prop :=
  x.Leaves (fun t => out <+: (sink t).out) fun t => out <+: (sink t).out

/-- The flow `y` is the flow `x` run against the sink that is cut off: they go on in states related by `R`,
they end with the same bytes accepted, or `y` ends when its sink has fallen silent. -/
inductive Flow.CutOf (sink : State → Sink) (R : State → State → Prop) (out₀ : List Byte) (n : Nat) :
    Flow → Flow → Prop
  | go {s t : State} (hr : R s t) (hk : Sink.CutTo out₀ n (sink s) (sink t)) : CutOf sink R out₀ n (.go s) (.go t)
  | ended {s t : State} {xs : List Byte} (hs : (sink s).out = out₀ ++ xs) (ht : (sink t).out = out₀ ++ xs)
      (hn : xs.length ≤ n) : CutOf sink R out₀ n (.ended s) (.ended t)
  | silent {x : Flow} {t : State} {xs : List Byte} (hx : x.Extends sink (out₀ ++ xs))
      (ht : (sink t).out = out₀ ++ xs) (hn : xs.length = n) : CutOf sink R out₀ n x (.ended t)
  | fault {r : Fault} : CutOf sink R out₀ n (.fault r) (.fault r)

theorem Flow.CutOf.bind {f : State → Flow} (h : Flow.CutOf sink R out₀ n x y)
    (hf : ∀ s t, R s t → Sink.CutTo out₀ n (sink s) (sink t) → Flow.CutOf sink R out₀ n (f s) (f t))
    (hx : ∀ out s, out <+: (sink s).out → (f s).Extends sink out) :
    Flow.CutOf sink R out₀ n (x.bind f) (y.bind f) := by
  cases h with
  | go hr hk => exact hf _ _ hr hk
  | ended hs ht hn => exact .ended hs ht hn
  | silent hout ht hn => exact .silent (hout.bind fun s hs => hx _ s hs) ht hn
  | fault => exact .fault

theorem Flow.CutOf.each {α : Type} {f : α → State → Flow}
    (hf : ∀ a s t, R s t → Sink.CutTo out₀ n (sink s) (sink t) → Flow.CutOf sink R out₀ n (f a s) (f a t))
    (hx : ∀ a out s, out <+: (sink s).out → (f a s).Extends sink out) (as : List α) (s t : State) (hr : R s t)
    (hk : Sink.CutTo out₀ n (sink s) (sink t)) :
    Flow.CutOf sink R out₀ n (Flow.each f as s) (Flow.each f as t) := by
  induction as generalizing s t with
  | nil => exact .go hr hk
  | cons a as ih =>
    exact (hf a s t hr hk).bind ih fun out u hu => Flow.Leaves.each (fun b v hv => hx b out v hv) as u hu

end flows

/-! ## The commands of ENC -/

section enc

variable {out₀ : List Byte} {n : Nat} {s t : State}

/-- The sink of ENC, ENC_OUT. -/
def encSink (s : State) : Sink := s.env.encOut

/-- The two states agree on what ENC sees beside its sink. -/
structure EncSame (s t : State) : Prop where
  enc : t.enc = s.enc
  fill : t.glob.fill = s.glob.fill

theorem offerEnc_extends (b : Byte) {out : List Byte} (h : out <+: s.env.encOut.out) :
    (offerEnc b s).Extends encSink out := by
  rcases offerEnc_cases b s with ⟨-, ho⟩ | ⟨-, ho⟩ | ⟨-, ho⟩ <;> rw [ho]
  · exact h.trans (List.prefix_append _ _)
  · exact h
  · exact h

theorem offerEnc_cutOf (b : Byte) (h : EncSame s t) (hk : Sink.CutTo out₀ n s.env.encOut t.env.encOut) :
    Flow.CutOf encSink EncSame out₀ n (offerEnc b s) (offerEnc b t) := by
  rcases hk.answer with ⟨ha, hacc⟩ | ⟨ha, xs, hs, ht, hn⟩
  · obtain ⟨xs, hs, ht, hn⟩ := hk.out
    rcases offerEnc_cases b s with ⟨has, ho⟩ | ⟨has, ho⟩ | ⟨has, ho⟩ <;> rw [ho]
    · rw [offerEnc_ok (ha.trans has)]
      exact .go ⟨by rw [h.enc], h.fill⟩ (hacc b)
    · rw [offerEnc_fail (ha.trans has)]
      exact .ended hs ht hn
    · rw [offerEnc_silent (ha.trans has)]
      exact .ended hs ht hn
  · rw [offerEnc_silent ha]
    exact .silent (offerEnc_extends b (by rw [hs])) ht hn

theorem putBit_extends (b : Bool) (out : List Byte) (s : State) (h : out <+: s.env.encOut.out) :
    (putBit b s).Extends encSink out := by
  by_cases h7 : s.enc.accN = 7#3
  · rw [putBit_full h7]; exact offerEnc_extends _ h
  · rw [putBit_partial h7]; exact h

theorem putBit_cutOf (b : Bool) (s t : State) (h : EncSame s t)
    (hk : Sink.CutTo out₀ n s.env.encOut t.env.encOut) :
    Flow.CutOf encSink EncSame out₀ n (putBit b s) (putBit b t) := by
  by_cases h7 : s.enc.accN = 7#3
  · rw [putBit_full h7, putBit_full (s := t) (by rwa [h.enc]), h.enc]
    exact offerEnc_cutOf _ ⟨rfl, h.fill⟩ hk
  · rw [putBit_partial h7, putBit_partial (s := t) (by rwa [h.enc]), h.enc]
    exact .go ⟨rfl, h.fill⟩ hk

theorem flushAcc_cutOf (h : EncSame s t) (hk : Sink.CutTo out₀ n s.env.encOut t.env.encOut) :
    Flow.CutOf encSink EncSame out₀ n (flushAcc s) (flushAcc t) := by
  simp only [flushAcc, h.enc, h.fill]
  split
  · exact .go h hk
  · exact offerEnc_cutOf _ ⟨rfl, h.fill⟩ hk

theorem EncSame.finishEnd (h : EncSame s t) : EncSame s.finishEnd t.finishEnd :=
  ⟨congrArg (fun e : Enc => { e with state := .done }) h.enc, h.fill⟩

end enc

/-! ## The commands of DEC -/

section dec

variable {out₀ : List Byte} {n : Nat} {s t : State}

/-- The sink of DEC, DEC_OUT. -/
def decSink (s : State) : Sink := s.env.decOut

/-- The two states agree on what DEC sees beside its sink. -/
abbrev DecSame (s t : State) : Prop := t.dec = s.dec

theorem offerDec_extends (sym : Byte) {out : List Byte} (h : out <+: s.env.decOut.out) :
    (offerDec sym s).Extends decSink out := by
  rcases offerDec_cases sym s with ⟨-, ho⟩ | ⟨-, ho⟩ | ⟨-, ho⟩ <;> rw [ho]
  · exact h.trans (List.prefix_append _ _)
  · exact h
  · exact h

theorem offerDec_cutOf (sym : Byte) (h : DecSame s t) (hk : Sink.CutTo out₀ n s.env.decOut t.env.decOut) :
    Flow.CutOf decSink DecSame out₀ n (offerDec sym s) (offerDec sym t) := by
  rcases hk.answer with ⟨ha, hacc⟩ | ⟨ha, xs, hs, ht, hn⟩
  · obtain ⟨xs, hs, ht, hn⟩ := hk.out
    rcases offerDec_cases sym s with ⟨has, ho⟩ | ⟨has, ho⟩ | ⟨has, ho⟩ <;> rw [ho]
    · rw [offerDec_ok (ha.trans has)]
      exact .go (by rw [DecSame, h]) (hacc sym)
    · rw [offerDec_fail (ha.trans has)]
      exact .ended hs ht hn
    · rw [offerDec_silent (ha.trans has)]
      exact .ended hs ht hn
  · rw [offerDec_silent ha]
    exact .silent (offerDec_extends sym (by rw [hs])) ht hn

theorem arrive_extends (c : Idx) {out : List Byte} (h : out <+: s.env.decOut.out) :
    (arrive c s).Extends decSink out := by
  cases hn : s.dec.node c with
  | none => rw [arrive_unwritten hn]; trivial
  | some nd =>
    cases nd with
    | int l r => rw [arrive_int hn]; exact h
    | leaf sym => rw [arrive_leaf hn]; exact (offerDec_extends sym h).bind fun _ ht => ht

theorem arrive_cutOf (c : Idx) (h : DecSame s t) (hk : Sink.CutTo out₀ n s.env.decOut t.env.decOut) :
    Flow.CutOf decSink DecSame out₀ n (arrive c s) (arrive c t) := by
  have hnode : t.dec.node c = s.dec.node c := by rw [h]
  cases hn : s.dec.node c with
  | none => rw [arrive_unwritten hn, arrive_unwritten (hnode.trans hn)]; exact .fault
  | some nd =>
    cases nd with
    | int l r => rw [arrive_int hn, arrive_int (hnode.trans hn)]; exact .go h hk
    | leaf sym =>
      rw [arrive_leaf hn, arrive_leaf (hnode.trans hn)]
      exact (offerDec_cutOf sym h hk).bind (fun u v hr hc => .go (by rw [DecSame, hr]) hc) fun _ _ hu => hu

theorem walkBit_extends (b : Bool) (out : List Byte) (s : State) (h : out <+: s.env.decOut.out) :
    (walkBit b s).Extends decSink out := by
  rcases walkBit_cases b s with hn | hn | ⟨c, hc, -⟩
  · rw [walkBit_unwritten hn]; trivial
  · rw [walkBit_noChild hn]; exact h
  · rw [walkBit_child hc]; exact arrive_extends c h

theorem walkBit_cutOf (b : Bool) (s t : State) (h : DecSame s t)
    (hk : Sink.CutTo out₀ n s.env.decOut t.env.decOut) :
    Flow.CutOf decSink DecSame out₀ n (walkBit b s) (walkBit b t) := by
  rcases walkBit_cases b s with hn | hn | ⟨c, hc, -⟩
  · rw [walkBit_unwritten hn, walkBit_unwritten (s := t) (by rwa [h]), h]
    exact .fault
  · rw [walkBit_noChild hn, walkBit_noChild (s := t) (by rwa [h])]
    obtain ⟨xs, hs, ht, hl⟩ := hk.out
    exact .ended hs ht hl
  · rw [walkBit_child hc, walkBit_child (s := t) (c := c) (by rwa [h]), h]
    exact arrive_cutOf c rfl hk

end dec

/-! ## Commands against sinks that are cut off -/

/-- The state as `abandon` runs the command word: both sinks fall silent after `n` more answers. -/
def State.cutSinks (s : State) (n : Nat) : State :=
  { s with env := { s.env with encOut := s.env.encOut.cutAfter n, decOut := s.env.decOut.cutAfter n } }

/-- Whenever `y` is answered, the sink has accepted at most `n` bytes more than in `s`, and they are the first
`n` of those it has accepted when `x` is answered too. -/
def AcceptsFirst (sink : State → Sink) (n : Nat) (s : State) (x y : Host.Outcome State Fault Refusal) : Prop :=
  ∀ t, y = .next t → ∃ xs, (sink t).out = (sink s).out ++ xs ∧ xs.length ≤ n ∧
    ∀ u xs', x = .next u → (sink u).out = (sink s).out ++ xs' → xs = xs'.take n

section outcomes

variable {sink : State → Sink} {n : Nat} {s : State} {x y : Host.Outcome State Fault Refusal}

/-- Neither command writes to the sink. -/
theorem AcceptsFirst.of_unchanged (hx : ∀ u, x = .next u → (sink u).out = (sink s).out)
    (hy : ∀ t, y = .next t → (sink t).out = (sink s).out) : AcceptsFirst sink n s x y := by
  refine fun t ht => ⟨[], by rw [hy t ht, List.append_nil], Nat.zero_le n, fun u xs' hu ho => ?_⟩
  rw [hx u hu, List.self_eq_append_right] at ho
  rw [ho, List.take_nil]

/-- The bytes accepted are the same, and at most `n`. -/
theorem take_eq_of_out_eq {out₀ out xs xs' : List Byte} (ho : out = out₀ ++ xs) (hn : xs.length ≤ n)
    (ho' : out = out₀ ++ xs') : xs = xs'.take n := by
  rw [← List.append_cancel_left (ho.symm.trans ho'), List.take_of_length_le hn]

theorem Flow.CutOf.acceptsFirst {R : State → State → Prop} {x y : Flow}
    (h : Flow.CutOf sink R (sink s).out n x y) (hr : ∀ t : State, sink (t.respond .ok 0) = sink t) :
    AcceptsFirst sink n s x.respondOk y.respondOk := by
  intro t ht
  cases h with
  | go _ hk =>
    cases ht
    obtain ⟨xs, hs, ht, hn⟩ := hk.out
    refine ⟨xs, by rw [hr, ht], hn, fun u xs' hu ho => ?_⟩
    cases hu
    exact take_eq_of_out_eq ((congrArg Sink.out (hr _)).trans hs) hn ho
  | ended hs ht' hn =>
    cases ht
    refine ⟨_, ht', hn, fun u xs' hu ho => ?_⟩
    cases hu
    exact take_eq_of_out_eq hs hn ho
  | silent hout ht' hn =>
    cases ht
    refine ⟨_, ht', hn.le, fun u xs' hu ho => ?_⟩
    have hpre := hout.respondOk (fun v hv => by rw [hr]; exact hv) hu
    rw [ho, List.prefix_append_right_inj] at hpre
    rw [← hn]
    exact List.prefix_iff_eq_take.1 hpre
  | fault => cases ht

theorem AcceptsFirst.next {u t : State} (hu : (sink u).out = (sink s).out) (ht : (sink t).out = (sink s).out) :
    AcceptsFirst sink n s (.next u) (.next t) :=
  .of_unchanged (fun _ h => by cases h; exact hu) fun _ h => by cases h; exact ht

end outcomes

section commands

variable (n : Nat) (s : State)

theorem State.cutSinks_encSink_out : (encSink (s.cutSinks n)).out = (encSink s).out := Sink.cutAfter_out _ n

theorem State.cutSinks_decSink_out : (decSink (s.cutSinks n)).out = (decSink s).out := Sink.cutAfter_out _ n

theorem exec_encPut_acceptsFirst (sym : Byte) :
    AcceptsFirst encSink n s (exec (.encPut sym) s) (exec (.encPut sym) (s.cutSinks n)) := by
  cases ho : s.enc.state.isOpen
  · rw [exec_encPut_closed ho, exec_encPut_closed (s := s.cutSinks n) ho]
    exact .next rfl (s.cutSinks_encSink_out n)
  · by_cases hc : s.enc.code sym = []
    · rw [exec_encPut_absent ho hc, exec_encPut_absent (s := s.cutSinks n) ho hc]
      exact .next rfl (s.cutSinks_encSink_out n)
    · rw [exec_encPut_run ho hc, exec_encPut_run (s := s.cutSinks n) ho hc]
      exact (Flow.CutOf.each putBit_cutOf putBit_extends (s.enc.code sym) s.startPut
        (s.cutSinks n).startPut ⟨rfl, rfl⟩ (Sink.cutTo_cutAfter _ n)).acceptsFirst fun _ => rfl

theorem exec_encEnd_acceptsFirst :
    AcceptsFirst encSink n s (exec .encEnd s) (exec .encEnd (s.cutSinks n)) := by
  cases ho : s.enc.state.isOpen
  · rw [exec_encEnd_closed ho, exec_encEnd_closed (s := s.cutSinks n) ho]
    exact .next rfl (s.cutSinks_encSink_out n)
  · rw [exec_encEnd_open ho, exec_encEnd_open (s := s.cutSinks n) ho]
    have hflush : Flow.CutOf encSink EncSame s.env.encOut.out n (flushAcc s.startEnd)
        (flushAcc (s.cutSinks n).startEnd) := flushAcc_cutOf ⟨rfl, rfl⟩ (Sink.cutTo_cutAfter _ n)
    exact (hflush.bind (fun _ _ hr hk => .go hr.finishEnd hk) fun _ _ hu => hu).acceptsFirst fun _ => rfl

theorem exec_decPut_acceptsFirst (byte : Byte) (m : BitVec 4) :
    AcceptsFirst decSink n s (exec (.decPut byte m) s) (exec (.decPut byte m) (s.cutSinks n)) := by
  by_cases hm : m.toNat ≤ 8
  · cases ho : s.dec.state.isOpen
    · rw [exec_decPut_closed hm ho, exec_decPut_closed (s := s.cutSinks n) hm ho]
      exact .next rfl (s.cutSinks_decSink_out n)
    · rw [exec_decPut_run hm ho, exec_decPut_run (s := s.cutSinks n) hm ho]
      exact (Flow.CutOf.each walkBit_cutOf walkBit_extends _ s.startWalk (s.cutSinks n).startWalk rfl
        (Sink.cutTo_cutAfter _ n)).acceptsFirst fun _ => rfl
  · rw [exec_decPut_illFormed (by omega), exec_decPut_illFormed (by omega)]
    exact .next rfl (s.cutSinks_decSink_out n)

theorem exec_acceptsFirst_enc (i : Instr) : AcceptsFirst encSink n s (exec i s) (exec i (s.cutSinks n)) := by
  cases i with
  | encPut sym => exact exec_encPut_acceptsFirst n s sym
  | encEnd => exact exec_encEnd_acceptsFirst n s
  | _ =>
    exact .of_unchanged (fun u hu => congrArg Sink.out ((exec_effect hu).encOut_eq nofun nofun)) fun t ht =>
      (congrArg Sink.out ((exec_effect ht).encOut_eq nofun nofun)).trans (s.cutSinks_encSink_out n)

theorem exec_acceptsFirst_dec (i : Instr) : AcceptsFirst decSink n s (exec i s) (exec i (s.cutSinks n)) := by
  cases i with
  | decPut byte m => exact exec_decPut_acceptsFirst n s byte m
  | _ =>
    exact .of_unchanged (fun u hu => congrArg Sink.out ((exec_effect hu).decOut_eq nofun)) fun t ht =>
      (congrArg Sink.out ((exec_effect ht).decOut_eq nofun)).trans (s.cutSinks_decSink_out n)

/-- The command word, an illegal one included. -/
theorem runWord_acceptsFirst (w : Word) : AcceptsFirst encSink n s (runWord w s) (runWord w (s.cutSinks n))
    ∧ AcceptsFirst decSink n s (runWord w s) (runWord w (s.cutSinks n)) := by
  unfold runWord
  cases decode w with
  | instr i => exact ⟨exec_acceptsFirst_enc n s i, exec_acceptsFirst_dec n s i⟩
  | illegal why => exact ⟨.next rfl (s.cutSinks_encSink_out n), .next rfl (s.cutSinks_decSink_out n)⟩

end commands

/-! ## The command word and the reset -/

theorem Flow.respondOk_ne_refused (x : Flow) (r : Refusal) : x.respondOk ≠ .refused r := by
  cases x <;> nofun

theorem exec_decPut_ne_refused (byte : Byte) (m : BitVec 4) (s : State) (r : Refusal) :
    exec (.decPut byte m) s ≠ .refused r := by
  by_cases hm : m.toNat ≤ 8
  · cases ho : s.dec.state.isOpen
    · rw [exec_decPut_closed hm ho]; nofun
    · rw [exec_decPut_run hm ho]; exact Flow.respondOk_ne_refused _ r
  · rw [exec_decPut_illFormed (by omega)]; nofun

/-- The model refuses no command: each is answered, or has read an entry never written. -/
theorem exec_next_or_fault (i : Instr) (s : State) :
    (∃ t, exec i s = .next t) ∨ ∃ j, exec i s = .fault (.unwrittenNode j) := by
  cases h : exec i s with
  | next t => exact .inl ⟨t, rfl⟩
  | fault r =>
    obtain ⟨-, j, rfl, -⟩ := onlyUnwrittenNodeFaults.2 i s r h
    exact .inr ⟨j, rfl⟩
  | refused r =>
    by_cases hi : ∃ byte m, i = .decPut byte m
    · obtain ⟨byte, m, rfl⟩ := hi
      exact absurd h (exec_decPut_ne_refused byte m s r)
    · push Not at hi
      obtain ⟨t, ht⟩ := exec_next_of_ne_decPut hi s
      cases ht.symm.trans h

theorem runWord_next_or_fault (w : Word) (s : State) :
    (∃ t, runWord w s = .next t) ∨ ∃ j, runWord w s = .fault (.unwrittenNode j) := by
  unfold runWord
  cases decode w with
  | instr i => exact exec_next_or_fault i s
  | illegal why => exact .inl ⟨_, rfl⟩

section abandoned

variable {s : State} {w : Word} {n : Nat}

theorem abandon_of_next {t : State} (h : runWord w (s.cutSinks n) = .next t) :
    abandon w n s = .next { s.hardReset with env := { s.env with
      encOut := s.env.encOut.resume n t.env.encOut, decOut := s.env.decOut.resume n t.env.decOut } } := by
  unfold abandon
  rw [show runWord w { s with env := _ } = _ from h]

theorem abandon_of_fault {r : Fault} (h : runWord w (s.cutSinks n) = .fault r) : abandon w n s = .fault r := by
  unfold abandon
  rw [show runWord w { s with env := _ } = _ from h]

theorem step_rstDuring {rest : List PortEvent} (hp : s.env.port = .rstDuring w n :: rest)
    (hs : s.env.stalled = false) : step s = abandon w n (s.withPort rest) := by
  simp [step, serve, hp, hs]

theorem step_withPort_cmd (rest : List PortEvent) (hs : s.env.stalled = false) :
    step (s.withPort (.cmd w :: rest)) = runWord w (s.withPort rest) := by
  simp [step, serve, hs]

end abandoned

/-- Settles O11: the command runs against sinks that fall silent after `n` answers, and the reset keeps what they
have accepted. -/
theorem resetDuringCommand : Obligations.ResetDuringCommand := by
  intro s w n rest hp hs
  rw [step_rstDuring hp hs, step_withPort_cmd rest hs]
  rcases runWord_next_or_fault w ((s.withPort rest).cutSinks n) with ⟨t, ht⟩ | ⟨j, hj⟩
  · obtain ⟨henc, hdec⟩ := runWord_acceptsFirst n (s.withPort rest) w
    obtain ⟨xs, hxs, hxn, hxu⟩ := henc t ht
    obtain ⟨ys, hys, hyn, hyu⟩ := hdec t ht
    exact .inr ⟨_, abandon_of_next ht, rfl, rfl, rfl, rfl, hs, rfl, xs, ys, hxs, hxn, hys, hyn,
      fun u xs' ys' hu hx hy => ⟨hxu u xs' hu hx, hyu u ys' hu hy⟩⟩
  · exact .inl ⟨j, abandon_of_fault hj⟩

end Sys2Proof.Machine
end
